-- ==== Sys2Proof/Word.lean ====
section
/-! DEFINITION. The plain words of this hardware: the row byte, and the level of a line.
Coordinates, lengths and shifts are mathematical integers (rule R13) and have no word type. -/

namespace Sys2Proof

/-- The only data unit of the block: the 8-bit row byte (rule R45). The bytes of a `WIRE16` pair are bytes too (rule R72). -/
abbrev Byte := BitVec 8

/-- The level of the chip-select line (rule R171). -/
inductive Level where
  | low
  | high
  deriving DecidableEq, Repr, Inhabited

end Sys2Proof
end

