-- ==== Sys2Proof/Syntax.lean ====
section
/-! DEFINITION. The instructions: one constructor per row of spec/opcode_table.json (11 rows of format CMD64, rule R63;
14 rows of format WIRE16, rule R73), and the encoded words of the two formats. -/

namespace Sys2Proof

/-- Operands of the CMD64 rows are the signed integers of rule R62, in the order of the assembler forms of rule R70
(the pixel value `v` last); the operand of a WIRE16 row is its data byte (rule R72). -/
inductive Instr where
  | setpx (x y : Int) (v : Bool)
  | getpx (x y : Int)
  | fill (v : Bool)
  | hline (x y w : Int) (v : Bool)
  | vline (x y h : Int) (v : Bool)
  | line (x0 y0 x1 y1 : Int) (v : Bool)
  | rect (x y w h : Int) (v : Bool)
  | fillrect (x y w h : Int) (v : Bool)
  | scroll (dx dy : Int)
  | setrot (deg : Int)
  | rdrow (y m : Int)
  | noop (data : Byte)
  | digit0 (data : Byte)
  | digit1 (data : Byte)
  | digit2 (data : Byte)
  | digit3 (data : Byte)
  | digit4 (data : Byte)
  | digit5 (data : Byte)
  | digit6 (data : Byte)
  | digit7 (data : Byte)
  | decodeMode (data : Byte)
  | intensity (data : Byte)
  | scanLimit (data : Byte)
  | shutdown (data : Byte)
  | displayTest (data : Byte)
  deriving DecidableEq, Repr

/-- An encoded instruction: one 64-bit command word presented to the block (rule R60), or one command and data byte
pair on the serial bus, the command byte in bits 15:8 (rule R72). -/
inductive Encoded where
  | cmd64 (w : BitVec 64)
  | wire16 (w : BitVec 16)
  deriving DecidableEq, Repr

/-- The rows of format CMD64: the commands of the block itself. -/
def Instr.isCommand : Instr → Bool
  | .setpx _ _ _ | .getpx _ _ | .fill _ | .hline _ _ _ _ | .vline _ _ _ _ | .line _ _ _ _ _ | .rect _ _ _ _ _
  | .fillrect _ _ _ _ _ | .scroll _ _ | .setrot _ | .rdrow _ _ => true
  | .noop _ | .digit0 _ | .digit1 _ | .digit2 _ | .digit3 _ | .digit4 _ | .digit5 _ | .digit6 _ | .digit7 _
  | .decodeMode _ | .intensity _ | .scanLimit _ | .shutdown _ | .displayTest _ => false

end Sys2Proof
end

