-- ==== Sys2Proof/Decode.lean ====
section
/-! DEFINITION. The decoder, total on every word and every list of bytes, written from the match and mask rows of rules
R64, R67 and R73; after it the encoder, written from the field table of rule R61. -/

namespace Sys2Proof

/-! ## Fields of a command word (rule R61) -/

def opField (w : BitVec 64) : BitVec 6 := w.extractLsb' 58 6
def vField (w : BitVec 64) : Bool := w.getLsbD 57
def rsvField (w : BitVec 64) : BitVec 9 := w.extractLsb' 48 9
def aField (w : BitVec 64) : BitVec 12 := w.extractLsb' 36 12
def bField (w : BitVec 64) : BitVec 12 := w.extractLsb' 24 12
def cField (w : BitVec 64) : BitVec 12 := w.extractLsb' 12 12
def dField (w : BitVec 64) : BitVec 12 := w.extractLsb' 0 12

/-- `sext_12` (rules R13 and R62): the field read as two's complement. -/
def sext12 (v : BitVec 12) : Int := v.toInt

/-- The operands of a command word (rule R62). -/
structure Operands where
  v : Bool
  a : Int
  b : Int
  c : Int
  d : Int
  deriving DecidableEq, Repr

def operandsOf (w : BitVec 64) : Operands :=
  { v := vField w, a := sext12 (aField w), b := sext12 (bField w), c := sext12 (cField w), d := sext12 (dField w) }

/-- One row of the opcode map: a word selects the row when `w & mask = match`. -/
structure CommandRow where
  pattern : BitVec 64
  mask : BitVec 64
  build : Operands → Instr

/-- The match and mask table of rule R64, in its order, with the operands of rule R63. -/
def commandRows : List CommandRow :=
  [ ⟨0x0400000000000000#64, 0xFDFF000000FFFFFF#64, fun o => .setpx o.a o.b o.v⟩,
    ⟨0x0800000000000000#64, 0xFFFF000000FFFFFF#64, fun o => .getpx o.a o.b⟩,
    ⟨0x0C00000000000000#64, 0xFDFFFFFFFFFFFFFF#64, fun o => .fill o.v⟩,
    ⟨0x1000000000000000#64, 0xFDFF000000000FFF#64, fun o => .hline o.a o.b o.c o.v⟩,
    ⟨0x1400000000000000#64, 0xFDFF000000000FFF#64, fun o => .vline o.a o.b o.c o.v⟩,
    ⟨0x1800000000000000#64, 0xFDFF000000000000#64, fun o => .line o.a o.b o.c o.d o.v⟩,
    ⟨0x1C00000000000000#64, 0xFDFF000000000000#64, fun o => .rect o.a o.b o.c o.d o.v⟩,
    ⟨0x2000000000000000#64, 0xFDFF000000000000#64, fun o => .fillrect o.a o.b o.c o.d o.v⟩,
    ⟨0x2400000000000000#64, 0xFFFF000000FFFFFF#64, fun o => .scroll o.a o.b⟩,
    ⟨0x2800000000000000#64, 0xFFFF000FFFFFFFFF#64, fun o => .setrot o.a⟩,
    ⟨0x2C00000000000000#64, 0xFFFF000000FFFFFF#64, fun o => .rdrow o.a o.b⟩ ]

/-- `Decode(w)` of rule R67 for the command port; none stands for `raise IllegalCommand()`. -/
def decodeCommand (w : BitVec 64) : Option Instr :=
  (commandRows.find? fun r => w &&& r.mask == r.pattern).map fun r => r.build (operandsOf w)

/-! ## The wire pair (rules R72 and R73) -/

def codeByte (w : BitVec 16) : Byte := w.extractLsb' 8 8
def dataByte (w : BitVec 16) : Byte := w.extractLsb' 0 8

/-- One row of the driver chip's register table: a pair selects the row when its command byte is the code. -/
structure WireRow where
  pattern : BitVec 16
  mask : BitVec 16
  build : Byte → Instr

/-- The register codes of rule R73; codes 13, 14 and 16 to 255 are in no row. -/
def wireRows : List WireRow :=
  [ ⟨0x0000#16, 0xFF00#16, .noop⟩,
    ⟨0x0100#16, 0xFF00#16, .digit0⟩,
    ⟨0x0200#16, 0xFF00#16, .digit1⟩,
    ⟨0x0300#16, 0xFF00#16, .digit2⟩,
    ⟨0x0400#16, 0xFF00#16, .digit3⟩,
    ⟨0x0500#16, 0xFF00#16, .digit4⟩,
    ⟨0x0600#16, 0xFF00#16, .digit5⟩,
    ⟨0x0700#16, 0xFF00#16, .digit6⟩,
    ⟨0x0800#16, 0xFF00#16, .digit7⟩,
    ⟨0x0900#16, 0xFF00#16, .decodeMode⟩,
    ⟨0x0A00#16, 0xFF00#16, .intensity⟩,
    ⟨0x0B00#16, 0xFF00#16, .scanLimit⟩,
    ⟨0x0C00#16, 0xFF00#16, .shutdown⟩,
    ⟨0x0F00#16, 0xFF00#16, .displayTest⟩ ]

def decodeWire (w : BitVec 16) : Option Instr :=
  (wireRows.find? fun r => w &&& r.mask == r.pattern).map fun r => r.build (dataByte w)

/-! ## The whole decoder -/

/-- Why a word or a byte sequence is no instruction. -/
inductive DecodeError where
  /-- A command word of no row: reserved operation code, `RSV` set, or an unused field set (rule R205). -/
  | illegalCommand
  /-- A wire pair whose command byte is not in the register table (rules R73 and R175). -/
  | unknownRegister
  /-- A byte sequence that is neither one command word nor one wire pair (rules R68 and R72). -/
  | wrongLength
  deriving DecidableEq, Repr

inductive Decoded where
  | ok (i : Instr)
  | rejected (e : DecodeError)
  deriving DecidableEq, Repr

/-- The decoder on encoded words: total, rejecting by name. -/
def decode : Encoded → Decoded
  | .cmd64 w => match decodeCommand w with
    | some i => .ok i
    | none => .rejected .illegalCommand
  | .wire16 w => match decodeWire w with
    | some i => .ok i
    | none => .rejected .unknownRegister

/-- A byte transport's words: a command word with bits 63:56 first (rule R45), a pair with the command byte first
(rule R72). -/
def encodedOfBytes : List Byte → Option Encoded
  | [c, d] => some (.wire16 (c ++ d))
  | [b7, b6, b5, b4, b3, b2, b1, b0] => some (.cmd64 (b7 ++ b6 ++ b5 ++ b4 ++ b3 ++ b2 ++ b1 ++ b0))
  | _ => none

/-- The decoder on any list of bytes. -/
def decodeBytes (bs : List Byte) : Decoded :=
  match encodedOfBytes bs with
  | some e => decode e
  | none => .rejected .wrongLength

/-- The word of an opcode-table row as the decoder takes it: a row of 16 bits is a wire pair, a wider one a command
word, each numbered from its least significant bit as the table numbers it. -/
def encodedOfTable (nbits w : Nat) : Encoded :=
  if nbits ≤ 16 then .wire16 (BitVec.ofNat 16 w) else .cmd64 (BitVec.ofNat 64 w)

/-- What the decoder reads from an instruction whose bits are `w`, numbered as spec/opcode_table.json numbers them. -/
def decodeTableWord (nbits w : Nat) : Option Instr :=
  match decode (encodedOfTable nbits w) with
  | .ok i => some i
  | .rejected _ => none

/-! ## The encoder -/

/-- Assembly of a command word from its fields (rule R61); `RSV` is zero. -/
def commandWord (op : BitVec 6) (v : Bool) (a b c d : Int) : BitVec 64 :=
  op ++ BitVec.ofBool v ++ 0#9 ++ BitVec.ofInt 12 a ++ BitVec.ofInt 12 b ++ BitVec.ofInt 12 c ++ BitVec.ofInt 12 d

/-- Assembly of a wire pair: the command byte in bits 15:8 (rule R72). -/
def wireWord (code data : Byte) : BitVec 16 := code ++ data

/-- The word of an instruction, by the operation codes and fields of rule R63 and the register codes of rule R73. -/
def encode : Instr → Encoded
  | .setpx x y v => .cmd64 (commandWord 0x01#6 v x y 0 0)
  | .getpx x y => .cmd64 (commandWord 0x02#6 false x y 0 0)
  | .fill v => .cmd64 (commandWord 0x03#6 v 0 0 0 0)
  | .hline x y w v => .cmd64 (commandWord 0x04#6 v x y w 0)
  | .vline x y h v => .cmd64 (commandWord 0x05#6 v x y h 0)
  | .line x0 y0 x1 y1 v => .cmd64 (commandWord 0x06#6 v x0 y0 x1 y1)
  | .rect x y w h v => .cmd64 (commandWord 0x07#6 v x y w h)
  | .fillrect x y w h v => .cmd64 (commandWord 0x08#6 v x y w h)
  | .scroll dx dy => .cmd64 (commandWord 0x09#6 false dx dy 0 0)
  | .setrot deg => .cmd64 (commandWord 0x0A#6 false deg 0 0 0)
  | .rdrow y m => .cmd64 (commandWord 0x0B#6 false y m 0 0)
  | .noop d => .wire16 (wireWord 0x00#8 d)
  | .digit0 d => .wire16 (wireWord 0x01#8 d)
  | .digit1 d => .wire16 (wireWord 0x02#8 d)
  | .digit2 d => .wire16 (wireWord 0x03#8 d)
  | .digit3 d => .wire16 (wireWord 0x04#8 d)
  | .digit4 d => .wire16 (wireWord 0x05#8 d)
  | .digit5 d => .wire16 (wireWord 0x06#8 d)
  | .digit6 d => .wire16 (wireWord 0x07#8 d)
  | .digit7 d => .wire16 (wireWord 0x08#8 d)
  | .decodeMode d => .wire16 (wireWord 0x09#8 d)
  | .intensity d => .wire16 (wireWord 0x0A#8 d)
  | .scanLimit d => .wire16 (wireWord 0x0B#8 d)
  | .shutdown d => .wire16 (wireWord 0x0C#8 d)
  | .displayTest d => .wire16 (wireWord 0x0F#8 d)

/-- The bytes of an encoded instruction, in the order of `encodedOfBytes`. -/
def Encoded.bytes : Encoded → List Byte
  | .cmd64 w => [w.extractLsb' 56 8, w.extractLsb' 48 8, w.extractLsb' 40 8, w.extractLsb' 32 8,
      w.extractLsb' 24 8, w.extractLsb' 16 8, w.extractLsb' 8 8, w.extractLsb' 0 8]
  | .wire16 w => [codeByte w, dataByte w]

end Sys2Proof
end

