-- ==== Sys2Proof/Config.lean ====
section
/-! DEFINITION. The free values: what the spec leaves open as "any value" (spec/93 K7, K13, K14, K15).
Each is an opaque constant without a body, so that no proof can see what it is. -/

namespace Sys2Proof

/-- The draw of byte `i` of the pixel store at construction (rule R31, K7, K19; log entry 2). -/
opaque Config.storeByteAtReset : Nat → Byte

/-- What register `code` of the driver chip of physical module `j` holds at construction, as `chipByteAtReset j code`.
The spec gives no value (rule R182, K15, N23; log entry 8). -/
opaque Config.chipByteAtReset : Nat → Nat → Byte

/-- The brightness recorded before the first `setBrightness` (rule R182, K15, N23; log entry 9). -/
opaque Config.brightnessAtReset : Fin 16

/-- The level of chip-select before the first window; the spec gives none (log entry 10). -/
opaque Config.selectAtReset : Level

/-- The level of chip-select after the failed bus write number `k` (rule R189, K13; log entry 11). -/
opaque Config.selectAfterFailure : Nat → Level

/-- What register `code` of physical module `j` holds after the draw number `k`, as `chipByteAfterFailure k j code`:
a register of the window whose write failed, or a row a failed `show` had not yet written (rule R189, K14;
log entry 12). -/
opaque Config.chipByteAfterFailure : Nat → Nat → Nat → Byte

end Sys2Proof
end

