-- ==== Sys2Proof/Machine/State.lean ====
section
/-! DEFINITION. The state of the machine, as plain data: the block (`FB`, `ROT`), its consumer the refresh sequencer and the
driver chips behind it (spec/44), and the inputs and outputs through which the outside world meets them. -/

namespace Sys2Proof.Machine

/-! ## Memory: the pixel store -/

/-- The pixel store `FB` (rule R22) as (index, byte) pairs. -/
abbrev Memory := List Host.Cell

/-- The one canonical form of a store of `n` modules: the cells are exactly those of indexes 0 to 8n-1, strictly rising.
An index that is not listed has no byte (rule R40: the store has no other address), so no entry equals what an unlisted
index reads as. -/
abbrev Memory.wf (n : Nat) (m : Memory) : Prop := m.map Prod.fst = List.range (8 * n)

/-- The store at construction: every byte a free draw (rule R31; log entry 2). -/
def Memory.atReset (n : Nat) : Memory := (List.range (8 * n)).map fun i => (i, Config.storeByteAtReset i)

/-! ## The block's response (rules R25 and R26) -/

inductive Status where
  | ok
  | outOfRange
  | invalidConfiguration
  | illegalCommand
  deriving DecidableEq, Repr

/-! ## The refresh sequencer and the driver chips (spec/44) -/

/-- The controller states of rule R178. -/
inductive Controller where
  | uninitialized
  | initialized
  | active
  deriving DecidableEq, Repr

/-- One command and data byte pair of a wire write (rule R171). -/
structure WirePair where
  code : Byte
  data : Byte
  deriving DecidableEq, Repr

/-- What is driven onto the bus and the chip-select line (rule R171). -/
inductive WireEvent where
  | selectLow
  | pair (p : WirePair)
  | selectHigh
  deriving DecidableEq, Repr

/-- How one bus write ends: it completes, it fails (rule R189), or it never returns (rule R190). -/
inductive BusOutcome where
  | completes
  | fails
  | blocks
  deriving DecidableEq, Repr

/-- The registers of one driver chip, one per row of the table of rule R73 that holds data. -/
structure Chip where
  digit0 : Byte
  digit1 : Byte
  digit2 : Byte
  digit3 : Byte
  digit4 : Byte
  digit5 : Byte
  digit6 : Byte
  digit7 : Byte
  decodeMode : Byte
  intensity : Byte
  scanLimit : Byte
  shutdown : Byte
  displayTest : Byte
  deriving DecidableEq, Repr

/-- The chip of physical module `j` at construction; the spec gives no value (log entry 8). -/
def Chip.atReset (j : Nat) : Chip where
  digit0 := Config.chipByteAtReset j 1
  digit1 := Config.chipByteAtReset j 2
  digit2 := Config.chipByteAtReset j 3
  digit3 := Config.chipByteAtReset j 4
  digit4 := Config.chipByteAtReset j 5
  digit5 := Config.chipByteAtReset j 6
  digit6 := Config.chipByteAtReset j 7
  digit7 := Config.chipByteAtReset j 8
  decodeMode := Config.chipByteAtReset j 9
  intensity := Config.chipByteAtReset j 10
  scanLimit := Config.chipByteAtReset j 11
  shutdown := Config.chipByteAtReset j 12
  displayTest := Config.chipByteAtReset j 15

/-! ## Inputs and outputs -/

/-- A cell of a grid: a boolean or an integer, nothing else (rule R152, K17). -/
inductive GridCell where
  | bool (b : Bool)
  | int (z : Int)
  deriving DecidableEq, Repr

/-- What the single host may ask for beside a command word: the pseudo-operations of rule R71 and the operations of the
refresh sequencer (spec/44). -/
inductive HostCall where
  | clear
  | loadMatrix (grid : List (List GridCell))
  | dumpMatrix
  | loadPattern (text onChar offChar : List Char)
  | readFrame
  | initialise
  | setBrightness (level : Int)
  | setRotation (degrees : Int)
  | showFrame
  deriving DecidableEq, Repr

/-- One thing the outside world presents to the machine. -/
inductive Input where
  /-- A command word at the block's command port, or a pair written on the serial bus. -/
  | word (e : Encoded)
  /-- A call of the host. -/
  | call (c : HostCall)
  deriving DecidableEq, Repr

/-- How a host call ends: the error kinds of rule R188, and the refusal of a `LOADPATTERN` (rule R158). -/
inductive CallResult where
  | ok
  | outOfRange
  | invalidConfiguration
  | transportFailure
  | notInitialized
  | patternRefused
  deriving DecidableEq, Repr

/-- What one step answers to the host. -/
inductive Reply where
  /-- The response of a block command (rule R25). -/
  | response (status : Status) (data : Byte)
  | call (r : CallResult)
  /-- The grid `DUMPMATRIX` returns (rule R153). -/
  | grid (rows : List (List Bool))
  /-- The row bytes `READFRAME` reads, in its order (rule R71). -/
  | frame (bytes : List Byte)
  deriving DecidableEq, Repr

/-! ## The state -/

structure State where
  /-- `N`, the module count: a construction parameter (rules R10, R24); nothing writes it. -/
  modules : Nat
  /-- `CHAIN_ORDER`, a construction parameter (rule R177): entry `k` is the physical module that receives pair `k` of a window. -/
  chainOrder : List Nat
  /-- `FB`, the pixel store (rule R22). -/
  fb : Memory
  /-- `ROT`, the orientation register (rule R23). -/
  rot : BitVec 2
  /-- The controller state of the sequencer (rule R178). -/
  ctrl : Controller
  /-- The brightness the sequencer keeps (rule R182). -/
  brightness : Fin 16
  /-- The level of the chip-select line (rule R171). -/
  select : Level
  /-- The pairs sent in the window that is open; empty when none is (rule R171). -/
  window : List WirePair
  /-- The driver chips, by physical module (rules R73 and R214). -/
  chips : List Chip
  /-- A bus write never returned, so the single host is stuck in it (rule R190, K6). -/
  hung : Bool
  /-- The model's own: what the outside world presents, first to come first (log entry 3). -/
  inputs : List Input
  /-- The model's own: how the coming bus writes end; a write past the end of the list completes (log entry 4). -/
  bus : List BusOutcome
  /-- The model's own: what the last step answered; read by nothing (rule R25; log entry 5). -/
  reply : Option Reply
  /-- The model's own: what the last step drove onto the bus, in order; read by nothing (log entry 5). -/
  sent : List WireEvent
  /-- The model's own: how many free values have been drawn (log entry 6). -/
  freeDraws : Nat
  deriving DecidableEq, Repr

/-- Why the machine stops. -/
inductive Fault where
  /-- Raised by GETPX, RDROW and `show` where the pixel they read has no byte in `FB`: only in a state that breaks the
  invariant (a store of another size, or `ROT` at 90° or 270° with several modules, which rule R135 excludes).
  No reachable state raises it. Safe: the machine stops where the spec says nothing. -/
  | outsideStore
  deriving DecidableEq, Repr

/-- Why the model gives no meaning. -/
inductive Refusal where
  /-- Raised by an arm of `exec` that has no meaning yet; no arm does. Safe. -/
  | notModelled (mnemonic : String)
  /-- Raised by a driver register write whose data byte the register table does not list as valid: what the chip does with
  it is not in the spec, and no model run contains it (rules R172 and R175, K9, N15). Safe. -/
  | dataOutsideTable
  /-- Raised by the step on a wire pair whose command byte is not in the register table (rule R175, K10, N16). Safe. -/
  | unknownRegister
  deriving DecidableEq, Repr

/-! ## Updates of one field -/

def State.withFb (s : State) (m : Memory) : State := { s with fb := m }
def State.withRot (s : State) (r : BitVec 2) : State := { s with rot := r }
def State.withCtrl (s : State) (c : Controller) : State := { s with ctrl := c }
def State.withBrightness (s : State) (b : Fin 16) : State := { s with brightness := b }
def State.withReply (s : State) (r : Option Reply) : State := { s with reply := r }

/-! ## Construction, which is reset (rule R220) -/

/-- The state after construction with `n` modules and the chain order `order` (rules R31 to R33, R178). -/
def State.built (n : Nat) (order : List Nat) : State where
  modules := n
  chainOrder := order
  fb := Memory.atReset n
  rot := 0#2
  ctrl := .uninitialized
  brightness := Config.brightnessAtReset
  select := Config.selectAtReset
  window := []
  chips := (List.range n).map Chip.atReset
  hung := false
  inputs := []
  bus := []
  reply := none
  sent := []
  freeDraws := 0

/-- The machine right after reset: construction with one module (`N` is the builder's choice; log entry 1). For one
module the only chain order is the one given. -/
def State.reset : State := State.built 1 [0]

end Sys2Proof.Machine
end

