-- ==== Sys2Proof/Machine/Flags.lean ====
section
/-! DEFINITION. The block has no condition codes, flags or predicates (rule R27); its only outcome bits are the status of
one response. Their codes and the response word are here. -/

namespace Sys2Proof.Machine

/-- The 2-bit status codes (rules R26 and R202). -/
def Status.code : Status → BitVec 2
  | .ok => 0#2
  | .outOfRange => 1#2
  | .invalidConfiguration => 2#2
  | .illegalCommand => 3#2

/-- `RESP = {status, data}` (rule R69). -/
def respWord (st : Status) (data : Byte) : BitVec 10 := st.code ++ data

/-- How a host call reports the status of the command it issued (rules R183 and R188). -/
def Status.toCallResult : Status → CallResult
  | .ok => .ok
  | .outOfRange => .outOfRange
  | .invalidConfiguration => .invalidConfiguration
  | .illegalCommand => .invalidConfiguration

end Sys2Proof.Machine
end

