-- ==== Sys2Proof/Machine/Operands.lean ====
section
/-! DEFINITION. Operands: the coordinates of the pixel store, the place of a pixel in it, the rotation transform and its
inverse, the accepted orientations, and the data values a driver register may be given. Plain functions; no state. -/

namespace Sys2Proof.Machine

/-- `InBounds(x, y)` of rule R14, with `W = 8 * n` and `H = 8` (rule R11). -/
abbrev InBounds (n : Nat) (x y : Int) : Prop := 0 ≤ x ∧ x < 8 * (n : Int) ∧ 0 ≤ y ∧ y < 8

/-- `ByteIndex(x, y)` of rule R42; used on in-bounds coordinates only. -/
def byteIndex (n : Nat) (x y : Int) : Nat := y.toNat * n + x.toNat / 8

/-- `BitIndex(x)` of rule R42: the smallest `x` of a row byte is its most significant bit. -/
def bitIndex (x : Int) : Nat := 7 - x.toNat % 8

/-- Bit `i` of a byte set to `b`, every other bit unchanged (rule R42). -/
def putBit (v : Byte) (i : Nat) (b : Bool) : Byte :=
  if b then v ||| (1#8 <<< i) else v &&& ~~~(1#8 <<< i)

/-- `zext_8` of one pixel bit (rules R13 and R102). -/
def pixelData (b : Bool) : Byte := if b then 0x01#8 else 0x00#8

/-- The byte `FILL v` writes everywhere (rule R103). -/
def fillByte (v : Bool) : Byte := if v then 0xFF#8 else 0x00#8

/-- The orientation in degrees is one of exactly four values (rule R134). -/
abbrev IsOrientation (deg : Int) : Prop := deg = 0 ∨ deg = 90 ∨ deg = 180 ∨ deg = 270

/-- The orientations that swap width and height (rule R131); refused when there are several modules (rule R135). -/
abbrev IsQuarterTurn (deg : Int) : Prop := deg = 90 ∨ deg = 270

/-- The code kept in `ROT` for an accepted orientation, `deg div 90` (rule R136). -/
def orientationCode (deg : Int) : BitVec 2 := BitVec.ofNat 2 (deg.toNat / 90)

/-- The forward transform `T_r` of rule R130, buffer coordinate in, transmitted coordinate out (spec/90 C2), for the
orientation code `r` of rule R23. -/
def rotate (n : Nat) (r : BitVec 2) (x y : Int) : Int × Int :=
  if r = 0#2 then (x, y)
  else if r = 1#2 then (8 - 1 - y, x)
  else if r = 2#2 then (8 * (n : Int) - 1 - x, 8 - 1 - y)
  else (y, 8 * (n : Int) - 1 - x)

/-- The inverse transform `T_r⁻¹` of rule R137: the buffer coordinate that the transmitted image shows at `(u, v)`. -/
def unrotate (n : Nat) (r : BitVec 2) (u v : Int) : Int × Int :=
  if r = 0#2 then (u, v)
  else if r = 1#2 then (v, 8 - 1 - u)
  else if r = 2#2 then (8 * (n : Int) - 1 - u, 8 - 1 - v)
  else (8 * (n : Int) - 1 - v, u)

/-! ## The driver chip's registers (rule R73) -/

def regNoop : Byte := 0x00#8
/-- Row `r` of 0 to 7 uses code `r + 1`. -/
def regDigit (r : Nat) : Byte := BitVec.ofNat 8 (r + 1)
def regDecodeMode : Byte := 0x09#8
def regIntensity : Byte := 0x0A#8
def regScanLimit : Byte := 0x0B#8
def regShutdown : Byte := 0x0C#8
def regDisplayTest : Byte := 0x0F#8

/-- The "valid DATA" column of rule R73; false for a code the table does not list. -/
def validData (code data : Byte) : Bool :=
  if code = regNoop then data = 0#8
  else if code.toNat ≤ 8 then true
  else if code = regDecodeMode then data = 0#8
  else if code = regIntensity then data.toNat ≤ 15
  else if code = regScanLimit then data.toNat ≤ 7
  else if code = regShutdown then data.toNat ≤ 1
  else if code = regDisplayTest then data.toNat ≤ 1
  else false

end Sys2Proof.Machine
end

