-- ==== Sys2Proof/Machine/Ops.lean ====
section
/-! DEFINITION. The named operations over the pixel store, the response, the serial bus and the driver chips, from which
every meaning is built. -/

namespace Sys2Proof.Machine

/-! ## The pixel store (rules R14 and R42) -/

/-- `MemRead(i, 1)`: byte `i` of the store; none where the store has no byte `i`. -/
def Memory.read : Memory → Nat → Option Byte
  | [], _ => none
  | (k, v) :: m, i => if k = i then some v else Memory.read m i

/-- `MemWrite(i, 1, v)`: every other byte unchanged; nothing where the store has no byte `i`. -/
def Memory.write (m : Memory) (i : Nat) (v : Byte) : Memory :=
  m.map fun c => if c.1 = i then (c.1, v) else c

/-- `P(x, y)` where it is defined: none out of bounds. -/
def Memory.pixel? (m : Memory) (n : Nat) (x y : Int) : Option Bool :=
  if InBounds n x y then (m.read (byteIndex n x y)).map fun v => v.getLsbD (bitIndex x) else none

/-- `SetP(x, y, b)`; used on in-bounds coordinates only. -/
def Memory.setPixel (m : Memory) (n : Nat) (x y : Int) (b : Bool) : Memory :=
  match m.read (byteIndex n x y) with
  | some v => m.write (byteIndex n x y) (putBit v (bitIndex x) b)
  | none => m

/-- `Plot(x, y, b)`: the clipped pixel write of every drawing primitive. -/
def Memory.plot (m : Memory) (n : Nat) (x y : Int) (b : Bool) : Memory :=
  if InBounds n x y then m.setPixel n x y b else m

/-- `for (x, y) in ps: Plot(x, y, b)`. -/
def Memory.plotAll (m : Memory) (n : Nat) (ps : List (Int × Int)) (b : Bool) : Memory :=
  ps.foldl (fun m p => m.plot n p.1 p.2 b) m

/-- The coordinates that `FillRect(x, y, w, h, b)` of rule R104 plots, in its order: `for j in [0, h): for i in [0, w)`;
none when `w ≤ 0` or `h ≤ 0`. -/
def rectPixels (x y w h : Int) : List (Int × Int) :=
  (List.range h.toNat).flatMap fun (j : Nat) => (List.range w.toNat).map fun (i : Nat) => (x + i, y + j)

/-- `FillRect(x, y, w, h, b)` of rule R104. -/
def Memory.fillRect (m : Memory) (n : Nat) (x y w h : Int) (b : Bool) : Memory :=
  m.plotAll n (rectPixels x y w h) b

/-- `for i in [0, B): MemWrite(i, 1, v)` (rule R103). -/
def Memory.fillAll (m : Memory) (n : Nat) (v : Byte) : Memory :=
  (List.range (8 * n)).foldl (fun m i => m.write i v) m

/-- Every coordinate of a store of `n` modules: `for y in [0, 8): for x in [0, W)`. -/
def storePixels (n : Nat) : List (Int × Int) := rectPixels 0 0 (8 * n) 8

/-- The loop of rule R110: each pixel of the result comes from the store `old` before the command, and is 0 where the
source lies out of bounds. -/
def Memory.scroll (old : Memory) (n : Nat) (dx dy : Int) : Memory :=
  (storePixels n).foldl
    (fun m p => m.setPixel n p.1 p.2 ((old.pixel? n (p.1 - dx) (p.2 - dy)).getD false)) old

/-- The loop of rule R107, `fuel` emissions at most. -/
def lineFrom (x1 y1 dx dy sx sy : Int) : Nat → Int → Int → Int → List (Int × Int)
  | 0, _, _, _ => []
  | fuel + 1, x, y, err =>
    (x, y) ::
      if x = x1 ∧ y = y1 then []
      else
        let e2 := 2 * err
        let errX := if e2 ≥ dy then err + dy else err
        let nextX := if e2 ≥ dy then x + sx else x
        let errY := if e2 ≤ dx then errX + dx else errX
        let nextY := if e2 ≤ dx then y + sy else y
        lineFrom x1 y1 dx dy sx sy fuel nextX nextY errY

/-- `LinePixels(x0, y0, x1, y1)` of rule R107. The fuel is the length the rule states,
`max(|x1 − x0|, |y1 − y0|) + 1`. -/
def linePixels (x0 y0 x1 y1 : Int) : List (Int × Int) :=
  let dx : Int := (x1 - x0).natAbs
  let sx : Int := if x0 < x1 then 1 else -1
  let dy : Int := -((y1 - y0).natAbs : Int)
  let sy : Int := if y0 < y1 then 1 else -1
  lineFrom x1 y1 dx dy sx sy (max (x1 - x0).natAbs (y1 - y0).natAbs + 1) x0 y0 (dx + dy)

/-! ## The transmitted image (rules R137, R139 and R141) -/

/-- `Img(u, v)`: the store read at the inverse transform. -/
def Memory.image? (m : Memory) (n : Nat) (rot : BitVec 2) (u v : Int) : Option Bool :=
  m.pixel? n (unrotate n rot u v).1 (unrotate n rot u v).2

/-- The row byte of rule R139: `for i in [0, 8): d[7 − i] = Img(8m + i, y)`. -/
def Memory.rowByte? (m : Memory) (n : Nat) (rot : BitVec 2) (y k : Int) : Option Byte :=
  (List.range 8).foldlM
    (fun d (i : Nat) => (m.image? n rot (8 * k + i) y).map fun b => putBit d (7 - i) b) 0#8

/-- The source's own way to the same image (rules R28 and R141): visit every buffer pixel, map it through the forward
transform, paint it into a scratch store. -/
def Memory.paint (m : Memory) (n : Nat) (rot : BitVec 2) (scratch : Memory) : Memory :=
  (storePixels n).foldl
    (fun sc p => sc.plot n (rotate n rot p.1 p.2).1 (rotate n rot p.1 p.2).2 ((m.pixel? n p.1 p.2).getD false)) scratch

/-! ## Ending a command (rules R15 and R201) -/

/-- `respond(d)`: status `OK` and data `d`. -/
def respond (d : Byte) (s : State) : Host.Outcome State Fault Refusal :=
  .next (s.withReply (some (.response .ok d)))

/-- `raise OutOfRange()`, `raise InvalidConfiguration()`, `raise IllegalCommand()`: that status, data 0, and no change to
any other state. There is no trap entry and no return from one (rules R200, R210, R211). -/
def raise (st : Status) (s : State) : Host.Outcome State Fault Refusal :=
  .next (s.withReply (some (.response st 0x00#8)))

/-! ## The driver chip (rules R172 and R173) -/

/-- A register write of one chip. The No-op code, and a code the table does not list, write nothing. -/
def Chip.write (c : Chip) (code v : Byte) : Chip :=
  if code = regDigit 0 then { c with digit0 := v }
  else if code = regDigit 1 then { c with digit1 := v }
  else if code = regDigit 2 then { c with digit2 := v }
  else if code = regDigit 3 then { c with digit3 := v }
  else if code = regDigit 4 then { c with digit4 := v }
  else if code = regDigit 5 then { c with digit5 := v }
  else if code = regDigit 6 then { c with digit6 := v }
  else if code = regDigit 7 then { c with digit7 := v }
  else if code = regDecodeMode then { c with decodeMode := v }
  else if code = regIntensity then { c with intensity := v }
  else if code = regScanLimit then { c with scanLimit := v }
  else if code = regShutdown then { c with shutdown := v }
  else if code = regDisplayTest then { c with displayTest := v }
  else c

/-- What register `code` of a chip holds; none for No-op and for a code the table does not list. -/
def Chip.read (c : Chip) (code : Byte) : Option Byte :=
  if code = regDigit 0 then some c.digit0
  else if code = regDigit 1 then some c.digit1
  else if code = regDigit 2 then some c.digit2
  else if code = regDigit 3 then some c.digit3
  else if code = regDigit 4 then some c.digit4
  else if code = regDigit 5 then some c.digit5
  else if code = regDigit 6 then some c.digit6
  else if code = regDigit 7 then some c.digit7
  else if code = regDecodeMode then some c.decodeMode
  else if code = regIntensity then some c.intensity
  else if code = regScanLimit then some c.scanLimit
  else if code = regShutdown then some c.shutdown
  else if code = regDisplayTest then some c.displayTest
  else none

/-- What register `code` of physical module `j` holds. -/
def State.chipRegister (s : State) (j : Nat) (code : Byte) : Option Byte := s.chips[j]?.bind fun c => c.read code

/-- The dot of row `row` and column `col` of one module: bit `7 − col` of its row pattern, a 1 for a lit dot (rules R44 and
R194). Whether the chip shows its rows at all is for its shutdown and display-test registers. -/
def Chip.dot (c : Chip) (row col : Nat) : Option Bool := (c.read (regDigit row)).map fun v => v.getLsbD (7 - col)

/-- The end of a window: pair `k` reaches the module `CHAIN_ORDER` gives for `k`, which writes the register the pair names
(rules R173 and R177). -/
def latch (order : List Nat) (ps : List WirePair) (chips : List Chip) : List Chip :=
  (order.zip ps).foldl (fun cs kp => cs.modify kp.1 fun c => c.write kp.2.code kp.2.data) chips

/-- Register `code` of every chip takes a free value (rule R189, K14). -/
def scramble (draw : Nat) (code : Byte) (chips : List Chip) : List Chip :=
  chips.mapIdx fun j c => c.write code (Config.chipByteAfterFailure draw j code.toNat)

/-- The same for each register of a list, in one draw. -/
def scrambleAll (draw : Nat) (codes : List Byte) (chips : List Chip) : List Chip :=
  codes.foldl (fun cs code => scramble draw code cs) chips

/-! ## The serial bus (rules R171, R189 and R190) -/

/-- How a bus write, a window or a call ended. -/
inductive BusResult where
  | done
  | failed
  | blocked
  deriving DecidableEq, Repr

/-- Chip-select is driven low: the window opens, and what an earlier window left unfinished is shifted out. -/
def State.openWindow (s : State) : State :=
  { s with select := .low, window := [], sent := s.sent ++ [.selectLow] }

/-- Chip-select is driven high: every module takes its pair. -/
def State.closeWindow (s : State) : State :=
  { s with select := .high, window := [], chips := latch s.chainOrder s.window s.chips, sent := s.sent ++ [.selectHigh] }

/-- One pair has been sent. -/
def State.pushPair (p : WirePair) (s : State) : State :=
  { s with window := s.window ++ [p], sent := s.sent ++ [.pair p] }

/-- A bus write did not complete: the pairs sent before it stay sent, chip-select is left at any level, and the register it
was to write, and those of the pairs of its unfinished window, hold any value in every module (rule R189, K13, K14). -/
def State.failPair (p : WirePair) (s : State) : State :=
  { s with
    select := Config.selectAfterFailure s.freeDraws
    window := []
    chips := scrambleAll s.freeDraws (s.window.map WirePair.code ++ [p.code]) s.chips
    freeDraws := s.freeDraws + 1 }

/-- `WireWrite`: one pair is written to the bus, and the write ends as the outside world says. -/
def wireWrite (p : WirePair) (s : State) : State × BusResult :=
  match s.bus with
  | [] => (s.pushPair p, .done)
  | .completes :: rest => (({ s with bus := rest } : State).pushPair p, .done)
  | .fails :: rest => (({ s with bus := rest } : State).failPair p, .failed)
  | .blocks :: _ => ({ s with hung := true }, .blocked)

/-- The pairs of a window back to back, then chip-select high. -/
def sendPairs : List WirePair → State → State × BusResult
  | [], s => (s.closeWindow, .done)
  | p :: ps, s =>
    match wireWrite p s with
    | (t, .done) => sendPairs ps t
    | (t, .failed) => (t, .failed)
    | (t, .blocked) => (t, .blocked)

/-- `Window([p0, p1, …])` of rule R171. -/
def sendWindow (ps : List WirePair) (s : State) : State × BusResult := sendPairs ps s.openWindow

/-- Windows one after another, up to the first that does not complete (rule R189: no retry). -/
def sendWindows : List (List WirePair) → State → State × BusResult
  | [], s => (s, .done)
  | ps :: rest, s =>
    match sendWindow ps s with
    | (t, .done) => sendWindows rest t
    | (t, .failed) => (t, .failed)
    | (t, .blocked) => (t, .blocked)

/-- One pair on its own, as an instruction of format WIRE16: it opens a window if none is open, and the pair that makes the
window `N` pairs long closes it, since a window holds one pair per module (rule R173; log entry 13). -/
def wirePair (p : WirePair) (s : State) : State × BusResult :=
  match wireWrite p (if s.window = [] then s.openWindow else s) with
  | (t, .done) => (if t.modules ≤ t.window.length then t.closeWindow else t, .done)
  | (t, .failed) => (t, .failed)
  | (t, .blocked) => (t, .blocked)

/-- What the host hears when a bus operation returns; a write that never returns answers nothing. -/
def BusResult.reply : BusResult → Option Reply
  | .done => some (.call .ok)
  | .failed => some (.call .transportFailure)
  | .blocked => none

/-- A driver register write: a data value the table does not list is never sent (rule R175, K9). -/
def registerWrite (code data : Byte) (s : State) : Host.Outcome State Fault Refusal :=
  if validData code data then .next ((wirePair ⟨code, data⟩ s).1.withReply (wirePair ⟨code, data⟩ s).2.reply)
  else .refused .dataOutsideTable

/-- The bits of a pair as they are shifted onto the bus, for the parameter `WIRE_BIT_ORDER` (rule R176): the command byte
before the data byte (rule R72), the bits of each byte in the order given (by bit number). -/
def WirePair.bits (order : List Nat) (p : WirePair) : List Bool :=
  (order.map fun i => p.code.getLsbD i) ++ order.map fun i => p.data.getLsbD i

/-! ## The input port and construction -/

/-- What a step starts from once it has taken its input: the outputs of the step before are gone (rule R25: a response is
not kept). -/
def State.taken (s : State) (rest : List Input) : State := { s with inputs := rest, reply := none, sent := [] }

/-- An encoded word placed first among the inputs, and a host that is free to issue it. -/
def State.presenting (s : State) (e : Encoded) : State := { s with inputs := .word e :: s.inputs, hung := false }

/-- Construction is refused unless `1 ≤ N ≤ 255` (rules R10 and R221); the chain order must name each module once. -/
def construct (n : Nat) (order : List Nat) : Option State :=
  if 1 ≤ n ∧ n ≤ 255 ∧ order.Perm (List.range n) then some (State.built n order) else none

end Sys2Proof.Machine
end

