-- ==== Sys2Proof/Machine/DriverChip.lean ====
section
/-! DEFINITION. The driver register writes of format WIRE16 (rules R72, R73, R171 to R174): one pair on the serial bus. -/

namespace Sys2Proof.Machine

/-- No-op: no register is written (rule R172). -/
def execNoop (data : Byte) (s : State) : Host.Outcome State Fault Refusal := registerWrite regNoop data s

/-- Digit 0: the row pattern of row 0 (rules R172 and R184). -/
def execDigit0 (data : Byte) (s : State) : Host.Outcome State Fault Refusal := registerWrite (regDigit 0) data s

/-- Digit 1: the row pattern of row 1 (rules R172 and R184). -/
def execDigit1 (data : Byte) (s : State) : Host.Outcome State Fault Refusal := registerWrite (regDigit 1) data s

/-- Digit 2: the row pattern of row 2 (rules R172 and R184). -/
def execDigit2 (data : Byte) (s : State) : Host.Outcome State Fault Refusal := registerWrite (regDigit 2) data s

/-- Digit 3: the row pattern of row 3 (rules R172 and R184). -/
def execDigit3 (data : Byte) (s : State) : Host.Outcome State Fault Refusal := registerWrite (regDigit 3) data s

/-- Digit 4: the row pattern of row 4 (rules R172 and R184). -/
def execDigit4 (data : Byte) (s : State) : Host.Outcome State Fault Refusal := registerWrite (regDigit 4) data s

/-- Digit 5: the row pattern of row 5 (rules R172 and R184). -/
def execDigit5 (data : Byte) (s : State) : Host.Outcome State Fault Refusal := registerWrite (regDigit 5) data s

/-- Digit 6: the row pattern of row 6 (rules R172 and R184). -/
def execDigit6 (data : Byte) (s : State) : Host.Outcome State Fault Refusal := registerWrite (regDigit 6) data s

/-- Digit 7: the row pattern of row 7 (rules R172 and R184). -/
def execDigit7 (data : Byte) (s : State) : Host.Outcome State Fault Refusal := registerWrite (regDigit 7) data s

/-- Decode mode: 0, no BCD decode (rules R172 and R179). -/
def execDecodeMode (data : Byte) (s : State) : Host.Outcome State Fault Refusal := registerWrite regDecodeMode data s

/-- Intensity: the brightness 0 to 15 (rules R172 and R182). -/
def execIntensity (data : Byte) (s : State) : Host.Outcome State Fault Refusal := registerWrite regIntensity data s

/-- Scan limit: 0 to 7, where 7 is all eight rows (rules R172 and R179). -/
def execScanLimit (data : Byte) (s : State) : Host.Outcome State Fault Refusal := registerWrite regScanLimit data s

/-- Shutdown: 0 is shutdown, 1 normal operation (rules R172 and R179, spec/90 C7). -/
def execShutdown (data : Byte) (s : State) : Host.Outcome State Fault Refusal := registerWrite regShutdown data s

/-- Display test: 0 is off, 1 is on (rules R172 and R179). -/
def execDisplayTest (data : Byte) (s : State) : Host.Outcome State Fault Refusal := registerWrite regDisplayTest data s

end Sys2Proof.Machine
end

