-- ==== Sys2Proof/Machine/FrameBuffer.lean ====
section
/-! DEFINITION. The FrameBuffer commands of spec/41, one definition per command, in buffer-local coordinates: `ROT` neither
affects nor is affected by any of them (rule R100). -/

namespace Sys2Proof.Machine

/-- Rule R101. -/
def execSetpx (x y : Int) (v : Bool) (s : State) : Host.Outcome State Fault Refusal :=
  if InBounds s.modules x y then respond 0x00#8 (s.withFb (s.fb.setPixel s.modules x y v))
  else raise .outOfRange s

/-- Rule R102. -/
def execGetpx (x y : Int) (s : State) : Host.Outcome State Fault Refusal :=
  if InBounds s.modules x y then
    match s.fb.pixel? s.modules x y with
    | some b => respond (pixelData b) s
    | none => .fault .outsideStore
  else raise .outOfRange s

/-- Rule R103. -/
def execFill (v : Bool) (s : State) : Host.Outcome State Fault Refusal :=
  respond 0x00#8 (s.withFb (s.fb.fillAll s.modules (fillByte v)))

/-- Rule R105. -/
def execHline (x y w : Int) (v : Bool) (s : State) : Host.Outcome State Fault Refusal :=
  respond 0x00#8 (s.withFb (s.fb.fillRect s.modules x y w 1 v))

/-- Rule R106. -/
def execVline (x y h : Int) (v : Bool) (s : State) : Host.Outcome State Fault Refusal :=
  respond 0x00#8 (s.withFb (s.fb.fillRect s.modules x y 1 h v))

/-- Rule R108. -/
def execLine (x0 y0 x1 y1 : Int) (v : Bool) (s : State) : Host.Outcome State Fault Refusal :=
  respond 0x00#8 (s.withFb (s.fb.plotAll s.modules (linePixels x0 y0 x1 y1) v))

/-- The four edges of rule R109, in its order. -/
def Memory.outline (m : Memory) (n : Nat) (x y w h : Int) (b : Bool) : Memory :=
  if 1 ≤ w ∧ 1 ≤ h then
    let top := m.fillRect n x y w 1 b
    let bottom := top.fillRect n x (y + h - 1) w 1 b
    let left := bottom.fillRect n x y 1 h b
    left.fillRect n (x + w - 1) y 1 h b
  else m

/-- Rule R109. -/
def execRect (x y w h : Int) (v : Bool) (s : State) : Host.Outcome State Fault Refusal :=
  respond 0x00#8 (s.withFb (s.fb.outline s.modules x y w h v))

/-- Rule R104. -/
def execFillrect (x y w h : Int) (v : Bool) (s : State) : Host.Outcome State Fault Refusal :=
  respond 0x00#8 (s.withFb (s.fb.fillRect s.modules x y w h v))

/-- Rule R110. -/
def execScroll (dx dy : Int) (s : State) : Host.Outcome State Fault Refusal :=
  respond 0x00#8 (s.withFb (s.fb.scroll s.modules dx dy))

end Sys2Proof.Machine
end

