-- ==== Sys2Proof/Machine/Rotation.lean ====
section
/-! DEFINITION. The rotation multiplexer's commands of spec/42. -/

namespace Sys2Proof.Machine

/-- Rule R138. -/
def execSetrot (deg : Int) (s : State) : Host.Outcome State Fault Refusal :=
  if ¬ IsOrientation deg then raise .invalidConfiguration s
  else if s.modules > 1 ∧ IsQuarterTurn deg then raise .invalidConfiguration s
  else respond 0x00#8 (s.withRot (orientationCode deg))

/-- Rule R139. -/
def execRdrow (y m : Int) (s : State) : Host.Outcome State Fault Refusal :=
  if y < 0 ∨ y ≥ 8 ∨ m < 0 ∨ m ≥ s.modules then raise .outOfRange s
  else
    match s.fb.rowByte? s.modules s.rot y m with
    | some d => respond d s
    | none => .fault .outsideStore

end Sys2Proof.Machine
end

