-- ==== Sys2Proof/Machine/Dispatch.lean ====
section
/-! DEFINITION. The dispatch: one arm per constructor of Instr. -/

namespace Sys2Proof.Machine

def exec (i : Instr) (s : State) : Host.Outcome State Fault Refusal :=
  match i with
  | .setpx x y v => Sys2Proof.Machine.execSetpx x y v s
  | .getpx x y => Sys2Proof.Machine.execGetpx x y s
  | .fill v => Sys2Proof.Machine.execFill v s
  | .hline x y w v => Sys2Proof.Machine.execHline x y w v s
  | .vline x y h v => Sys2Proof.Machine.execVline x y h v s
  | .line x0 y0 x1 y1 v => Sys2Proof.Machine.execLine x0 y0 x1 y1 v s
  | .rect x y w h v => Sys2Proof.Machine.execRect x y w h v s
  | .fillrect x y w h v => Sys2Proof.Machine.execFillrect x y w h v s
  | .scroll dx dy => Sys2Proof.Machine.execScroll dx dy s
  | .setrot deg => Sys2Proof.Machine.execSetrot deg s
  | .rdrow y m => Sys2Proof.Machine.execRdrow y m s
  | .noop data => Sys2Proof.Machine.execNoop data s
  | .digit0 data => Sys2Proof.Machine.execDigit0 data s
  | .digit1 data => Sys2Proof.Machine.execDigit1 data s
  | .digit2 data => Sys2Proof.Machine.execDigit2 data s
  | .digit3 data => Sys2Proof.Machine.execDigit3 data s
  | .digit4 data => Sys2Proof.Machine.execDigit4 data s
  | .digit5 data => Sys2Proof.Machine.execDigit5 data s
  | .digit6 data => Sys2Proof.Machine.execDigit6 data s
  | .digit7 data => Sys2Proof.Machine.execDigit7 data s
  | .decodeMode data => Sys2Proof.Machine.execDecodeMode data s
  | .intensity data => Sys2Proof.Machine.execIntensity data s
  | .scanLimit data => Sys2Proof.Machine.execScanLimit data s
  | .shutdown data => Sys2Proof.Machine.execShutdown data s
  | .displayTest data => Sys2Proof.Machine.execDisplayTest data s

end Sys2Proof.Machine
end

