-- ==== Sys2Proof/Machine/Codec.lean ====
section
/-! DEFINITION. The host-side pseudo-operations of rule R71 and spec/43: each expands to block commands and adds no state. -/

namespace Sys2Proof.Machine

/-! ## Running an expansion -/

/-- The commands of an expansion one after another with no other command between them (rule R150), and the replies they
answered, first first. -/
def runCommands : List Instr → State → Host.Outcome (State × List (Option Reply)) Fault Refusal
  | [], s => .next (s, [])
  | i :: is, s =>
    match exec i s with
    | .fault f => .fault f
    | .refused r => .refused r
    | .next t =>
      match runCommands is t with
      | .fault f => .fault f
      | .refused r => .refused r
      | .next (u, rs) => .next (u, t.reply :: rs)

/-- The data byte of a response; a reply that is no response has none. -/
def replyData : Option Reply → Byte
  | some (.response _ d) => d
  | _ => 0x00#8

/-- A pseudo-operation as one call: its expansion runs, and `answer` makes the call's reply from the responses. -/
def runExpansion (cmds : List Instr) (answer : List (Option Reply) → Reply) (s : State) :
    Host.Outcome State Fault Refusal :=
  match runCommands cmds s with
  | .fault f => .fault f
  | .refused r => .refused r
  | .next (t, rs) => .next (t.withReply (some (answer rs)))

/-! ## Grids (rules R151 to R155) -/

/-- `Truthy(cell)` (rule R152). -/
def truthy : GridCell → Bool
  | .bool b => b
  | .int z => z != 0

/-- The `SETPX` commands of one row of a grid, from column `c` on; cells from column `W` on are dropped (rule R151). -/
def rowCommands (n r : Nat) : Nat → List GridCell → List Instr
  | _, [] => []
  | c, cell :: cells =>
    if c < 8 * n then .setpx (c : Int) (r : Int) (truthy cell) :: rowCommands n r (c + 1) cells else []

/-- The `SETPX` commands of a grid, from row `r` on; rows from row 8 on are dropped (rule R151). -/
def gridCommands (n : Nat) : Nat → List (List GridCell) → List Instr
  | _, [] => []
  | r, row :: rows => if r < 8 then rowCommands n r 0 row ++ gridCommands n (r + 1) rows else []

/-- The expansion of `LOADMATRIX grid` (rule R151). -/
def loadMatrixCommands (n : Nat) (grid : List (List GridCell)) : List Instr :=
  .fill false :: gridCommands n 0 grid

/-- The expansion of `DUMPMATRIX` (rule R153). -/
def dumpMatrixCommands (n : Nat) : List Instr := (storePixels n).map fun p => .getpx p.1 p.2

/-- `w` responses a row make the grid of `DUMPMATRIX`: `grid[y][x] = bool(data[0])` (rule R153). -/
def gridOf (w : Nat) : Nat → List (Option Reply) → List (List Bool)
  | 0, _ => []
  | rows + 1, rs => ((rs.take w).map fun r => (replyData r).getLsbD 0) :: gridOf w rows (rs.drop w)

/-- The expansion of `READFRAME` (rules R71 and R184). -/
def readFrameCommands (n : Nat) : List Instr :=
  (List.range 8).flatMap fun (y : Nat) => (List.range n).map fun (m : Nat) => .rdrow (y : Int) (m : Int)

/-! ## Text patterns (rules R156 to R158) -/

/-- The whitespace of rule R157: space, tab, line feed, vertical tab, form feed, carriage return. -/
def isPatternSpace (c : Char) : Bool :=
  c.toNat == 0x20 || c.toNat == 0x09 || c.toNat == 0x0A || c.toNat == 0x0B || c.toNat == 0x0C || c.toNat == 0x0D

/-- A text cut at every character of code `sep`; the separators are part of no piece. -/
def splitOnCode (sep : Nat) : List Char → List (List Char)
  | [] => [[]]
  | c :: cs =>
    if c.toNat == sep then [] :: splitOnCode sep cs
    else
      match splitOnCode sep cs with
      | [] => [[c]]
      | l :: ls => (c :: l) :: ls

/-- `SplitLines` of rule R157: cut at every line feed. -/
def splitLines (text : List Char) : List (List Char) := splitOnCode 0x0A text

/-- `Trim` of rule R157. -/
def trimLine (l : List Char) : List Char :=
  ((l.dropWhile isPatternSpace).reverse.dropWhile isPatternSpace).reverse

/-- The grid of `LOADPATTERN` (rule R156): a character that is not `onChar` is off. -/
def patternGrid (text : List Char) (onChar : Char) : List (List GridCell) :=
  (((splitLines text).map trimLine).filter fun l => !l.isEmpty).map fun l =>
    l.map fun ch => GridCell.int (if ch = onChar then 1 else 0)

/-! ## The calls -/

/-- `CLEAR` (rule R71). -/
def callClear (s : State) : Host.Outcome State Fault Refusal :=
  runExpansion [.fill false] (fun _ => .call .ok) s

/-- `LOADMATRIX grid` (rule R151). -/
def callLoadMatrix (grid : List (List GridCell)) (s : State) : Host.Outcome State Fault Refusal :=
  runExpansion (loadMatrixCommands s.modules grid) (fun _ => .call .ok) s

/-- `DUMPMATRIX` (rule R153). -/
def callDumpMatrix (s : State) : Host.Outcome State Fault Refusal :=
  runExpansion (dumpMatrixCommands s.modules) (fun rs => .grid (gridOf (8 * s.modules) 8 rs)) s

/-- `LOADPATTERN text, onChar, offChar` (rule R156): refused, with no command issued, unless `onChar` is exactly one
character; `offChar` has no effect (rule R158). -/
def callLoadPattern (text onChar : List Char) (s : State) : Host.Outcome State Fault Refusal :=
  match onChar with
  | [c] => callLoadMatrix (patternGrid text c) s
  | _ => .next (s.withReply (some (.call .patternRefused)))

/-- `READFRAME` (rule R71). -/
def callReadFrame (s : State) : Host.Outcome State Fault Refusal :=
  runExpansion (readFrameCommands s.modules) (fun rs => .frame (rs.map replyData)) s

end Sys2Proof.Machine
end

