-- ==== Sys2Proof/Machine/Sequencer.lean ====
section
/-! DEFINITION. The operations of the refresh sequencer (spec/44): each is one call of the host that runs to its end, or to
the bus write that fails or never returns, before anything else happens (rules R47, R185 and R191). -/

namespace Sys2Proof.Machine

/-- A configuration register write: the same pair once per module, in one window (rule R174). -/
def configWindow (n : Nat) (code data : Byte) : List WirePair := List.replicate n ⟨code, data⟩

/-- The five windows of `initialize`, in the order of rule R179 (shutdown data by spec/90 C7). -/
def initializeWindows (n : Nat) : List (List WirePair) :=
  [ configWindow n regShutdown 0x00#8,
    configWindow n regDisplayTest 0x00#8,
    configWindow n regScanLimit 0x07#8,
    configWindow n regDecodeMode 0x00#8,
    configWindow n regShutdown 0x01#8 ]

/-- The controller state after a completed `initialize` (rule R180). -/
def Controller.afterInitialize : Controller → Controller
  | .uninitialized => .initialized
  | .initialized => .initialized
  | .active => .active

/-- `initialize()` (rules R179 and R180). -/
def callInitialize (s : State) : State :=
  match sendWindows (initializeWindows s.modules) s with
  | (t, .done) => (t.withCtrl t.ctrl.afterInitialize).withReply (some (.call .ok))
  | (t, .failed) => (t.withCtrl .uninitialized).withReply (some (.call .transportFailure))
  | (t, .blocked) => t

/-- The recorded brightness for a level that passed the range check of rule R182. -/
def brightnessOf (level : Int) : Fin 16 := Fin.ofNat 16 level.toNat

/-- `setBrightness(level)` (rule R182; a failed write leaves the recorded brightness, rule R189). -/
def callSetBrightness (level : Int) (s : State) : State :=
  if level < 0 ∨ level > 15 then s.withReply (some (.call .outOfRange))
  else if s.ctrl = .uninitialized then s.withReply (some (.call .notInitialized))
  else
    match sendWindow (configWindow s.modules regIntensity (BitVec.ofInt 8 level)) s with
    | (t, .done) => (t.withBrightness (brightnessOf level)).withReply (some (.call .ok))
    | (t, .failed) => t.withReply (some (.call .transportFailure))
    | (t, .blocked) => t

/-- The status a block command's response carries to the call that issued it. -/
def Reply.toCall : Reply → Reply
  | .response st _ => .call st.toCallResult
  | .call r => .call r
  | .grid g => .grid g
  | .frame f => .frame f

/-- `setRotation(degrees)` (rule R183): `SETROT` to the block, its status returned. An angle no command word can hold is
refused by the same check (rule R138). -/
def callSetRotation (degrees : Int) (s : State) : Host.Outcome State Fault Refusal :=
  match execSetrot degrees s with
  | .next t => .next (t.withReply (t.reply.map Reply.toCall))
  | .fault f => .fault f
  | .refused r => .refused r

/-- The pairs of the window of row `y`: digit register `y + 1` with `RDROW(y, m)` for `m` in module order (rules R177
and R184). -/
def rowWindow? (y : Nat) (s : State) : Option (List WirePair) :=
  (List.range s.modules).mapM fun m =>
    (s.fb.rowByte? s.modules s.rot (y : Int) (m : Int)).map fun d => ⟨regDigit y, d⟩

/-- The rows a failed `show` has not written hold any value, in every module (K14). -/
def scrambleRows : List Nat → State → State
  | [], s => s
  | y :: ys, s =>
    scrambleRows ys { s with chips := scramble s.freeDraws (regDigit y) s.chips, freeDraws := s.freeDraws + 1 }

/-- The row loop of `show` (rule R184), over the rows that are left. -/
def showRows : List Nat → State → Host.Outcome State Fault Refusal
  | [], s => .next ((s.withCtrl .active).withReply (some (.call .ok)))
  | y :: ys, s =>
    match rowWindow? y s with
    | none => .fault .outsideStore
    | some ps =>
      match sendWindow ps s with
      | (t, .done) => showRows ys t
      | (t, .failed) => .next ((scrambleRows ys t).withReply (some (.call .transportFailure)))
      | (t, .blocked) => .next t

/-- `show()` (rules R181 and R184). -/
def callShow (s : State) : Host.Outcome State Fault Refusal :=
  if s.ctrl = .uninitialized then .next (s.withReply (some (.call .notInitialized)))
  else showRows (List.range 8) s

end Sys2Proof.Machine
end

