-- ==== Sys2Proof/Machine/Calls.lean ====
section
/-! DEFINITION. The host calls: which operation each one is. -/

namespace Sys2Proof.Machine

def runCall (c : HostCall) (s : State) : Host.Outcome State Fault Refusal :=
  match c with
  | .clear => callClear s
  | .loadMatrix grid => callLoadMatrix grid s
  | .dumpMatrix => callDumpMatrix s
  | .loadPattern text onChar _ => callLoadPattern text onChar s
  | .readFrame => callReadFrame s
  | .initialise => .next (callInitialize s)
  | .setBrightness level => .next (callSetBrightness level s)
  | .setRotation degrees => callSetRotation degrees s
  | .showFrame => callShow s

/-- An encoded word as the machine answers it: the instruction it decodes to; `ILLEGAL_COMMAND` for a command word of no row
(rules R60 and R205); a refusal for a pair of no register (rule R175). -/
def runWord (e : Encoded) (s : State) : Host.Outcome State Fault Refusal :=
  match decode e with
  | .ok i => exec i s
  | .rejected .illegalCommand => raise .illegalCommand s
  | .rejected .unknownRegister => .refused .unknownRegister
  | .rejected .wrongLength => .refused .unknownRegister

end Sys2Proof.Machine
end

