-- ==== Sys2Proof/Machine/Step.lean ====
section
/-! DEFINITION. One step: the next thing the outside world presents, in the order it presents them (rules R21 and R51). -/

namespace Sys2Proof.Machine

/-- A host stuck in a bus write goes nowhere (rule R190); with nothing presented nothing happens (rule R209); otherwise the
first input is taken and runs to its end (rule R47). -/
def step (s : State) : Host.Outcome State Fault Refusal :=
  if s.hung then .next s
  else
    match s.inputs with
    | [] => .next s
    | .word e :: rest => runWord e (s.taken rest)
    | .call c :: rest => runCall c (s.taken rest)

/-- `s` with an opcode-table word presented as its next input (log entry 3). -/
def State.withFetchWord (s : State) (nbits w : Nat) : State := s.presenting (encodedOfTable nbits w)

end Sys2Proof.Machine
end

