-- ==== Sys2Proof/WellFormed.lean ====
section
/-! DEFINITION. Well-formed instructions: every signed operand fits its 12-bit field (rules R62 and R70), and the data
byte of a driver register write is one the register table lists as valid (rules R73 and R175). -/

namespace Sys2Proof

/-- An operand an assembler accepts: in [-2048, 2047] (rule R70). -/
def fitsOperand (z : Int) : Bool := -2048 ≤ z && z ≤ 2047

/-- Well-formedness of one instruction. -/
def Instr.wf : Instr → Bool
  | .setpx x y _ => fitsOperand x && fitsOperand y
  | .getpx x y => fitsOperand x && fitsOperand y
  | .fill _ => true
  | .hline x y w _ => fitsOperand x && fitsOperand y && fitsOperand w
  | .vline x y h _ => fitsOperand x && fitsOperand y && fitsOperand h
  | .line x0 y0 x1 y1 _ => fitsOperand x0 && fitsOperand y0 && fitsOperand x1 && fitsOperand y1
  | .rect x y w h _ => fitsOperand x && fitsOperand y && fitsOperand w && fitsOperand h
  | .fillrect x y w h _ => fitsOperand x && fitsOperand y && fitsOperand w && fitsOperand h
  | .scroll dx dy => fitsOperand dx && fitsOperand dy
  | .setrot deg => fitsOperand deg
  | .rdrow y m => fitsOperand y && fitsOperand m
  | .noop d => Machine.validData Machine.regNoop d
  | .digit0 d => Machine.validData (Machine.regDigit 0) d
  | .digit1 d => Machine.validData (Machine.regDigit 1) d
  | .digit2 d => Machine.validData (Machine.regDigit 2) d
  | .digit3 d => Machine.validData (Machine.regDigit 3) d
  | .digit4 d => Machine.validData (Machine.regDigit 4) d
  | .digit5 d => Machine.validData (Machine.regDigit 5) d
  | .digit6 d => Machine.validData (Machine.regDigit 6) d
  | .digit7 d => Machine.validData (Machine.regDigit 7) d
  | .decodeMode d => Machine.validData Machine.regDecodeMode d
  | .intensity d => Machine.validData Machine.regIntensity d
  | .scanLimit d => Machine.validData Machine.regScanLimit d
  | .shutdown d => Machine.validData Machine.regShutdown d
  | .displayTest d => Machine.validData Machine.regDisplayTest d

end Sys2Proof
end

