-- ==== Sys2Proof/Machine/Assembler.lean ====
section
/-! DEFINITION. The assembler syntax of rule R70: one command per line, the mnemonic, then its operands separated by commas,
the pixel value last; `;` starts a comment. -/

namespace Sys2Proof.Machine

/-- What one line of assembler text is. -/
inductive AsmLine where
  /-- An empty line, or one that holds a comment only. -/
  | nothing
  | command (i : Instr)
  | rejected
  deriving DecidableEq, Repr

/-- The value of a decimal digit. -/
def decDigit? (c : Char) : Option Nat :=
  if 0x30 ≤ c.toNat ∧ c.toNat ≤ 0x39 then some (c.toNat - 0x30) else none

/-- The value of a hexadecimal digit, of either case (log entry 16). -/
def hexDigit? (c : Char) : Option Nat :=
  if 0x30 ≤ c.toNat ∧ c.toNat ≤ 0x39 then some (c.toNat - 0x30)
  else if 0x41 ≤ c.toNat ∧ c.toNat ≤ 0x46 then some (c.toNat - 0x41 + 10)
  else if 0x61 ≤ c.toNat ∧ c.toNat ≤ 0x66 then some (c.toNat - 0x61 + 10)
  else none

/-- A number of one digit or more, most significant first. -/
def parseDigits (base : Nat) (digit? : Char → Option Nat) : List Char → Option Nat
  | [] => none
  | cs => cs.foldlM (fun acc c => (digit? c).map fun d => acc * base + d) 0

/-- An operand: a decimal integer, a leading `-` for negative, or `0x` hexadecimal. -/
def parseOperand : List Char → Option Int
  | '-' :: ds => (parseDigits 10 decDigit? ds).map fun n => -(n : Int)
  | '0' :: 'x' :: hs => (parseDigits 16 hexDigit? hs).map fun n => (n : Int)
  | ds => (parseDigits 10 decDigit? ds).map fun n => (n : Int)

/-- The pixel value 0 or 1 (rule R70), by the value of its operand: that any spelling of that value is taken, `0x1`, `01` or `-0`
as well as the characters `0` and `1`, is the model's choice (DESIGN CHOICE, log entry 16). -/
def pixelValue? (z : Int) : Option Bool := if z = 0 then some false else if z = 1 then some true else none

/-- The command of a mnemonic and its operands, in the forms of rule R70. -/
def commandOf (mnemonic : List Char) (ops : List Int) : Option Instr :=
  if mnemonic = ['S', 'E', 'T', 'P', 'X'] then (match ops with | [x, y, v] => (pixelValue? v).map fun b => .setpx x y b | _ => none)
  else if mnemonic = ['G', 'E', 'T', 'P', 'X'] then (match ops with | [x, y] => some (.getpx x y) | _ => none)
  else if mnemonic = ['F', 'I', 'L', 'L'] then (match ops with | [v] => (pixelValue? v).map fun b => .fill b | _ => none)
  else if mnemonic = ['H', 'L', 'I', 'N', 'E'] then (match ops with | [x, y, w, v] => (pixelValue? v).map fun b => .hline x y w b | _ => none)
  else if mnemonic = ['V', 'L', 'I', 'N', 'E'] then (match ops with | [x, y, h, v] => (pixelValue? v).map fun b => .vline x y h b | _ => none)
  else if mnemonic = ['L', 'I', 'N', 'E'] then (match ops with | [x0, y0, x1, y1, v] => (pixelValue? v).map fun b => .line x0 y0 x1 y1 b | _ => none)
  else if mnemonic = ['R', 'E', 'C', 'T'] then (match ops with | [x, y, w, h, v] => (pixelValue? v).map fun b => .rect x y w h b | _ => none)
  else if mnemonic = ['F', 'I', 'L', 'L', 'R', 'E', 'C', 'T'] then (match ops with | [x, y, w, h, v] => (pixelValue? v).map fun b => .fillrect x y w h b | _ => none)
  else if mnemonic = ['S', 'C', 'R', 'O', 'L', 'L'] then (match ops with | [dx, dy] => some (.scroll dx dy) | _ => none)
  else if mnemonic = ['S', 'E', 'T', 'R', 'O', 'T'] then (match ops with | [deg] => some (.setrot deg) | _ => none)
  else if mnemonic = ['R', 'D', 'R', 'O', 'W'] then (match ops with | [y, m] => some (.rdrow y m) | _ => none)
  else none

/-- One line of assembler text. A command no word encodes is rejected. -/
def assembleLine (line : List Char) : AsmLine :=
  let body := trimLine (line.takeWhile fun c => c != ';')
  match body with
  | [] => .nothing
  | _ =>
    let mnemonic := body.takeWhile fun c => !isPatternSpace c
    let rest := body.dropWhile fun c => !isPatternSpace c
    match (splitOnCode 0x2C rest).mapM fun op => parseOperand (trimLine op) with
    | none => .rejected
    | some ops =>
      match commandOf mnemonic ops with
      | none => .rejected
      | some i => if i.wf then .command i else .rejected

end Sys2Proof.Machine
end

