-- ==== Sys2Proof/Safety.lean ====
section
/-! DEFINITION. What a good state and a good step are, and the terms the statements are written in. -/

namespace Sys2Proof.Machine

/-- The invariant of a constructed machine: the module count is in its range (rule R10), the chain order names each module
once (rule R177), the store has its size (rule R22), a quarter turn is held only by a single module (rule R135), there is
one chip per module, and an open window is short of its `N` pairs with chip-select low (rules R171 and R173). -/
abbrev State.Inv (s : State) : Prop :=
  (1 ≤ s.modules ∧ s.modules ≤ 255) ∧
  s.chainOrder.Perm (List.range s.modules) ∧
  Memory.wf s.modules s.fb ∧
  (s.modules > 1 → s.rot = 0#2 ∨ s.rot = 2#2) ∧
  s.chips.length = s.modules ∧
  s.window.length < s.modules ∧
  (s.window ≠ [] → s.select = .low)

/-- The step went on (it is no fault and no refusal), and what it answered is no error. A correct host issues nothing that
is answered otherwise (rule R208). -/
def StepSafe (s : State) : Prop :=
  ∃ t, step s = .next t ∧
    (∀ st d, t.reply = some (.response st d) → st = .ok) ∧ ∀ r, t.reply = some (.call r) → r = .ok

/-! ## Encodings -/

/-- The words of operation code `op` and what they decode to: those that meet the row's match and mask are the instruction
`build` makes of their operands, the others are illegal (rules R64 and R67). -/
def Selects (op : BitVec 6) (pattern mask : BitVec 64) (build : Operands → Instr) : Prop :=
  ∀ w : BitVec 64, opField w = op →
    (w &&& mask = pattern → decode (.cmd64 w) = .ok (build (operandsOf w))) ∧
    (w &&& mask ≠ pattern → decode (.cmd64 w) = .rejected .illegalCommand)

/-- A word that is no valid command: a reserved operation code, `RSV` set, or a field set that its operation does not use
(rules R63 to R66). -/
def IllegalWord (w : BitVec 64) : Prop :=
  opField w = 0x00#6 ∨ 0x0C ≤ (opField w).toNat ∨ rsvField w ≠ 0#9 ∨
  (opField w = 0x01#6 ∧ (cField w ≠ 0#12 ∨ dField w ≠ 0#12)) ∨
  (opField w = 0x02#6 ∧ (vField w = true ∨ cField w ≠ 0#12 ∨ dField w ≠ 0#12)) ∨
  (opField w = 0x03#6 ∧ (aField w ≠ 0#12 ∨ bField w ≠ 0#12 ∨ cField w ≠ 0#12 ∨ dField w ≠ 0#12)) ∨
  (opField w = 0x04#6 ∧ dField w ≠ 0#12) ∨
  (opField w = 0x05#6 ∧ dField w ≠ 0#12) ∨
  (opField w = 0x09#6 ∧ (vField w = true ∨ cField w ≠ 0#12 ∨ dField w ≠ 0#12)) ∨
  (opField w = 0x0A#6 ∧ (vField w = true ∨ bField w ≠ 0#12 ∨ cField w ≠ 0#12 ∨ dField w ≠ 0#12)) ∨
  (opField w = 0x0B#6 ∧ (vField w = true ∨ cField w ≠ 0#12 ∨ dField w ≠ 0#12))

/-! ## Figures on the pixel store -/

/-- The store `m'` is `m` with every in-bounds pixel of the figure at `v`: every other pixel, and every byte that holds no
pixel of the figure, is as before (rule R111). -/
def Drawn (n : Nat) (m m' : Memory) (figure : Int → Int → Prop) (v : Bool) : Prop :=
  (∀ px py, InBounds n px py → figure px py → m'.pixel? n px py = some v) ∧
  (∀ px py, ¬ figure px py → m'.pixel? n px py = m.pixel? n px py) ∧
  (∀ i, (∀ px py, InBounds n px py → figure px py → byteIndex n px py ≠ i) → m'.read i = m.read i) ∧
  m'.wf n

/-! ## The bus as the outside world will answer it -/

/-- The next `k` bus writes complete. -/
abbrev BusCompletes (k : Nat) (s : State) : Prop := ∀ o ∈ s.bus.take k, o = .completes

/-- What one completed window drives (rule R171). -/
def windowEvents (ps : List WirePair) : List WireEvent := .selectLow :: ps.map .pair ++ [.selectHigh]

/-- The pairs among the events driven. -/
def sentPairs (es : List WireEvent) : List WirePair :=
  es.filterMap fun
    | .pair p => some p
    | .selectLow => none
    | .selectHigh => none

/-- The pair of a driver register write, by the register codes of rule R73; none for a command of the block. -/
def pairOf : Instr → Option WirePair
  | .noop d => some ⟨0x00#8, d⟩
  | .digit0 d => some ⟨0x01#8, d⟩
  | .digit1 d => some ⟨0x02#8, d⟩
  | .digit2 d => some ⟨0x03#8, d⟩
  | .digit3 d => some ⟨0x04#8, d⟩
  | .digit4 d => some ⟨0x05#8, d⟩
  | .digit5 d => some ⟨0x06#8, d⟩
  | .digit6 d => some ⟨0x07#8, d⟩
  | .digit7 d => some ⟨0x08#8, d⟩
  | .decodeMode d => some ⟨0x09#8, d⟩
  | .intensity d => some ⟨0x0A#8, d⟩
  | .scanLimit d => some ⟨0x0B#8, d⟩
  | .shutdown d => some ⟨0x0C#8, d⟩
  | .displayTest d => some ⟨0x0F#8, d⟩
  | .setpx _ _ _ | .getpx _ _ | .fill _ | .hline _ _ _ _ | .vline _ _ _ _ | .line _ _ _ _ _ | .rect _ _ _ _ _
  | .fillrect _ _ _ _ _ | .scroll _ _ | .setrot _ | .rdrow _ _ => none

/-- The commands of spec/41, which know no rotation (rule R100). -/
def isFrameBufferCommand : Instr → Bool
  | .setrot _ | .rdrow _ _ => false
  | i => i.isCommand

/-- The commands that change no state (rule R48). -/
def isRead : Instr → Bool
  | .getpx _ _ | .rdrow _ _ => true
  | _ => false

/-! ## Steps one after another -/

/-- The state after `k` steps that all go on. -/
def stepsTo : Nat → State → Option State
  | 0, s => some s
  | k + 1, s =>
    match step s with
    | .next t => stepsTo k t
    | .fault _ => none
    | .refused _ => none

/-- The inputs that may write the block: a command word other than GETPX and RDROW (an illegal word writes nothing, rule R65),
and the calls that issue one. -/
def mayWriteBlock : Input → Bool
  | .word e =>
    match decode e with
    | .ok i => i.isCommand && !isRead i
    | .rejected _ => false
  | .call .clear | .call (.loadMatrix _) | .call (.loadPattern _ _ _) | .call (.setRotation _) => true
  | .call .dumpMatrix | .call .readFrame | .call .initialise | .call (.setBrightness _) | .call .showFrame => false

/-- How many bus writes a call makes when every one of them completes (rules R179, R182 and R184); none for a call that
writes nothing to the bus. -/
def busWrites (s : State) : HostCall → Nat
  | .initialise => 5 * s.modules
  | .setBrightness level => if 0 ≤ level ∧ level ≤ 15 ∧ s.ctrl ≠ .uninitialized then s.modules else 0
  | .showFrame => if s.ctrl ≠ .uninitialized then 8 * s.modules else 0
  | .clear | .loadMatrix _ | .dumpMatrix | .loadPattern _ _ _ | .readFrame | .setRotation _ => 0

/-! ## Assembler text (rule R70) -/

/-- The form of a command in rule R70: the mnemonic, the operands in order, and the pixel value, which comes last. -/
def asmForm : Instr → Option (List Char × List Int × Option Bool)
  | .setpx x y v => some (['S', 'E', 'T', 'P', 'X'], [x, y], some v)
  | .getpx x y => some (['G', 'E', 'T', 'P', 'X'], [x, y], none)
  | .fill v => some (['F', 'I', 'L', 'L'], [], some v)
  | .hline x y w v => some (['H', 'L', 'I', 'N', 'E'], [x, y, w], some v)
  | .vline x y h v => some (['V', 'L', 'I', 'N', 'E'], [x, y, h], some v)
  | .line x0 y0 x1 y1 v => some (['L', 'I', 'N', 'E'], [x0, y0, x1, y1], some v)
  | .rect x y w h v => some (['R', 'E', 'C', 'T'], [x, y, w, h], some v)
  | .fillrect x y w h v => some (['F', 'I', 'L', 'L', 'R', 'E', 'C', 'T'], [x, y, w, h], some v)
  | .scroll dx dy => some (['S', 'C', 'R', 'O', 'L', 'L'], [dx, dy], none)
  | .setrot deg => some (['S', 'E', 'T', 'R', 'O', 'T'], [deg], none)
  | .rdrow y m => some (['R', 'D', 'R', 'O', 'W'], [y, m], none)
  | .noop _ | .digit0 _ | .digit1 _ | .digit2 _ | .digit3 _ | .digit4 _ | .digit5 _ | .digit6 _ | .digit7 _
  | .decodeMode _ | .intensity _ | .scanLimit _ | .shutdown _ | .displayTest _ => none

/-- An integer in decimal, with a leading `-` for negative. -/
def decimal (z : Int) : List Char :=
  if z < 0 then '-' :: Nat.toDigits 10 z.natAbs else Nat.toDigits 10 z.natAbs

/-- An operand is written in decimal or as `0x` hexadecimal. -/
def Spells (text : List Char) (z : Int) : Prop :=
  text = decimal z ∨ (0 ≤ z ∧ text = '0' :: 'x' :: Nat.toDigits 16 z.natAbs)

/-- A line of assembler text: the mnemonic, blanks, the operands separated by commas, and what follows. -/
def asmLine (mnemonic blanks : List Char) (operands : List (List Char)) (comment : List Char) : List Char :=
  mnemonic ++ blanks ++ List.intercalate [',', ' '] operands ++ comment

/-! ## Grids -/

/-- The cell a grid gives pixel `(x, y)`: off where the grid has none (rules R151 and R154). -/
def gridCell (grid : List (List GridCell)) (x y : Nat) : Bool :=
  match grid[y]? with
  | none => false
  | some row =>
    match row[x]? with
    | none => false
    | some cell => truthy cell

/-- The same as a grid of 8 rows of `w` cells. -/
def fittedGrid (w : Nat) (grid : List (List GridCell)) : List (List Bool) :=
  (List.range 8).map fun y => (List.range w).map fun x => gridCell grid x y

end Sys2Proof.Machine
end

