-- ==== Sys2Proof/Certificates/Slice0/Obligations.lean ====
section
/-! DEFINITION. The statements for the provers, in the order of OBLIGATIONS.json. -/

open Sys2Proof Sys2Proof.Machine

/-! ## Encoding -/

/-- Decoding the word of a well-formed instruction gives the instruction back, for every row of both formats, every operand
at every value its field admits (rules R61, R62, R63, R67, R72, R73). -/
def Obligations.DecodeOfEncode : Prop :=
  ∀ i : Instr, i.wf = true → decode (encode i) = .ok i

/-- The same through a byte transport: bits 63:56 of a command word first (rule R45), the command byte of a pair first
(rule R72). -/
def Obligations.DecodeOfEncodedBytes : Prop :=
  ∀ i : Instr, i.wf = true → decodeBytes (encode i).bytes = .ok i

/-- Each word has one meaning: an instruction that a word decodes to is encoded to that word (rules R61 to R64, R72). -/
def Obligations.EncodeOfDecode : Prop :=
  ∀ (e : Encoded) (i : Instr), decode e = .ok i → encode i = e

/-- At most one row matches any word (rules R64 and R73): two rows that match one word are one row of the table. -/
def Obligations.RowsNeverOverlap : Prop :=
  (∀ (w : BitVec 64) (j k : Fin commandRows.length),
    w &&& commandRows[j].mask = commandRows[j].pattern → w &&& commandRows[k].mask = commandRows[k].pattern → j = k) ∧
  (∀ (w : BitVec 16) (j k : Fin wireRows.length),
    w &&& wireRows[j].mask = wireRows[j].pattern → w &&& wireRows[k].mask = wireRows[k].pattern → j = k)

/-- Words written out from the spec's encodings (the examples of rules R101 to R110, R138, R139, and R73) decode to the
instructions they stand for. -/
def Obligations.HandWrittenWordsDecode : Prop :=
  decodeTableWord 64 0x0600003000000000 = some (.setpx 3 0 true) ∧
  decodeTableWord 64 0x0800003008000000 = some (.getpx 3 8) ∧
  decodeTableWord 64 0x0E00000000000000 = some (.fill true) ∧
  decodeTableWord 64 0x1200000000FFD000 = some (.hline 0 0 (-3) true) ∧
  decodeTableWord 64 0x1600000FFE004000 = some (.vline 0 (-2) 4 true) ∧
  decodeTableWord 64 0x1A00FFCFFC00B00B = some (.line (-4) (-4) 11 11 true) ∧
  decodeTableWord 64 0x1E00FFFFFF00A00A = some (.rect (-1) (-1) 10 10 true) ∧
  decodeTableWord 64 0x2000001001006006 = some (.fillrect 1 1 6 6 false) ∧
  decodeTableWord 64 0x2400FFEFFF000000 = some (.scroll (-2) (-1)) ∧
  decodeTableWord 64 0x280005A000000000 = some (.setrot 90) ∧
  decodeTableWord 64 0x2C00FFF000000000 = some (.rdrow (-1) 0) ∧
  decodeTableWord 16 0x0401 = some (.digit3 0x01#8) ∧
  decodeTableWord 16 0x0A0F = some (.intensity 0x0F#8) ∧
  decodeTableWord 16 0x0D00 = none

/-- A command word is answered `ILLEGAL_COMMAND` exactly when its operation code is reserved, its `RSV` field is set, or a
field is set that its operation does not use; it then changes no state (rules R65, R66, R205). -/
def Obligations.IllegalWordsAnswered : Prop :=
  ∀ (s : State) (w : BitVec 64) (rest : List Input), s.hung = false → s.inputs = .word (.cmd64 w) :: rest →
    (IllegalWord w →
      step s = .next { s with inputs := rest, sent := [], reply := some (.response .illegalCommand 0x00#8) }) ∧
    (¬ IllegalWord w → (∃ i, decode (.cmd64 w) = .ok i) ∧
      ∀ t d, step s = .next t → t.reply ≠ some (.response .illegalCommand d))

/-- Rule R69: the response word carries the status in bits 9:8 and the data byte in bits 7:0; the four statuses have the
codes 0 to 3 that rule R26 gives them. -/
def Obligations.ResponseWordFields : Prop :=
  (∀ (st : Status) (d : Byte), (respWord st d).extractLsb' 8 2 = st.code ∧ (respWord st d).extractLsb' 0 8 = d) ∧
  Status.ok.code = 0#2 ∧ Status.outOfRange.code = 1#2 ∧ Status.invalidConfiguration.code = 2#2 ∧
  Status.illegalCommand.code = 3#2

/-! ## The step -/

/-- When the next input is a word that decodes, the step is that instruction's `exec`, on the state with the input taken and
the last outputs gone (rules R21 and R25); and `withFetchWord` presents exactly such a word. -/
def Obligations.StepRunsDecodedInstruction : Prop :=
  (∀ (s : State) (e : Encoded) (rest : List Input) (i : Instr),
    s.hung = false → s.inputs = .word e :: rest → decode e = .ok i →
      step s = exec i { s with inputs := rest, reply := none, sent := [] }) ∧
  (∀ (s : State) (nbits w : Nat) (i : Instr), decodeTableWord nbits w = some i →
      step (s.withFetchWord nbits w) = exec i { s with hung := false, reply := none, sent := [] })

/-- Nothing happens in the machine except in response to something presented to it (rule R209), nor while a bus write never
returns (rule R190). -/
def Obligations.NothingHappensUnasked : Prop :=
  ∀ s : State, s.inputs = [] ∨ s.hung = true → step s = .next s

/-! ## The FrameBuffer commands -/

/-- Rule R101: SETPX writes the one pixel where it is in bounds, and is otherwise answered `OUT_OF_RANGE` with nothing
written; every other byte and every other piece of state is as before. -/
def Obligations.SetpxWritesOnePixel : Prop :=
  Selects 0x01#6 0x0400000000000000#64 0xFDFF000000FFFFFF#64 (fun o => .setpx o.a o.b o.v) ∧
  ∀ (s : State) (x y : Int) (v : Bool), Memory.wf s.modules s.fb →
    (InBounds s.modules x y → ∃ m : Memory,
      exec (.setpx x y v) s = .next { s with fb := m, reply := some (.response .ok 0x00#8) } ∧
      Drawn s.modules s.fb m (fun px py => px = x ∧ py = y) v) ∧
    (¬ InBounds s.modules x y →
      exec (.setpx x y v) s = .next { s with reply := some (.response .outOfRange 0x00#8) })

/-- Rule R102: GETPX answers the buffer-local pixel, `0x01` lit and `0x00` unlit, whatever `ROT` holds, and changes no state;
out of bounds it is answered `OUT_OF_RANGE`. The pixel is bit `7 − x mod 8` of byte `y·N + x div 8` (rule R42). -/
def Obligations.GetpxAnswersPixel : Prop :=
  Selects 0x02#6 0x0800000000000000#64 0xFFFF000000FFFFFF#64 (fun o => .getpx o.a o.b) ∧
  ∀ (s : State) (x y : Int), Memory.wf s.modules s.fb →
    (InBounds s.modules x y → ∃ v : Byte,
      s.fb.read (y.toNat * s.modules + x.toNat / 8) = some v ∧
      exec (.getpx x y) s = .next
        { s with reply := some (.response .ok (if v.getLsbD (7 - x.toNat % 8) then 0x01#8 else 0x00#8)) }) ∧
    (¬ InBounds s.modules x y →
      exec (.getpx x y) s = .next { s with reply := some (.response .outOfRange 0x00#8) })

/-- Rule R103: FILL sets every byte of the store to `0xFF` or `0x00`. -/
def Obligations.FillSetsEveryByte : Prop :=
  Selects 0x03#6 0x0C00000000000000#64 0xFDFFFFFFFFFFFFFF#64 (fun o => .fill o.v) ∧
  ∀ (s : State) (v : Bool), Memory.wf s.modules s.fb → ∃ m : Memory,
    exec (.fill v) s = .next { s with fb := m, reply := some (.response .ok 0x00#8) } ∧ m.wf s.modules ∧
    ∀ i, i < 8 * s.modules → m.read i = some (if v then 0xFF#8 else 0x00#8)

/-- Rule R104: FILLRECT draws the in-bounds pixels `(x + i, y + j)` with `0 ≤ i < w` and `0 ≤ j < h`, and is always `OK`. -/
def Obligations.FillrectDrawsRectangle : Prop :=
  Selects 0x08#6 0x2000000000000000#64 0xFDFF000000000000#64 (fun o => .fillrect o.a o.b o.c o.d o.v) ∧
  ∀ (s : State) (x y w h : Int) (v : Bool), Memory.wf s.modules s.fb → ∃ m : Memory,
    exec (.fillrect x y w h v) s = .next { s with fb := m, reply := some (.response .ok 0x00#8) } ∧
    Drawn s.modules s.fb m (fun px py => x ≤ px ∧ px < x + w ∧ y ≤ py ∧ py < y + h) v

/-- Rule R105: HLINE draws the in-bounds pixels `(x, y)` to `(x + w − 1, y)`. -/
def Obligations.HlineDrawsRow : Prop :=
  Selects 0x04#6 0x1000000000000000#64 0xFDFF000000000FFF#64 (fun o => .hline o.a o.b o.c o.v) ∧
  ∀ (s : State) (x y w : Int) (v : Bool), Memory.wf s.modules s.fb → ∃ m : Memory,
    exec (.hline x y w v) s = .next { s with fb := m, reply := some (.response .ok 0x00#8) } ∧
    Drawn s.modules s.fb m (fun px py => x ≤ px ∧ px ≤ x + w - 1 ∧ py = y) v

/-- Rule R106: VLINE draws the in-bounds pixels `(x, y)` to `(x, y + h − 1)`. -/
def Obligations.VlineDrawsColumn : Prop :=
  Selects 0x05#6 0x1400000000000000#64 0xFDFF000000000FFF#64 (fun o => .vline o.a o.b o.c o.v) ∧
  ∀ (s : State) (x y h : Int) (v : Bool), Memory.wf s.modules s.fb → ∃ m : Memory,
    exec (.vline x y h v) s = .next { s with fb := m, reply := some (.response .ok 0x00#8) } ∧
    Drawn s.modules s.fb m (fun px py => px = x ∧ y ≤ py ∧ py ≤ y + h - 1) v

/-- Rule R107: the pixels of a line are `max(|x1 − x0|, |y1 − y0|) + 1` in number, start at `(x0, y0)`, end at `(x1, y1)`, and
move each step by one in the major axis, towards the end, and by zero or one in the minor axis; each follows from the one
before it by the rule's error term `err`, which starts at `|x1 − x0| − |y1 − y0|`. -/
def Obligations.LinePixelsShape : Prop :=
  ∀ x0 y0 x1 y1 : Int,
    (linePixels x0 y0 x1 y1).length = max (x1 - x0).natAbs (y1 - y0).natAbs + 1 ∧
    (linePixels x0 y0 x1 y1).head? = some (x0, y0) ∧
    (linePixels x0 y0 x1 y1).getLast? = some (x1, y1) ∧
    (∀ (k : Nat) (p q : Int × Int), (linePixels x0 y0 x1 y1)[k]? = some p → (linePixels x0 y0 x1 y1)[k + 1]? = some q →
      ((y1 - y0).natAbs ≤ (x1 - x0).natAbs →
        q.1 = p.1 + (if x0 < x1 then 1 else -1) ∧ (q.2 = p.2 ∨ q.2 = p.2 + (if y0 < y1 then 1 else -1))) ∧
      ((x1 - x0).natAbs ≤ (y1 - y0).natAbs →
        q.2 = p.2 + (if y0 < y1 then 1 else -1) ∧ (q.1 = p.1 ∨ q.1 = p.1 + (if x0 < x1 then 1 else -1)))) ∧
    ∃ err : Nat → Int, err 0 = ((x1 - x0).natAbs : Int) - (y1 - y0).natAbs ∧
      (∀ k, err (k + 1) = err k
        + (if 2 * err k ≥ -((y1 - y0).natAbs : Int) then -((y1 - y0).natAbs : Int) else 0)
        + (if 2 * err k ≤ (x1 - x0).natAbs then ((x1 - x0).natAbs : Int) else 0)) ∧
      ∀ (k : Nat) (p q : Int × Int), (linePixels x0 y0 x1 y1)[k]? = some p → (linePixels x0 y0 x1 y1)[k + 1]? = some q →
        q.1 = p.1 + (if 2 * err k ≥ -((y1 - y0).natAbs : Int) then (if x0 < x1 then 1 else -1) else 0) ∧
        q.2 = p.2 + (if 2 * err k ≤ (x1 - x0).natAbs then (if y0 < y1 then 1 else -1) else 0)

/-- Rule R108: LINE draws the in-bounds pixels of `LinePixels`. -/
def Obligations.LineDrawsItsPixels : Prop :=
  Selects 0x06#6 0x1800000000000000#64 0xFDFF000000000000#64 (fun o => .line o.a o.b o.c o.d o.v) ∧
  ∀ (s : State) (x0 y0 x1 y1 : Int) (v : Bool), Memory.wf s.modules s.fb → ∃ m : Memory,
    exec (.line x0 y0 x1 y1 v) s = .next { s with fb := m, reply := some (.response .ok 0x00#8) } ∧
    Drawn s.modules s.fb m (fun px py => (px, py) ∈ linePixels x0 y0 x1 y1) v

/-- Rule R109: RECT draws the in-bounds pixels of the four edges of a `w × h` rectangle, corners included; with `w < 1` or
`h < 1` the figure is empty. -/
def Obligations.RectDrawsOutline : Prop :=
  Selects 0x07#6 0x1C00000000000000#64 0xFDFF000000000000#64 (fun o => .rect o.a o.b o.c o.d o.v) ∧
  ∀ (s : State) (x y w h : Int) (v : Bool), Memory.wf s.modules s.fb → ∃ m : Memory,
    exec (.rect x y w h v) s = .next { s with fb := m, reply := some (.response .ok 0x00#8) } ∧
    Drawn s.modules s.fb m
      (fun px py => x ≤ px ∧ px < x + w ∧ y ≤ py ∧ py < y + h ∧
        (px = x ∨ px = x + w - 1 ∨ py = y ∨ py = y + h - 1)) v

/-- Rule R110: SCROLL moves the whole image by `(dx, dy)`; each pixel is the old pixel at `(x − dx, y − dy)`, and 0 where that
is out of bounds. -/
def Obligations.ScrollShiftsImage : Prop :=
  Selects 0x09#6 0x2400000000000000#64 0xFFFF000000FFFFFF#64 (fun o => .scroll o.a o.b) ∧
  ∀ (s : State) (dx dy : Int), Memory.wf s.modules s.fb → ∃ m : Memory,
    exec (.scroll dx dy) s = .next { s with fb := m, reply := some (.response .ok 0x00#8) } ∧ m.wf s.modules ∧
    ∀ x y, InBounds s.modules x y →
      (InBounds s.modules (x - dx) (y - dy) → m.pixel? s.modules x y = s.fb.pixel? s.modules (x - dx) (y - dy)) ∧
      (¬ InBounds s.modules (x - dx) (y - dy) → m.pixel? s.modules x y = some false)

/-- Rule R100: `ROT` neither affects nor is affected by any command of spec/41. -/
def Obligations.DrawingIgnoresRotation : Prop :=
  ∀ (i : Instr) (s t : State) (r : BitVec 2), isFrameBufferCommand i = true → exec i s = .next t →
    t.rot = s.rot ∧ exec i { s with rot := r } = .next { t with rot := r }

/-! ## The rotation multiplexer -/

/-- Rule R132: `T_90` four times is the identity for every integer pair and every `N`; for `N = 1` the four transforms are the
rotation group of the square. -/
def Obligations.QuarterTurnLaws : Prop :=
  (∀ (n : Nat) (x y : Int),
    let p1 := rotate n 1#2 x y
    let p2 := rotate n 1#2 p1.1 p1.2
    let p3 := rotate n 1#2 p2.1 p2.2
    rotate n 1#2 p3.1 p3.2 = (x, y)) ∧
  (∀ (x y : Int) (r : BitVec 2), r ≠ 0#2 →
    rotate 1 1#2 (rotate 1 r x y).1 (rotate 1 r x y).2 = rotate 1 (r + 1#2) x y) ∧
  (∀ x y : Int, rotate 1 1#2 (rotate 1 3#2 x y).1 (rotate 1 3#2 x y).2 = (x, y) ∧
    rotate 1 3#2 (rotate 1 1#2 x y).1 (rotate 1 1#2 x y).2 = (x, y) ∧
    rotate 1 2#2 (rotate 1 2#2 x y).1 (rotate 1 2#2 x y).2 = (x, y))

/-- Rule R131: `T_0` and `T_180` map the store onto itself one to one for every `N`; `T_90` and `T_270` map it one to one onto
the image with width and height swapped, which is the store itself only for one module. -/
def Obligations.RotationDomain : Prop :=
  ∀ (n : Nat) (r : BitVec 2), 1 ≤ n →
    (∀ x y, InBounds n x y →
      ((r = 0#2 ∨ r = 2#2) → InBounds n (rotate n r x y).1 (rotate n r x y).2) ∧
      ((r = 1#2 ∨ r = 3#2) → 0 ≤ (rotate n r x y).1 ∧ (rotate n r x y).1 < 8 ∧
        0 ≤ (rotate n r x y).2 ∧ (rotate n r x y).2 < 8 * (n : Int))) ∧
    (∀ u v, (((r = 0#2 ∨ r = 2#2) ∧ InBounds n u v) ∨
        ((r = 1#2 ∨ r = 3#2) ∧ 0 ≤ u ∧ u < 8 ∧ 0 ≤ v ∧ v < 8 * (n : Int))) →
      ∃ x y, InBounds n x y ∧ rotate n r x y = (u, v) ∧
        ∀ x' y', InBounds n x' y' → rotate n r x' y' = (u, v) → x' = x ∧ y' = y) ∧
    ((∀ x y, InBounds n x y → InBounds n (rotate n 1#2 x y).1 (rotate n 1#2 x y).2) ↔ n = 1) ∧
    ((∀ x y, InBounds n x y → InBounds n (rotate n 3#2 x y).1 (rotate n 3#2 x y).2) ↔ n = 1)

/-- Rule R138 with R134 to R136: SETROT writes `deg div 90` for an accepted orientation, and is otherwise answered
`INVALID_CONFIGURATION` with `ROT` unchanged; 90° and 270° are accepted for one module only. -/
def Obligations.SetrotWritesOrientation : Prop :=
  Selects 0x0A#6 0x2800000000000000#64 0xFFFF000FFFFFFFFF#64 (fun o => .setrot o.a) ∧
  ∀ (s : State) (deg : Int),
    (∀ r : BitVec 2, deg = 90 * (r.toNat : Int) → (s.modules > 1 → r = 0#2 ∨ r = 2#2) →
      exec (.setrot deg) s = .next { s with rot := r, reply := some (.response .ok 0x00#8) }) ∧
    ((deg ≠ 0 ∧ deg ≠ 90 ∧ deg ≠ 180 ∧ deg ≠ 270) ∨ (s.modules > 1 ∧ (deg = 90 ∨ deg = 270)) →
      exec (.setrot deg) s = .next { s with reply := some (.response .invalidConfiguration 0x00#8) })

/-- Rule R139 with R137: RDROW answers the row byte of the transmitted image, pixel `8m + i` of row `y` in bit `7 − i`, and
changes no state; a row or module out of range is answered `OUT_OF_RANGE`. -/
def Obligations.RdrowAnswersImageRow : Prop :=
  Selects 0x0B#6 0x2C00000000000000#64 0xFFFF000000FFFFFF#64 (fun o => .rdrow o.a o.b) ∧
  ∀ (s : State) (y m : Int), s.Inv →
    (0 ≤ y ∧ y < 8 ∧ 0 ≤ m ∧ m < s.modules → ∃ d : Byte,
      exec (.rdrow y m) s = .next { s with reply := some (.response .ok d) } ∧
      ∀ i : Nat, i < 8 →
        some (d.getLsbD (7 - i)) =
          if s.rot = 0#2 then s.fb.pixel? s.modules (8 * m + i) y
          else if s.rot = 1#2 then s.fb.pixel? s.modules y (8 - 1 - (8 * m + i))
          else if s.rot = 2#2 then s.fb.pixel? s.modules (8 * s.modules - 1 - (8 * m + i)) (8 - 1 - y)
          else s.fb.pixel? s.modules (8 * s.modules - 1 - y) (8 * m + i)) ∧
    (y < 0 ∨ y ≥ 8 ∨ m < 0 ∨ m ≥ s.modules →
      exec (.rdrow y m) s = .next { s with reply := some (.response .outOfRange 0x00#8) })

/-- Rule R140: with `ROT = 0`, RDROW answers the stored byte `FB[y × N + m]`. -/
def Obligations.RdrowBaselineIsStoredByte : Prop :=
  ∀ (s : State) (y m : Nat), s.Inv → s.rot = 0#2 → y < 8 → m < s.modules →
    ∃ d : Byte, s.fb.read (y * s.modules + m) = some d ∧
      exec (.rdrow y m) s = .next { s with reply := some (.response .ok d) }

/-- Rule R141: painting every buffer pixel through the forward transform into a scratch store, whatever that store held
before, gives the transmitted image. -/
def Obligations.PaintedScratchIsImage : Prop :=
  ∀ (s : State) (scratch : Memory), s.Inv → scratch.wf s.modules →
    (s.fb.paint s.modules s.rot scratch).wf s.modules ∧
    ∀ u v, InBounds s.modules u v →
      (∃ b, s.fb.image? s.modules s.rot u v = some b) ∧
      (s.fb.paint s.modules s.rot scratch).pixel? s.modules u v = s.fb.image? s.modules s.rot u v

/-! ## All commands of the block -/

/-- Rule R30 with R29 and R25: a command of the block writes nothing but the store, the orientation and its response; the
reads and SETROT leave the store, all but SETROT leave the orientation. From a state that meets the invariant every command
answers, and answers one response. -/
def Obligations.CommandsTouchOnlyTheBlock : Prop :=
  (∀ (i : Instr) (s t : State), i.isCommand = true → exec i s = .next t →
    t = { s with fb := t.fb, rot := t.rot, reply := t.reply } ∧
    (isRead i = true ∨ (∃ deg, i = .setrot deg) → t.fb = s.fb) ∧
    ((∀ deg, i ≠ .setrot deg) → t.rot = s.rot)) ∧
  ∀ (i : Instr) (s : State), i.isCommand = true → s.Inv →
    ∃ t st d, exec i s = .next t ∧ t.reply = some (.response st d)

/-- Rule R201: a command word that is answered by a status other than `OK` writes no state and carries data `0x00`; what is
left is the state it found, ready for the next command. -/
def Obligations.ErrorWritesNothing : Prop :=
  ∀ (s t : State) (w : BitVec 64) (rest : List Input) (st : Status) (d : Byte),
    s.hung = false → s.inputs = .word (.cmd64 w) :: rest → step s = .next t → t.reply = some (.response st d) → st ≠ .ok →
    d = 0x00#8 ∧ t = { s with inputs := rest, sent := [], reply := some (.response st 0x00#8) }

/-- Rule R207: the statuses each command can answer once its word has decoded. -/
def Obligations.StatusesOfEachCommand : Prop :=
  ∀ (i : Instr) (s t : State) (st : Status) (d : Byte), i.isCommand = true → exec i s = .next t →
    t.reply = some (.response st d) →
    match i with
    | .setpx _ _ _ | .getpx _ _ | .rdrow _ _ => st = .ok ∨ st = .outOfRange
    | .setrot _ => st = .ok ∨ st = .invalidConfiguration
    | _ => st = .ok

/-- Rule R48: GETPX and RDROW change no state and repeat their answer; SETPX, FILL, SETROT and the drawing primitives are
idempotent. (SCROLL is the one command left out, as in the rule.) -/
def Obligations.ReadsAndIdempotentWrites : Prop :=
  ∀ (i : Instr) (s t : State), Memory.wf s.modules s.fb → i.isCommand = true → exec i s = .next t →
    (isRead i = true → t = { s with reply := t.reply } ∧ exec i t = .next t) ∧
    ((∀ dx dy, i ≠ .scroll dx dy) → exec i t = .next t)

/-! ## Construction and the whole machine -/

/-- Rules R221 and R32: construction is refused unless `1 ≤ N ≤ 255`; the constructed block holds `N`, a store of `8N` bytes
and `ROT = 0`, and meets the invariant. -/
def Obligations.ConstructionGivesResetState : Prop :=
  ∀ (n : Nat) (order : List Nat),
    (¬ (1 ≤ n ∧ n ≤ 255) → construct n order = none) ∧
    (1 ≤ n → n ≤ 255 → order.Perm (List.range n) → ∃ s, construct n order = some s ∧
      s.modules = n ∧ s.chainOrder = order ∧ s.fb.length = 8 * n ∧ s.rot = 0#2 ∧ s.ctrl = .uninitialized ∧ s.Inv)

/-- The reset state meets the invariant. -/
def Obligations.ResetMeetsInvariant : Prop := State.reset.Inv

/-- Every step keeps the invariant, from every state that has it, reached or not. -/
def Obligations.InvariantKeptByEveryStep : Prop :=
  ∀ s t : State, s.Inv → step s = .next t → t.Inv

/-- Rule R24: `N` never changes; nor does the chain order. -/
def Obligations.ParametersNeverChange : Prop :=
  ∀ s t : State, step s = .next t → t.modules = s.modules ∧ t.chainOrder = s.chainOrder

/-- No state that meets the invariant steps to a fault; it steps to a refusal only for a wire pair that the register table
does not list (rules R175 and R200). -/
def Obligations.InvariantExcludesFaults : Prop :=
  ∀ s : State, s.Inv →
    (∀ f, step s ≠ .fault f) ∧
    (∀ r, step s = .refused r → ∃ (code data : Byte) (rest : List Input),
      s.inputs = .word (.wire16 (code ++ data)) :: rest ∧ validData code data = false)

/-! ## Driver register writes -/

/-- By rules R171 and R173, the model's choice of log entry 13 (a pair presented on its own opens a window) and its reading of
log entry 20 (no chip changes before chip-select goes high), all fourteen rows of format WIRE16: a pair that leaves the window
short of `N` pairs is sent and joins it, chip-select low, no chip touched. (With `N = 1` no pair does: `WirePairCompletesWindow`
and `SingleModuleRegisterWrite`.) -/
def Obligations.WirePairJoinsWindow : Prop :=
  ∀ (i : Instr) (p : WirePair) (s : State), pairOf i = some p → i.wf = true → s.Inv → BusCompletes 1 s →
    s.window.length + 1 < s.modules →
    exec i s = .next
      { s with
        select := .low, window := s.window ++ [p], bus := s.bus.drop 1,
        sent := s.sent ++ (if s.window = [] then [.selectLow, .pair p] else [.pair p]),
        reply := some (.call .ok) }

/-- By rules R171, R173 and R177 and the model's choices of log entries 7, 13 (the window closes at `N` pairs) and 20, all
fourteen rows of format WIRE16: the pair that makes the window `N` pairs long closes it; the module that `CHAIN_ORDER` gives
for `k` takes pair `k`, which writes the register it names and no other. -/
def Obligations.WirePairCompletesWindow : Prop :=
  ∀ (i : Instr) (p : WirePair) (s : State), pairOf i = some p → i.wf = true → s.Inv → BusCompletes 1 s →
    s.window.length + 1 = s.modules → ∃ cs : List Chip,
    exec i s = .next
      { s with
        select := .high, window := [], chips := cs, bus := s.bus.drop 1,
        sent := s.sent ++ (if s.window = [] then [.selectLow] else []) ++ [.pair p, .selectHigh],
        reply := some (.call .ok) } ∧
    cs.length = s.chips.length ∧
    ∀ (k j : Nat) (q : WirePair), s.chainOrder[k]? = some j → (s.window ++ [p])[k]? = some q →
      ∀ r : Byte, (cs[j]?.bind fun c => c.read r) =
        if r = q.code then (s.chipRegister j r).map fun _ => q.data else s.chipRegister j r

/-- By rule R172 and log entries 13 and 20, for one module, all fourteen rows of format WIRE16: No-op changes no register,
every other row puts its data byte into its own register and changes no other; the block and the sequencer's own state are as
before. -/
def Obligations.SingleModuleRegisterWrite : Prop :=
  ∀ (i : Instr) (p : WirePair) (s : State), pairOf i = some p → i.wf = true → s.Inv → s.modules = 1 → BusCompletes 1 s →
    ∃ t, exec i s = .next t ∧ t.reply = some (.call .ok) ∧
      (p.code ≠ 0x00#8 → t.chipRegister 0 p.code = some p.data) ∧
      (∀ r, r ≠ p.code → t.chipRegister 0 r = s.chipRegister 0 r) ∧
      (p.code = 0x00#8 → t.chips = s.chips) ∧
      t.fb = s.fb ∧ t.rot = s.rot ∧ t.ctrl = s.ctrl ∧ t.brightness = s.brightness ∧
      t.modules = s.modules ∧ t.chainOrder = s.chainOrder ∧ t.hung = s.hung ∧ t.freeDraws = s.freeDraws

/-- What the sequencer never sends is refused by name (the model's choice of log entry 14): a data byte outside the table's
valid column, and a command byte of no register (rule R175; spec/93 K9 and K10). -/
def Obligations.NeverSentIsRefused : Prop :=
  (∀ (i : Instr) (p : WirePair) (s : State), pairOf i = some p → validData p.code p.data = false →
    exec i s = .refused .dataOutsideTable) ∧
  (∀ (s : State) (code data : Byte) (rest : List Input), s.hung = false →
    s.inputs = .word (.wire16 (code ++ data)) :: rest → (code = 13#8 ∨ code = 14#8 ∨ 16 ≤ code.toNat) →
    step s = .refused .unknownRegister)

/-- By rule R189 and log entries 12 and 13, for one bus write: a failed write is answered `TransportFailure`, not retried; the
pairs sent before it stay sent, the block and the controller are as before, and so is every register but the one written and
those of the pairs that the unfinished window already held. -/
def Obligations.FailedBusWrite : Prop :=
  ∀ (i : Instr) (p : WirePair) (s : State) (rest : List BusOutcome), pairOf i = some p → i.wf = true →
    s.bus = .fails :: rest →
    ∃ t, exec i s = .next t ∧ t.reply = some (.call .transportFailure) ∧ t.bus = rest ∧ t.window = [] ∧
      sentPairs t.sent = sentPairs s.sent ∧ t.fb = s.fb ∧ t.rot = s.rot ∧ t.ctrl = s.ctrl ∧
      t.brightness = s.brightness ∧ t.modules = s.modules ∧ t.chainOrder = s.chainOrder ∧ t.hung = s.hung ∧
      (∀ j r, r ≠ p.code → (∀ q ∈ s.window, r ≠ q.code) → t.chipRegister j r = s.chipRegister j r)

/-- By rule R190 and log entry 15: a bus write that never returns answers nothing and leaves the machine stuck where it is.
For each row of format WIRE16 the block, the chips and the controller are unaffected; for `initialize`, `setBrightness` and
`show`, at whichever of their writes it is, exactly the pairs of the call before it are sent, and the block, the controller
state and the brightness are as before. -/
def Obligations.BlockedBusWriteNeverReturns : Prop :=
  (∀ (i : Instr) (p : WirePair) (s : State) (rest : List BusOutcome), pairOf i = some p → i.wf = true →
    s.bus = .blocks :: rest →
    ∃ t, exec i s = .next t ∧ t.reply = none ∧ t.hung = true ∧ step t = .next t ∧ t.fb = s.fb ∧ t.rot = s.rot ∧
      t.chips = s.chips ∧ t.ctrl = s.ctrl ∧ t.brightness = s.brightness ∧ sentPairs t.sent = sentPairs s.sent) ∧
  ∀ (c : HostCall) (s : State) (rest : List Input) (k : Nat), s.Inv → s.hung = false → s.inputs = .call c :: rest →
    k < busWrites s c → BusCompletes k s → s.bus[k]? = some .blocks →
    ∃ t, step s = .next t ∧ t.reply = none ∧ t.hung = true ∧ step t = .next t ∧ (sentPairs t.sent).length = k ∧
      t.fb = s.fb ∧ t.rot = s.rot ∧ t.ctrl = s.ctrl ∧ t.brightness = s.brightness ∧ t.inputs = rest ∧
      (c = .initialise → sentPairs t.sent =
        (List.replicate s.modules (⟨0x0C#8, 0x00#8⟩ : WirePair) ++ List.replicate s.modules (⟨0x0F#8, 0x00#8⟩ : WirePair) ++
          List.replicate s.modules (⟨0x0B#8, 0x07#8⟩ : WirePair) ++ List.replicate s.modules (⟨0x09#8, 0x00#8⟩ : WirePair) ++
          List.replicate s.modules (⟨0x0C#8, 0x01#8⟩ : WirePair)).take k) ∧
      (∀ level, c = .setBrightness level → sentPairs t.sent = List.replicate k ⟨0x0A#8, BitVec.ofInt 8 level⟩) ∧
      (c = .showFrame → ∃ rows : Nat → Nat → Byte,
        (∀ y m : Nat, y < 8 → m < s.modules →
          exec (.rdrow y m) s = .next { s with reply := some (.response .ok (rows y m)) }) ∧
        sentPairs t.sent = ((List.range 8).flatMap fun y =>
          (List.range s.modules).map fun m => (⟨BitVec.ofNat 8 (y + 1), rows y m⟩ : WirePair)).take k)

/-! ## The refresh sequencer -/

/-- By rules R179, R180 and R172 to R174 and log entries 7 and 20 (what each module's registers hold) and 19 (a window that
pairs presented alone left open reaches no chip): `initialize` sends its five windows in order, each the same pair once per
module, moves `Uninitialized` to `Initialized`, and leaves every module in normal operation with display test off, all eight
rows, no BCD decode; digits, intensity, brightness and the block are as before. -/
def Obligations.InitializeSendsFiveWindows : Prop :=
  ∀ s : State, s.Inv → BusCompletes (5 * s.modules) s →
    ∃ t, runCall .initialise s = .next t ∧ t.reply = some (.call .ok) ∧
      t.sent = s.sent ++ windowEvents (List.replicate s.modules ⟨0x0C#8, 0x00#8⟩)
        ++ windowEvents (List.replicate s.modules ⟨0x0F#8, 0x00#8⟩)
        ++ windowEvents (List.replicate s.modules ⟨0x0B#8, 0x07#8⟩)
        ++ windowEvents (List.replicate s.modules ⟨0x09#8, 0x00#8⟩)
        ++ windowEvents (List.replicate s.modules ⟨0x0C#8, 0x01#8⟩) ∧
      t.ctrl = (if s.ctrl = .uninitialized then .initialized else s.ctrl) ∧
      t.fb = s.fb ∧ t.rot = s.rot ∧ t.brightness = s.brightness ∧ t.select = .high ∧
      ∀ j, j < s.modules →
        t.chipRegister j 0x0C#8 = some 0x01#8 ∧ t.chipRegister j 0x0F#8 = some 0x00#8 ∧
        t.chipRegister j 0x0B#8 = some 0x07#8 ∧ t.chipRegister j 0x09#8 = some 0x00#8 ∧
        ∀ r, r ≠ 0x0C#8 → r ≠ 0x0F#8 → r ≠ 0x0B#8 → r ≠ 0x09#8 → t.chipRegister j r = s.chipRegister j r

/-- By rules R180 and R189 and log entry 12 (the failing pair is not counted as sent): an `initialize` whose `k`-th bus write
fails leaves the controller `Uninitialized`, whatever it was, and answers
`TransportFailure`; exactly the `k` pairs before the failure have been sent, and the block is unchanged. -/
def Obligations.FailedInitializeUninitializes : Prop :=
  ∀ (s : State) (k : Nat), k < 5 * s.modules → BusCompletes k s → s.bus[k]? = some .fails →
    ∃ t, runCall .initialise s = .next t ∧ t.reply = some (.call .transportFailure) ∧ t.ctrl = .uninitialized ∧
      t.fb = s.fb ∧ t.rot = s.rot ∧
      sentPairs t.sent = sentPairs s.sent ++
        (List.replicate s.modules (⟨0x0C#8, 0x00#8⟩ : WirePair) ++ List.replicate s.modules (⟨0x0F#8, 0x00#8⟩ : WirePair) ++
          List.replicate s.modules (⟨0x0B#8, 0x07#8⟩ : WirePair) ++ List.replicate s.modules (⟨0x09#8, 0x00#8⟩ : WirePair) ++
          List.replicate s.modules (⟨0x0C#8, 0x01#8⟩ : WirePair)).take k

/-- By rules R182, R189 and R172 to R174 and log entries 7 and 20 (what each module's registers hold), 19 (a window that pairs
presented alone left open reaches no chip) and 12 (the failing pair is not counted as sent, and which registers a failed write
leaves): `setBrightness` accepts exactly 0 to 15; it fails `OutOfRange` outside and `NotInitialized` in `Uninitialized`,
nothing written; otherwise it writes the intensity register of every module in one window and records the level; if bus write
`k` fails it answers `TransportFailure`, with `k` pairs sent, and the recorded brightness stays. -/
def Obligations.SetBrightnessWritesIntensity : Prop :=
  ∀ (s : State) (level : Int),
    (level < 0 ∨ level > 15 → runCall (.setBrightness level) s = .next { s with reply := some (.call .outOfRange) }) ∧
    (0 ≤ level ∧ level ≤ 15 → s.ctrl = .uninitialized →
      runCall (.setBrightness level) s = .next { s with reply := some (.call .notInitialized) }) ∧
    (0 ≤ level ∧ level ≤ 15 → s.ctrl ≠ .uninitialized → s.Inv → BusCompletes s.modules s →
      ∃ t, runCall (.setBrightness level) s = .next t ∧ t.reply = some (.call .ok) ∧ ((t.brightness : Nat) : Int) = level ∧
        t.sent = s.sent ++ windowEvents (List.replicate s.modules ⟨0x0A#8, BitVec.ofInt 8 level⟩) ∧
        t.ctrl = s.ctrl ∧ t.fb = s.fb ∧ t.rot = s.rot ∧
        ∀ j, j < s.modules →
          t.chipRegister j 0x0A#8 = some (BitVec.ofInt 8 level) ∧
          ∀ r, r ≠ 0x0A#8 → t.chipRegister j r = s.chipRegister j r) ∧
    (0 ≤ level ∧ level ≤ 15 → s.ctrl ≠ .uninitialized → s.Inv →
      ∀ k, k < s.modules → BusCompletes k s → s.bus[k]? = some .fails →
      ∃ t, runCall (.setBrightness level) s = .next t ∧ t.reply = some (.call .transportFailure) ∧
        t.brightness = s.brightness ∧ t.ctrl = s.ctrl ∧ t.fb = s.fb ∧ t.rot = s.rot ∧ t.hung = s.hung ∧
        sentPairs t.sent = sentPairs s.sent ++ List.replicate k ⟨0x0A#8, BitVec.ofInt 8 level⟩ ∧
        ∀ j r, r ≠ 0x0A#8 → t.chipRegister j r = s.chipRegister j r)

/-- Rule R183: `setRotation` sets the orientation as SETROT does, in every controller state and for every integer, writes
nothing to the bus, and returns the block's status. -/
def Obligations.SetRotationDelegates : Prop :=
  ∀ (s : State) (degrees : Int),
    (∀ r : BitVec 2, degrees = 90 * (r.toNat : Int) → (s.modules > 1 → r = 0#2 ∨ r = 2#2) →
      runCall (.setRotation degrees) s = .next { s with rot := r, reply := some (.call .ok) }) ∧
    ((degrees ≠ 0 ∧ degrees ≠ 90 ∧ degrees ≠ 180 ∧ degrees ≠ 270) ∨
        (s.modules > 1 ∧ (degrees = 90 ∨ degrees = 270)) →
      runCall (.setRotation degrees) s = .next { s with reply := some (.call .invalidConfiguration) })

/-- Rule R181: `show` in `Uninitialized` fails with `NotInitialized` and writes nothing to the bus. -/
def Obligations.ShowBeforeInitializeFails : Prop :=
  ∀ s : State, s.ctrl = .uninitialized →
    runCall .showFrame s = .next { s with reply := some (.call .notInitialized) }

/-- By rules R184 and R186, and log entries 7, 19 and 20 for what each module ends with and a window that pairs presented
alone left open: `show` fails with `NotInitialized` before `initialize`; a `show` whose writes complete sends eight windows,
the window of row `y` holding, in module order, digit register `y + 1` with the byte RDROW answers for that row and module; it
re-sends every row, each module ends with its rows in its digit registers, the controller is `Active`, and the block is as
before. -/
def Obligations.ShowTransmitsTheImage : Prop :=
  ∀ s : State,
    (s.ctrl = .uninitialized → runCall .showFrame s = .next { s with reply := some (.call .notInitialized) }) ∧
    (s.Inv → s.ctrl ≠ .uninitialized → BusCompletes (8 * s.modules) s →
    ∃ (rows : Nat → Nat → Byte) (t : State),
      (∀ y m : Nat, y < 8 → m < s.modules →
        exec (.rdrow y m) s = .next { s with reply := some (.response .ok (rows y m)) }) ∧
      runCall .showFrame s = .next t ∧ t.reply = some (.call .ok) ∧
      t.sent = s.sent ++ ((List.range 8).flatMap fun y =>
        windowEvents ((List.range s.modules).map fun m => ⟨BitVec.ofNat 8 (y + 1), rows y m⟩)) ∧
      t.ctrl = .active ∧ t.fb = s.fb ∧ t.rot = s.rot ∧ t.brightness = s.brightness ∧
      ∀ y m j : Nat, y < 8 → s.chainOrder[m]? = some j →
        t.chipRegister j (BitVec.ofNat 8 (y + 1)) = some (rows y m))

/-- By rule R187: two `show` calls send identical sequences of `8N` pairs, and the second leaves the digit registers as the
first did (log entries 7, 19 and 20), all of the chips when the calls are adjacent; between them may come anything that is no
block write and no SETROT, reads, `initialize`, `setBrightness`, further `show` calls, driver register writes and illegal
words among them, as long as the second `show` can run and its own bus writes complete. -/
def Obligations.TwoShowsSendTheSame : Prop :=
  (∀ (s : State) (rest : List Input), s.Inv → s.hung = false → s.ctrl ≠ .uninitialized →
    BusCompletes (16 * s.modules) s → s.inputs = .call .showFrame :: .call .showFrame :: rest →
    ∃ t u, step s = .next t ∧ step t = .next u ∧ u.sent = t.sent ∧ (sentPairs t.sent).length = 8 * s.modules ∧
      u.chips = t.chips) ∧
  ∀ (s : State) (between rest : List Input), s.Inv → s.hung = false → s.ctrl ≠ .uninitialized →
    BusCompletes (8 * s.modules) s → s.inputs = .call .showFrame :: (between ++ .call .showFrame :: rest) →
    (∀ x ∈ between, mayWriteBlock x = false) →
    ∃ t, step s = .next t ∧ (sentPairs t.sent).length = 8 * s.modules ∧
      ((∀ w, .word (.wire16 w) ∉ between) → ∃ u, stepsTo between.length t = some u) ∧
      ∀ u, stepsTo between.length t = some u → u.hung = false → u.ctrl ≠ .uninitialized →
        BusCompletes (8 * u.modules) u →
        ∃ v, step u = .next v ∧ v.reply = some (.call .ok) ∧ v.sent = t.sent ∧
          ∀ j y, y < 8 → v.chipRegister j (BitVec.ofNat 8 (y + 1)) = t.chipRegister j (BitVec.ofNat 8 (y + 1))

/-- By rule R189 and log entries 7, 12, 19 and 20, for `show`: if bus write `k` fails, the call is answered
`TransportFailure`; exactly the first `k` pairs of the frame have been sent, the rows whose windows were complete hold what
was sent (spec/93 K14), and the block, the controller state and the brightness are as before. -/
def Obligations.FailedShowKeepsWhatWasSent : Prop :=
  ∀ (s : State) (k : Nat), s.Inv → s.ctrl ≠ .uninitialized → k < 8 * s.modules → BusCompletes k s →
    s.bus[k]? = some .fails →
    ∃ (rows : Nat → Nat → Byte) (t : State),
      (∀ y m : Nat, y < 8 → m < s.modules →
        exec (.rdrow y m) s = .next { s with reply := some (.response .ok (rows y m)) }) ∧
      runCall .showFrame s = .next t ∧ t.reply = some (.call .transportFailure) ∧
      sentPairs t.sent = sentPairs s.sent ++ ((List.range 8).flatMap fun y =>
        (List.range s.modules).map fun m => (⟨BitVec.ofNat 8 (y + 1), rows y m⟩ : WirePair)).take k ∧
      t.ctrl = s.ctrl ∧ t.brightness = s.brightness ∧ t.fb = s.fb ∧ t.rot = s.rot ∧
      ∀ y m j : Nat, (y + 1) * s.modules ≤ k → s.chainOrder[m]? = some j →
        t.chipRegister j (BitVec.ofNat 8 (y + 1)) = some (rows y m)

/-- Rule R175: the sequencer sends only register codes of the table, never No-op, and for each only data the table lists as
valid; whatever is called and however the bus answers. -/
def Obligations.SequencerSendsOnlyTheTable : Prop :=
  ∀ (c : HostCall) (s t : State), s.sent = [] → runCall c s = .next t →
    ∀ p ∈ sentPairs t.sent, p.code ≠ 0x00#8 ∧ validData p.code p.data = true

/-- Rules R179, R182, R184 and R189: the operations that write to the bus never change the block, whether the bus writes
complete, fail or never return. -/
def Obligations.SequencerLeavesTheBlock : Prop :=
  ∀ (c : HostCall) (s t : State), (c = .initialise ∨ (∃ l, c = .setBrightness l) ∨ c = .showFrame) →
    runCall c s = .next t → t.fb = s.fb ∧ t.rot = s.rot

/-! ## The pseudo-operations -/

/-- Rule R71: the pseudo-operations add no state; they change nothing but the store, and answer. `CLEAR`, which is `FILL 0`,
answers success and leaves every byte of the store at `0x00`. -/
def Obligations.PseudoOperationsAddNoState : Prop :=
  (∀ (c : HostCall) (s t : State),
    (c = .clear ∨ (∃ g, c = .loadMatrix g) ∨ c = .dumpMatrix ∨ (∃ x onChars offChars, c = .loadPattern x onChars offChars) ∨ c = .readFrame) →
    runCall c s = .next t → t = { s with fb := t.fb, reply := t.reply }) ∧
  ∀ s : State, Memory.wf s.modules s.fb → ∃ m : Memory,
    runCall .clear s = .next { s with fb := m, reply := some (.call .ok) } ∧ m.wf s.modules ∧
    ∀ i, i < 8 * s.modules → m.read i = some 0x00#8

/-- Rules R151 and R152: LOADMATRIX always succeeds and leaves the store holding the grid cut to the store, off where the grid
has no cell. -/
def Obligations.LoadMatrixWritesTheGrid : Prop :=
  ∀ (s : State) (grid : List (List GridCell)), Memory.wf s.modules s.fb → ∃ m : Memory,
    runCall (.loadMatrix grid) s = .next { s with fb := m, reply := some (.call .ok) } ∧ m.wf s.modules ∧
    ∀ x y : Nat, x < 8 * s.modules → y < 8 → m.pixel? s.modules x y = some (gridCell grid x y)

/-- Rule R153: DUMPMATRIX answers 8 rows of `W` booleans, the buffer-local pixels, whatever `ROT` holds, and changes no
state. -/
def Obligations.DumpMatrixReadsEveryPixel : Prop :=
  ∀ s : State, Memory.wf s.modules s.fb → ∃ rows : List (List Bool),
    runCall .dumpMatrix s = .next { s with reply := some (.grid rows) } ∧ rows.length = 8 ∧
    ∀ y : Nat, y < 8 → ∃ row, rows[y]? = some row ∧ row.length = 8 * s.modules ∧
      ∀ x : Nat, x < 8 * s.modules → row[x]? = s.fb.pixel? s.modules x y

/-- Rule R154: DUMPMATRIX after LOADMATRIX answers the grid cut to 8 rows of `W` cells, each cell by its truth, padded with
`false`; a grid of exactly 8 rows of `W` booleans comes back as it is. -/
def Obligations.DumpAfterLoadRoundTrip : Prop :=
  (∀ (s : State) (grid : List (List GridCell)), Memory.wf s.modules s.fb →
    ∃ t u, runCall (.loadMatrix grid) s = .next t ∧ runCall .dumpMatrix t = .next u ∧
      u.reply = some (.grid (fittedGrid (8 * s.modules) grid))) ∧
  (∀ (s : State) (g : List (List Bool)), Memory.wf s.modules s.fb → g.length = 8 →
    (∀ row ∈ g, row.length = 8 * s.modules) →
    ∃ t u, runCall (.loadMatrix (g.map fun row => row.map GridCell.bool)) s = .next t ∧
      runCall .dumpMatrix t = .next u ∧ u.reply = some (.grid g))

/-- Rules R156 and R158: LOADPATTERN with one `onChar` lights exactly the cells whose character in the kept lines is that one,
and `offChar` has no effect; with any other `onChar` it is refused and no command is issued. -/
def Obligations.LoadPatternLightsOnChars : Prop :=
  (∀ (s : State) (text offChars : List Char) (c : Char), Memory.wf s.modules s.fb → ∃ m : Memory,
    runCall (.loadPattern text [c] offChars) s = .next { s with fb := m, reply := some (.call .ok) } ∧ m.wf s.modules ∧
    ∀ x y : Nat, x < 8 * s.modules → y < 8 →
      (m.pixel? s.modules x y = some true ↔
        ∃ kept, (((splitLines text).map trimLine).filter fun l => !l.isEmpty)[y]? = some kept ∧ kept[x]? = some c)) ∧
  (∀ (s : State) (text onChars offChars : List Char), onChars.length ≠ 1 →
    runCall (.loadPattern text onChars offChars) s = .next { s with reply := some (.call .patternRefused) })

/-- Rule R157: SplitLines cuts at every line feed and nowhere else; whitespace is exactly space, tab, line feed, vertical tab,
form feed and carriage return; Trim takes away whitespace at both ends, all of it and nothing more. -/
def Obligations.SplitAndTrimLines : Prop :=
  (∀ text : List Char, List.intercalate [Char.ofNat 0x0A] (splitLines text) = text ∧
    ∀ l ∈ splitLines text, Char.ofNat 0x0A ∉ l) ∧
  (∀ c : Char, isPatternSpace c = true ↔
    c = Char.ofNat 0x20 ∨ c = Char.ofNat 0x09 ∨ c = Char.ofNat 0x0A ∨ c = Char.ofNat 0x0B ∨ c = Char.ofNat 0x0C ∨
      c = Char.ofNat 0x0D) ∧
  (∀ l : List Char, ∃ a b, l = a ++ trimLine l ++ b ∧ (∀ c ∈ a, isPatternSpace c = true) ∧
    (∀ c ∈ b, isPatternSpace c = true) ∧
    (∀ c, (trimLine l).head? = some c → isPatternSpace c = false) ∧
    (∀ c, (trimLine l).getLast? = some c → isPatternSpace c = false))

/-- Rules R71 and R184: READFRAME reads `RDROW y, m` for `y = 0..7` and within each `y` for `m = 0..N−1`, and changes no state. -/
def Obligations.ReadFrameReadsEveryRow : Prop :=
  ∀ s : State, s.Inv → ∃ bytes : List Byte,
    runCall .readFrame s = .next { s with reply := some (.frame bytes) } ∧ bytes.length = 8 * s.modules ∧
    ∀ y m : Nat, y < 8 → m < s.modules → ∃ d, bytes[y * s.modules + m]? = some d ∧
      exec (.rdrow y m) s = .next { s with reply := some (.response .ok d) }

/-! ## The assembler -/

/-- By rule R70: a line that assembles to a command assembles to one whose word decodes back to it. The form the rule gives a
command, its mnemonic, its operands in order, each in decimal or `0x` hexadecimal, the pixel value `0` or `1` last, and a comment
or nothing, assembles to that command when it is well-formed; it is rejected when an operand lies outside [−2048, 2047], or when
the pixel value is another number. (Blanks after the mnemonic and the commas are those of the rule's own forms; that the digits
above 9 are written in small letters here is no claim about capitals, log entry 16.) -/
def Obligations.AssembledLinesEncode : Prop :=
  (∀ (line : List Char) (i : Instr), assembleLine line = .command i → i.isCommand = true ∧ decode (encode i) = .ok i) ∧
  ∀ (i : Instr) (mnemonic blanks comment : List Char) (ops : List Int) (v : Option Bool) (texts : List (List Char)),
    asmForm i = some (mnemonic, ops, v) → List.Forall₂ Spells texts ops →
    blanks ≠ [] → (∀ c ∈ blanks, c = ' ') → (comment = [] ∨ ∃ r, comment = ';' :: r) →
    (i.wf = true → assembleLine (asmLine mnemonic blanks
      (texts ++ v.toList.map fun b => [if b then '1' else '0']) comment) = .command i) ∧
    (i.wf = false → assembleLine (asmLine mnemonic blanks
      (texts ++ v.toList.map fun b => [if b then '1' else '0']) comment) = .rejected) ∧
    (v ≠ none → ∀ z : Int, z ≠ 0 → z ≠ 1 →
      assembleLine (asmLine mnemonic blanks (texts ++ [decimal z]) comment) = .rejected)
end

