-- ==== Sys2Proof/Laws/Assembler.lean ====
section
/-! SUPPORT. Reading back the digits of a number, in decimal and in hexadecimal. -/

namespace Sys2Proof.Machine

theorem decDigit?_digitChar : ∀ d < 10, decDigit? (Nat.digitChar d) = some d := by decide

theorem hexDigit?_digitChar : ∀ d < 16, hexDigit? (Nat.digitChar d) = some d := by decide

/-- The digits of a number read back as that number, in any base whose digits are read right. -/
theorem parseDigits_toDigits {base : Nat} (hb : 1 < base) {digit? : Char → Option Nat}
    (hd : ∀ d < base, digit? (Nat.digitChar d) = some d) (n : Nat) :
    parseDigits base digit? (Nat.toDigits base n) = some n := by
  have fold : ∀ n, (Nat.toDigits base n).foldlM (fun acc c => (digit? c).map fun d => acc * base + d) 0 = some n := by
    intro n
    induction n using Nat.strong_induction_on with
    | _ n ih =>
      by_cases h : n < base
      · rw [Nat.toDigits_of_lt_base h]
        simp [hd n h]
      · rw [Nat.toDigits_of_base_le hb (by omega), List.foldlM_append,
          ih _ (Nat.div_lt_self (by omega) hb)]
        have hm := Nat.div_add_mod n base
        rw [Nat.mul_comm] at hm
        simp [hd _ (Nat.mod_lt n (by omega)), hm]
  have hne : Nat.toDigits base n ≠ [] := Nat.toDigits_ne_nil
  unfold parseDigits
  split
  · contradiction
  · exact fold n

end Sys2Proof.Machine
end

