-- ==== Sys2Proof/Laws/State.lean ====
section
/-! SUPPORT. What each named update does to each field of the state, so that no proof unfolds an update. -/

namespace Sys2Proof.Machine

variable (s : State)

@[simp] theorem State.withFb_modules (m : Memory) : (s.withFb m).modules = s.modules := rfl
@[simp] theorem State.withFb_chainOrder (m : Memory) : (s.withFb m).chainOrder = s.chainOrder := rfl
@[simp] theorem State.withFb_fb (m : Memory) : (s.withFb m).fb = m := rfl
@[simp] theorem State.withFb_rot (m : Memory) : (s.withFb m).rot = s.rot := rfl
@[simp] theorem State.withFb_ctrl (m : Memory) : (s.withFb m).ctrl = s.ctrl := rfl
@[simp] theorem State.withFb_brightness (m : Memory) : (s.withFb m).brightness = s.brightness := rfl
@[simp] theorem State.withFb_select (m : Memory) : (s.withFb m).select = s.select := rfl
@[simp] theorem State.withFb_window (m : Memory) : (s.withFb m).window = s.window := rfl
@[simp] theorem State.withFb_chips (m : Memory) : (s.withFb m).chips = s.chips := rfl
@[simp] theorem State.withFb_hung (m : Memory) : (s.withFb m).hung = s.hung := rfl
@[simp] theorem State.withFb_inputs (m : Memory) : (s.withFb m).inputs = s.inputs := rfl
@[simp] theorem State.withFb_bus (m : Memory) : (s.withFb m).bus = s.bus := rfl
@[simp] theorem State.withFb_reply (m : Memory) : (s.withFb m).reply = s.reply := rfl
@[simp] theorem State.withFb_sent (m : Memory) : (s.withFb m).sent = s.sent := rfl
@[simp] theorem State.withFb_freeDraws (m : Memory) : (s.withFb m).freeDraws = s.freeDraws := rfl

@[simp] theorem State.withRot_modules (r : BitVec 2) : (s.withRot r).modules = s.modules := rfl
@[simp] theorem State.withRot_chainOrder (r : BitVec 2) : (s.withRot r).chainOrder = s.chainOrder := rfl
@[simp] theorem State.withRot_fb (r : BitVec 2) : (s.withRot r).fb = s.fb := rfl
@[simp] theorem State.withRot_rot (r : BitVec 2) : (s.withRot r).rot = r := rfl
@[simp] theorem State.withRot_ctrl (r : BitVec 2) : (s.withRot r).ctrl = s.ctrl := rfl
@[simp] theorem State.withRot_brightness (r : BitVec 2) : (s.withRot r).brightness = s.brightness := rfl
@[simp] theorem State.withRot_select (r : BitVec 2) : (s.withRot r).select = s.select := rfl
@[simp] theorem State.withRot_window (r : BitVec 2) : (s.withRot r).window = s.window := rfl
@[simp] theorem State.withRot_chips (r : BitVec 2) : (s.withRot r).chips = s.chips := rfl
@[simp] theorem State.withRot_hung (r : BitVec 2) : (s.withRot r).hung = s.hung := rfl
@[simp] theorem State.withRot_inputs (r : BitVec 2) : (s.withRot r).inputs = s.inputs := rfl
@[simp] theorem State.withRot_bus (r : BitVec 2) : (s.withRot r).bus = s.bus := rfl
@[simp] theorem State.withRot_reply (r : BitVec 2) : (s.withRot r).reply = s.reply := rfl
@[simp] theorem State.withRot_sent (r : BitVec 2) : (s.withRot r).sent = s.sent := rfl
@[simp] theorem State.withRot_freeDraws (r : BitVec 2) : (s.withRot r).freeDraws = s.freeDraws := rfl

@[simp] theorem State.withCtrl_modules (c : Controller) : (s.withCtrl c).modules = s.modules := rfl
@[simp] theorem State.withCtrl_chainOrder (c : Controller) : (s.withCtrl c).chainOrder = s.chainOrder := rfl
@[simp] theorem State.withCtrl_fb (c : Controller) : (s.withCtrl c).fb = s.fb := rfl
@[simp] theorem State.withCtrl_rot (c : Controller) : (s.withCtrl c).rot = s.rot := rfl
@[simp] theorem State.withCtrl_ctrl (c : Controller) : (s.withCtrl c).ctrl = c := rfl
@[simp] theorem State.withCtrl_brightness (c : Controller) : (s.withCtrl c).brightness = s.brightness := rfl
@[simp] theorem State.withCtrl_select (c : Controller) : (s.withCtrl c).select = s.select := rfl
@[simp] theorem State.withCtrl_window (c : Controller) : (s.withCtrl c).window = s.window := rfl
@[simp] theorem State.withCtrl_chips (c : Controller) : (s.withCtrl c).chips = s.chips := rfl
@[simp] theorem State.withCtrl_hung (c : Controller) : (s.withCtrl c).hung = s.hung := rfl
@[simp] theorem State.withCtrl_inputs (c : Controller) : (s.withCtrl c).inputs = s.inputs := rfl
@[simp] theorem State.withCtrl_bus (c : Controller) : (s.withCtrl c).bus = s.bus := rfl
@[simp] theorem State.withCtrl_reply (c : Controller) : (s.withCtrl c).reply = s.reply := rfl
@[simp] theorem State.withCtrl_sent (c : Controller) : (s.withCtrl c).sent = s.sent := rfl
@[simp] theorem State.withCtrl_freeDraws (c : Controller) : (s.withCtrl c).freeDraws = s.freeDraws := rfl

@[simp] theorem State.withBrightness_modules (b : Fin 16) : (s.withBrightness b).modules = s.modules := rfl
@[simp] theorem State.withBrightness_chainOrder (b : Fin 16) : (s.withBrightness b).chainOrder = s.chainOrder := rfl
@[simp] theorem State.withBrightness_fb (b : Fin 16) : (s.withBrightness b).fb = s.fb := rfl
@[simp] theorem State.withBrightness_rot (b : Fin 16) : (s.withBrightness b).rot = s.rot := rfl
@[simp] theorem State.withBrightness_ctrl (b : Fin 16) : (s.withBrightness b).ctrl = s.ctrl := rfl
@[simp] theorem State.withBrightness_brightness (b : Fin 16) : (s.withBrightness b).brightness = b := rfl
@[simp] theorem State.withBrightness_select (b : Fin 16) : (s.withBrightness b).select = s.select := rfl
@[simp] theorem State.withBrightness_window (b : Fin 16) : (s.withBrightness b).window = s.window := rfl
@[simp] theorem State.withBrightness_chips (b : Fin 16) : (s.withBrightness b).chips = s.chips := rfl
@[simp] theorem State.withBrightness_hung (b : Fin 16) : (s.withBrightness b).hung = s.hung := rfl
@[simp] theorem State.withBrightness_inputs (b : Fin 16) : (s.withBrightness b).inputs = s.inputs := rfl
@[simp] theorem State.withBrightness_bus (b : Fin 16) : (s.withBrightness b).bus = s.bus := rfl
@[simp] theorem State.withBrightness_reply (b : Fin 16) : (s.withBrightness b).reply = s.reply := rfl
@[simp] theorem State.withBrightness_sent (b : Fin 16) : (s.withBrightness b).sent = s.sent := rfl
@[simp] theorem State.withBrightness_freeDraws (b : Fin 16) : (s.withBrightness b).freeDraws = s.freeDraws := rfl

@[simp] theorem State.withReply_modules (r : Option Reply) : (s.withReply r).modules = s.modules := rfl
@[simp] theorem State.withReply_chainOrder (r : Option Reply) : (s.withReply r).chainOrder = s.chainOrder := rfl
@[simp] theorem State.withReply_fb (r : Option Reply) : (s.withReply r).fb = s.fb := rfl
@[simp] theorem State.withReply_rot (r : Option Reply) : (s.withReply r).rot = s.rot := rfl
@[simp] theorem State.withReply_ctrl (r : Option Reply) : (s.withReply r).ctrl = s.ctrl := rfl
@[simp] theorem State.withReply_brightness (r : Option Reply) : (s.withReply r).brightness = s.brightness := rfl
@[simp] theorem State.withReply_select (r : Option Reply) : (s.withReply r).select = s.select := rfl
@[simp] theorem State.withReply_window (r : Option Reply) : (s.withReply r).window = s.window := rfl
@[simp] theorem State.withReply_chips (r : Option Reply) : (s.withReply r).chips = s.chips := rfl
@[simp] theorem State.withReply_hung (r : Option Reply) : (s.withReply r).hung = s.hung := rfl
@[simp] theorem State.withReply_inputs (r : Option Reply) : (s.withReply r).inputs = s.inputs := rfl
@[simp] theorem State.withReply_bus (r : Option Reply) : (s.withReply r).bus = s.bus := rfl
@[simp] theorem State.withReply_reply (r : Option Reply) : (s.withReply r).reply = r := rfl
@[simp] theorem State.withReply_sent (r : Option Reply) : (s.withReply r).sent = s.sent := rfl
@[simp] theorem State.withReply_freeDraws (r : Option Reply) : (s.withReply r).freeDraws = s.freeDraws := rfl

@[simp] theorem State.openWindow_modules : s.openWindow.modules = s.modules := rfl
@[simp] theorem State.openWindow_chainOrder : s.openWindow.chainOrder = s.chainOrder := rfl
@[simp] theorem State.openWindow_fb : s.openWindow.fb = s.fb := rfl
@[simp] theorem State.openWindow_rot : s.openWindow.rot = s.rot := rfl
@[simp] theorem State.openWindow_ctrl : s.openWindow.ctrl = s.ctrl := rfl
@[simp] theorem State.openWindow_brightness : s.openWindow.brightness = s.brightness := rfl
@[simp] theorem State.openWindow_select : s.openWindow.select = .low := rfl
@[simp] theorem State.openWindow_window : s.openWindow.window = [] := rfl
@[simp] theorem State.openWindow_chips : s.openWindow.chips = s.chips := rfl
@[simp] theorem State.openWindow_hung : s.openWindow.hung = s.hung := rfl
@[simp] theorem State.openWindow_inputs : s.openWindow.inputs = s.inputs := rfl
@[simp] theorem State.openWindow_bus : s.openWindow.bus = s.bus := rfl
@[simp] theorem State.openWindow_reply : s.openWindow.reply = s.reply := rfl
@[simp] theorem State.openWindow_sent : s.openWindow.sent = s.sent ++ [.selectLow] := rfl
@[simp] theorem State.openWindow_freeDraws : s.openWindow.freeDraws = s.freeDraws := rfl

@[simp] theorem State.closeWindow_modules : s.closeWindow.modules = s.modules := rfl
@[simp] theorem State.closeWindow_chainOrder : s.closeWindow.chainOrder = s.chainOrder := rfl
@[simp] theorem State.closeWindow_fb : s.closeWindow.fb = s.fb := rfl
@[simp] theorem State.closeWindow_rot : s.closeWindow.rot = s.rot := rfl
@[simp] theorem State.closeWindow_ctrl : s.closeWindow.ctrl = s.ctrl := rfl
@[simp] theorem State.closeWindow_brightness : s.closeWindow.brightness = s.brightness := rfl
@[simp] theorem State.closeWindow_select : s.closeWindow.select = .high := rfl
@[simp] theorem State.closeWindow_window : s.closeWindow.window = [] := rfl
@[simp] theorem State.closeWindow_chips : s.closeWindow.chips = latch s.chainOrder s.window s.chips := rfl
@[simp] theorem State.closeWindow_hung : s.closeWindow.hung = s.hung := rfl
@[simp] theorem State.closeWindow_inputs : s.closeWindow.inputs = s.inputs := rfl
@[simp] theorem State.closeWindow_bus : s.closeWindow.bus = s.bus := rfl
@[simp] theorem State.closeWindow_reply : s.closeWindow.reply = s.reply := rfl
@[simp] theorem State.closeWindow_sent : s.closeWindow.sent = s.sent ++ [.selectHigh] := rfl
@[simp] theorem State.closeWindow_freeDraws : s.closeWindow.freeDraws = s.freeDraws := rfl

@[simp] theorem State.pushPair_modules (p : WirePair) : (s.pushPair p).modules = s.modules := rfl
@[simp] theorem State.pushPair_chainOrder (p : WirePair) : (s.pushPair p).chainOrder = s.chainOrder := rfl
@[simp] theorem State.pushPair_fb (p : WirePair) : (s.pushPair p).fb = s.fb := rfl
@[simp] theorem State.pushPair_rot (p : WirePair) : (s.pushPair p).rot = s.rot := rfl
@[simp] theorem State.pushPair_ctrl (p : WirePair) : (s.pushPair p).ctrl = s.ctrl := rfl
@[simp] theorem State.pushPair_brightness (p : WirePair) : (s.pushPair p).brightness = s.brightness := rfl
@[simp] theorem State.pushPair_select (p : WirePair) : (s.pushPair p).select = s.select := rfl
@[simp] theorem State.pushPair_window (p : WirePair) : (s.pushPair p).window = s.window ++ [p] := rfl
@[simp] theorem State.pushPair_chips (p : WirePair) : (s.pushPair p).chips = s.chips := rfl
@[simp] theorem State.pushPair_hung (p : WirePair) : (s.pushPair p).hung = s.hung := rfl
@[simp] theorem State.pushPair_inputs (p : WirePair) : (s.pushPair p).inputs = s.inputs := rfl
@[simp] theorem State.pushPair_bus (p : WirePair) : (s.pushPair p).bus = s.bus := rfl
@[simp] theorem State.pushPair_reply (p : WirePair) : (s.pushPair p).reply = s.reply := rfl
@[simp] theorem State.pushPair_sent (p : WirePair) : (s.pushPair p).sent = s.sent ++ [.pair p] := rfl
@[simp] theorem State.pushPair_freeDraws (p : WirePair) : (s.pushPair p).freeDraws = s.freeDraws := rfl

@[simp] theorem State.failPair_modules (p : WirePair) : (s.failPair p).modules = s.modules := rfl
@[simp] theorem State.failPair_chainOrder (p : WirePair) : (s.failPair p).chainOrder = s.chainOrder := rfl
@[simp] theorem State.failPair_fb (p : WirePair) : (s.failPair p).fb = s.fb := rfl
@[simp] theorem State.failPair_rot (p : WirePair) : (s.failPair p).rot = s.rot := rfl
@[simp] theorem State.failPair_ctrl (p : WirePair) : (s.failPair p).ctrl = s.ctrl := rfl
@[simp] theorem State.failPair_brightness (p : WirePair) : (s.failPair p).brightness = s.brightness := rfl
@[simp] theorem State.failPair_select (p : WirePair) : (s.failPair p).select = Config.selectAfterFailure s.freeDraws := rfl
@[simp] theorem State.failPair_window (p : WirePair) : (s.failPair p).window = [] := rfl
@[simp] theorem State.failPair_chips (p : WirePair) : (s.failPair p).chips =
    scrambleAll s.freeDraws (s.window.map WirePair.code ++ [p.code]) s.chips := rfl
@[simp] theorem State.failPair_hung (p : WirePair) : (s.failPair p).hung = s.hung := rfl
@[simp] theorem State.failPair_inputs (p : WirePair) : (s.failPair p).inputs = s.inputs := rfl
@[simp] theorem State.failPair_bus (p : WirePair) : (s.failPair p).bus = s.bus := rfl
@[simp] theorem State.failPair_reply (p : WirePair) : (s.failPair p).reply = s.reply := rfl
@[simp] theorem State.failPair_sent (p : WirePair) : (s.failPair p).sent = s.sent := rfl
@[simp] theorem State.failPair_freeDraws (p : WirePair) : (s.failPair p).freeDraws = s.freeDraws + 1 := rfl

@[simp] theorem State.taken_modules (rest : List Input) : (s.taken rest).modules = s.modules := rfl
@[simp] theorem State.taken_chainOrder (rest : List Input) : (s.taken rest).chainOrder = s.chainOrder := rfl
@[simp] theorem State.taken_fb (rest : List Input) : (s.taken rest).fb = s.fb := rfl
@[simp] theorem State.taken_rot (rest : List Input) : (s.taken rest).rot = s.rot := rfl
@[simp] theorem State.taken_ctrl (rest : List Input) : (s.taken rest).ctrl = s.ctrl := rfl
@[simp] theorem State.taken_brightness (rest : List Input) : (s.taken rest).brightness = s.brightness := rfl
@[simp] theorem State.taken_select (rest : List Input) : (s.taken rest).select = s.select := rfl
@[simp] theorem State.taken_window (rest : List Input) : (s.taken rest).window = s.window := rfl
@[simp] theorem State.taken_chips (rest : List Input) : (s.taken rest).chips = s.chips := rfl
@[simp] theorem State.taken_hung (rest : List Input) : (s.taken rest).hung = s.hung := rfl
@[simp] theorem State.taken_inputs (rest : List Input) : (s.taken rest).inputs = rest := rfl
@[simp] theorem State.taken_bus (rest : List Input) : (s.taken rest).bus = s.bus := rfl
@[simp] theorem State.taken_reply (rest : List Input) : (s.taken rest).reply = none := rfl
@[simp] theorem State.taken_sent (rest : List Input) : (s.taken rest).sent = [] := rfl
@[simp] theorem State.taken_freeDraws (rest : List Input) : (s.taken rest).freeDraws = s.freeDraws := rfl

@[simp] theorem State.presenting_modules (e : Encoded) : (s.presenting e).modules = s.modules := rfl
@[simp] theorem State.presenting_chainOrder (e : Encoded) : (s.presenting e).chainOrder = s.chainOrder := rfl
@[simp] theorem State.presenting_fb (e : Encoded) : (s.presenting e).fb = s.fb := rfl
@[simp] theorem State.presenting_rot (e : Encoded) : (s.presenting e).rot = s.rot := rfl
@[simp] theorem State.presenting_ctrl (e : Encoded) : (s.presenting e).ctrl = s.ctrl := rfl
@[simp] theorem State.presenting_brightness (e : Encoded) : (s.presenting e).brightness = s.brightness := rfl
@[simp] theorem State.presenting_select (e : Encoded) : (s.presenting e).select = s.select := rfl
@[simp] theorem State.presenting_window (e : Encoded) : (s.presenting e).window = s.window := rfl
@[simp] theorem State.presenting_chips (e : Encoded) : (s.presenting e).chips = s.chips := rfl
@[simp] theorem State.presenting_hung (e : Encoded) : (s.presenting e).hung = false := rfl
@[simp] theorem State.presenting_inputs (e : Encoded) : (s.presenting e).inputs = .word e :: s.inputs := rfl
@[simp] theorem State.presenting_bus (e : Encoded) : (s.presenting e).bus = s.bus := rfl
@[simp] theorem State.presenting_reply (e : Encoded) : (s.presenting e).reply = s.reply := rfl
@[simp] theorem State.presenting_sent (e : Encoded) : (s.presenting e).sent = s.sent := rfl
@[simp] theorem State.presenting_freeDraws (e : Encoded) : (s.presenting e).freeDraws = s.freeDraws := rfl

end Sys2Proof.Machine
end

