-- ==== Sys2Proof/Laws/Bus.lean ====
section
/-! SUPPORT. What the bus operations can do: the cases of one write, what they never change, and what a window does when
every write of it completes. -/

namespace Sys2Proof.Machine

/-! ## One write -/

/-- Everything one bus write can do. -/
theorem wireWrite_cases {p : WirePair} {s t : State} {r : BusResult} (h : wireWrite p s = (t, r)) :
    (r = .done ∧ (s.bus = [] ∨ ∃ rest, s.bus = .completes :: rest) ∧ t = ({ s with bus := s.bus.tail } : State).pushPair p) ∨
    (r = .failed ∧ (∃ rest, s.bus = .fails :: rest) ∧ t = ({ s with bus := s.bus.tail } : State).failPair p) ∨
    (r = .blocked ∧ (∃ rest, s.bus = .blocks :: rest) ∧ t = { s with hung := true }) := by
  unfold wireWrite at h
  split at h <;> rename_i hb <;> obtain ⟨rfl, rfl⟩ := Prod.mk.injEq .. ▸ h
  · exact .inl ⟨rfl, .inl hb, by rw [hb]; cases s; simp_all [State.pushPair]⟩
  · exact .inl ⟨rfl, .inr ⟨_, hb⟩, by rw [hb]; rfl⟩
  · exact .inr (.inl ⟨rfl, ⟨_, hb⟩, by rw [hb]; rfl⟩)
  · exact .inr (.inr ⟨rfl, ⟨_, hb⟩, rfl⟩)

/-- A write that completes. -/
theorem wireWrite_completes {s : State} (p : WirePair) (h : BusCompletes 1 s) :
    wireWrite p s = (({ s with bus := s.bus.drop 1 } : State).pushPair p, .done) := by
  unfold wireWrite
  split <;> rename_i hb
  · rw [hb]; cases s; simp_all [State.pushPair]
  · rw [hb]; rfl
  · have := h .fails (by rw [hb]; simp); cases this
  · have := h .blocks (by rw [hb]; simp); cases this

/-! ## What the bus never changes -/

/-- The fields no bus operation writes. -/
structure BusFrame (s t : State) : Prop where
  modules : t.modules = s.modules
  chainOrder : t.chainOrder = s.chainOrder
  fb : t.fb = s.fb
  rot : t.rot = s.rot
  ctrl : t.ctrl = s.ctrl
  brightness : t.brightness = s.brightness
  inputs : t.inputs = s.inputs
  reply : t.reply = s.reply

theorem BusFrame.refl (s : State) : BusFrame s s := ⟨rfl, rfl, rfl, rfl, rfl, rfl, rfl, rfl⟩

theorem BusFrame.trans {s t u : State} (h : BusFrame s t) (h' : BusFrame t u) : BusFrame s u :=
  ⟨h'.modules.trans h.modules, h'.chainOrder.trans h.chainOrder, h'.fb.trans h.fb, h'.rot.trans h.rot,
    h'.ctrl.trans h.ctrl, h'.brightness.trans h.brightness, h'.inputs.trans h.inputs, h'.reply.trans h.reply⟩

theorem openWindow_frame (s : State) : BusFrame s s.openWindow := ⟨rfl, rfl, rfl, rfl, rfl, rfl, rfl, rfl⟩
theorem closeWindow_frame (s : State) : BusFrame s s.closeWindow := ⟨rfl, rfl, rfl, rfl, rfl, rfl, rfl, rfl⟩

theorem wireWrite_frame {p : WirePair} {s t : State} {r : BusResult} (h : wireWrite p s = (t, r)) : BusFrame s t := by
  obtain ⟨-, -, rfl⟩ | ⟨-, -, rfl⟩ | ⟨-, -, rfl⟩ := wireWrite_cases h <;>
    exact ⟨rfl, rfl, rfl, rfl, rfl, rfl, rfl, rfl⟩

theorem sendPairs_frame {ps : List WirePair} {s t : State} {r : BusResult} (h : sendPairs ps s = (t, r)) :
    BusFrame s t := by
  induction ps generalizing s with
  | nil =>
    obtain ⟨rfl, -⟩ := Prod.mk.injEq .. ▸ h
    exact closeWindow_frame s
  | cons p ps ih =>
    unfold sendPairs at h
    split at h <;> rename_i hw
    · exact (wireWrite_frame hw).trans (ih h)
    · obtain ⟨rfl, -⟩ := Prod.mk.injEq .. ▸ h; exact wireWrite_frame hw
    · obtain ⟨rfl, -⟩ := Prod.mk.injEq .. ▸ h; exact wireWrite_frame hw

theorem sendWindow_frame {ps : List WirePair} {s t : State} {r : BusResult} (h : sendWindow ps s = (t, r)) :
    BusFrame s t := (openWindow_frame s).trans (sendPairs_frame h)

theorem sendWindows_frame {pss : List (List WirePair)} {s t : State} {r : BusResult}
    (h : sendWindows pss s = (t, r)) : BusFrame s t := by
  induction pss generalizing s with
  | nil =>
    obtain ⟨rfl, -⟩ := Prod.mk.injEq .. ▸ h
    exact BusFrame.refl s
  | cons ps pss ih =>
    unfold sendWindows at h
    split at h <;> rename_i hw
    · exact (sendWindow_frame hw).trans (ih h)
    · obtain ⟨rfl, -⟩ := Prod.mk.injEq .. ▸ h; exact sendWindow_frame hw
    · obtain ⟨rfl, -⟩ := Prod.mk.injEq .. ▸ h; exact sendWindow_frame hw

theorem wirePair_frame {p : WirePair} {s t : State} {r : BusResult} (h : wirePair p s = (t, r)) : BusFrame s t := by
  have h0 : BusFrame s (if s.window = [] then s.openWindow else s) := by
    split
    · exact openWindow_frame s
    · exact BusFrame.refl s
  unfold wirePair at h
  split at h <;> rename_i hw <;> obtain ⟨rfl, -⟩ := Prod.mk.injEq .. ▸ h
  · split
    · exact (h0.trans (wireWrite_frame hw)).trans (closeWindow_frame _)
    · exact h0.trans (wireWrite_frame hw)
  · exact h0.trans (wireWrite_frame hw)
  · exact h0.trans (wireWrite_frame hw)

/-! ## A window whose writes all complete -/

theorem sendPairs_completes (ps : List WirePair) {s : State} (h : BusCompletes ps.length s) :
    sendPairs ps s =
      ({ s with
          select := .high, window := [], chips := latch s.chainOrder (s.window ++ ps) s.chips,
          sent := s.sent ++ ps.map .pair ++ [.selectHigh], bus := s.bus.drop ps.length }, .done) := by
  induction ps generalizing s with
  | nil => simp [sendPairs, State.closeWindow]
  | cons p ps ih =>
    have h1 : BusCompletes 1 s := fun o ho => h o (List.take_subset_take_left _ (by simp) ho)
    have h2 : BusCompletes ps.length (({ s with bus := s.bus.drop 1 } : State).pushPair p) := by
      intro o ho
      refine h o ?_
      have : (s.bus.take (ps.length + 1)).drop 1 = (s.bus.drop 1).take ps.length := by
        rw [List.drop_take]; rfl
      rw [List.length_cons]
      exact List.mem_of_mem_drop (this ▸ ho)
    unfold sendPairs
    rw [wireWrite_completes p h1]
    simp only [ih h2]
    simp [State.pushPair]

/-- A window whose writes all complete: every event of it is driven, every chip takes its pair, chip-select is high. -/
theorem sendWindow_completes (ps : List WirePair) {s : State} (h : BusCompletes ps.length s) :
    sendWindow ps s =
      ({ s with
          select := .high, window := [], chips := latch s.chainOrder ps s.chips,
          sent := s.sent ++ windowEvents ps, bus := s.bus.drop ps.length }, .done) := by
  unfold sendWindow
  rw [sendPairs_completes ps (s := s.openWindow) h]
  simp [State.openWindow, windowEvents]

/-! ## The chips -/

/-- A register code is one of the thirteen that hold data, or none of them. -/
theorem registerCode_cases (code : Byte) :
    (code = regDigit 0 ∨ code = regDigit 1 ∨ code = regDigit 2 ∨ code = regDigit 3 ∨ code = regDigit 4 ∨ code = regDigit 5 ∨ code = regDigit 6 ∨
      code = regDigit 7 ∨ code = regDecodeMode ∨ code = regIntensity ∨ code = regScanLimit ∨ code = regShutdown ∨ code = regDisplayTest) ∨
    (code ≠ regDigit 0 ∧ code ≠ regDigit 1 ∧ code ≠ regDigit 2 ∧ code ≠ regDigit 3 ∧ code ≠ regDigit 4 ∧ code ≠ regDigit 5 ∧ code ≠ regDigit 6 ∧
      code ≠ regDigit 7 ∧ code ≠ regDecodeMode ∧ code ≠ regIntensity ∧ code ≠ regScanLimit ∧ code ≠ regShutdown ∧ code ≠ regDisplayTest) := by
  by_cases h0 : code = regDigit 0
  · simp only [h0, true_or]
  by_cases h1 : code = regDigit 1
  · simp only [h1, true_or, or_true]
  by_cases h2 : code = regDigit 2
  · simp only [h2, true_or, or_true]
  by_cases h3 : code = regDigit 3
  · simp only [h3, true_or, or_true]
  by_cases h4 : code = regDigit 4
  · simp only [h4, true_or, or_true]
  by_cases h5 : code = regDigit 5
  · simp only [h5, true_or, or_true]
  by_cases h6 : code = regDigit 6
  · simp only [h6, true_or, or_true]
  by_cases h7 : code = regDigit 7
  · simp only [h7, true_or, or_true]
  by_cases h8 : code = regDecodeMode
  · simp only [h8, true_or, or_true]
  by_cases h9 : code = regIntensity
  · simp only [h9, true_or, or_true]
  by_cases h10 : code = regScanLimit
  · simp only [h10, true_or, or_true]
  by_cases h11 : code = regShutdown
  · simp only [h11, true_or, or_true]
  by_cases h12 : code = regDisplayTest
  · simp only [h12, true_or, or_true]
  exact .inr ⟨h0, h1, h2, h3, h4, h5, h6, h7, h8, h9, h10, h11, h12⟩

/-- A register after a register write of one chip. -/
theorem Chip.read_write (c : Chip) (code v r : Byte) :
    (c.write code v).read r = if r = code then (c.read r).map fun _ => v else c.read r := by
  by_cases h : r = code
  · subst h
    rw [if_pos rfl]
    obtain (rfl | rfl | rfl | rfl | rfl | rfl | rfl | rfl | rfl | rfl | rfl | rfl | rfl) |
      ⟨h0, h1, h2, h3, h4, h5, h6, h7, h8, h9, h10, h11, h12⟩ := registerCode_cases r
    all_goals first | rfl | skip
    unfold Chip.write Chip.read
    simp only [h0, h1, h2, h3, h4, h5, h6, h7, h8, h9, h10, h11, h12, if_false, Option.map_none]
  · rw [if_neg h]
    rcases registerCode_cases code with hc | ⟨h0, h1, h2, h3, h4, h5, h6, h7, h8, h9, h10, h11, h12⟩
    · rcases hc with rfl | rfl | rfl | rfl | rfl | rfl | rfl | rfl | rfl | rfl | rfl | rfl | rfl
      all_goals
        unfold Chip.read
        simp only [h, if_false]
        rfl
    · unfold Chip.write
      simp only [h0, h1, h2, h3, h4, h5, h6, h7, h8, h9, h10, h11, h12, if_false]

@[simp] theorem length_latch (order : List Nat) (ps : List WirePair) (chips : List Chip) :
    (latch order ps chips).length = chips.length := by
  unfold latch
  generalize order.zip ps = l
  induction l generalizing chips with
  | nil => rfl
  | cons kp l ih => rw [List.foldl_cons, ih, List.length_modify]

@[simp] theorem length_scramble (d : Nat) (code : Byte) (chips : List Chip) :
    (scramble d code chips).length = chips.length := List.length_mapIdx

@[simp] theorem length_scrambleAll (d : Nat) (codes : List Byte) (chips : List Chip) :
    (scrambleAll d codes chips).length = chips.length := by
  unfold scrambleAll
  induction codes generalizing chips with
  | nil => rfl
  | cons code codes ih => rw [List.foldl_cons, ih, length_scramble]

/-- A failed write leaves every register alone whose code is not among the codes given. -/
theorem read_scrambleAll (d : Nat) (codes : List Byte) (chips : List Chip) (j : Nat) (r : Byte)
    (h : ∀ code ∈ codes, r ≠ code) :
    ((scrambleAll d codes chips)[j]?.bind fun c => c.read r) = chips[j]?.bind fun c => c.read r := by
  unfold scrambleAll
  induction codes generalizing chips with
  | nil => rfl
  | cons code codes ih =>
    rw [List.foldl_cons, ih _ fun c hc => h c (List.mem_cons_of_mem _ hc)]
    unfold scramble
    rw [List.getElem?_mapIdx]
    cases chips[j]? with
    | none => rfl
    | some c =>
      simp only [Option.map_some, Option.bind_some]
      rw [Chip.read_write, if_neg (h code List.mem_cons_self)]

/-- A window gives each module the pair `CHAIN_ORDER` sends it, and no other. -/
theorem getElem?_latch (order : List Nat) (ps : List WirePair) (chips : List Chip) (hn : order.Nodup)
    (hl : order.length ≤ ps.length) (k : Nat) (hk : k < order.length) :
    (latch order ps chips)[order[k]]? = (chips[order[k]]?).map fun c => c.write (ps[k]).code (ps[k]).data := by
  have other : ∀ (l : List (Nat × WirePair)) (cs : List Chip) (j : Nat), (∀ kp ∈ l, kp.1 ≠ j) →
      (l.foldl (fun cs kp => cs.modify kp.1 fun c => c.write kp.2.code kp.2.data) cs)[j]? = cs[j]? := by
    intro l
    induction l with
    | nil => intro cs j _; rfl
    | cons kp l ih =>
      intro cs j h
      rw [List.foldl_cons, ih _ _ fun q hq => h q (List.mem_cons_of_mem _ hq), List.getElem?_modify,
        Option.map_eq_map]
      simp [h kp List.mem_cons_self]
  unfold latch
  induction order generalizing ps chips k with
  | nil => simp at hk
  | cons j order ih =>
    cases ps with
    | nil => simp at hl
    | cons p ps =>
      rw [List.zip_cons_cons, List.foldl_cons]
      have hj := (List.nodup_cons.1 hn).1
      cases k with
      | zero =>
        simp only [List.getElem_cons_zero]
        rw [other _ _ _ fun kp hkp => ?_]
        · rw [List.getElem?_modify]
          simp
        · rintro rfl
          exact hj (List.of_mem_zip hkp).1
      | succ k =>
        simp only [List.getElem_cons_succ]
        have hne : j ≠ order[k]'(by simpa using hk) := fun h => hj (h ▸ List.getElem_mem _)
        rw [ih ps _ (List.nodup_cons.1 hn).2 (by simpa using hl) k (by simpa using hk), List.getElem?_modify]
        simp [hne]

end Sys2Proof.Machine
end

