-- ==== Sys2Proof/Laws/Memory.lean ====
section
/-! SUPPORT. What each operation over the pixel store does, said once: by byte (`read`) and by pixel (`pixel?`), and that it
keeps the store's canonical form. -/

namespace Sys2Proof.Machine

/-! ## Bits of a byte -/

theorem getLsbD_putBit (v : Byte) (i j : Nat) (hi : i < 8) (b : Bool) :
    (putBit v i b).getLsbD j = if j = i then b else v.getLsbD j := by
  unfold putBit
  by_cases hj : j < 8
  · by_cases h : j = i
    · subst h
      cases b <;> simp [hj]
    · cases b
      · simp only [Bool.false_eq_true, if_false, BitVec.getLsbD_and, BitVec.getLsbD_not, h]
        simp [hj]
        omega
      · simp only [if_true, BitVec.getLsbD_or, h, if_false]
        simp [hj]
        omega
  · have h : j ≠ i := by omega
    rw [if_neg h, BitVec.getLsbD_of_ge _ _ (by omega), BitVec.getLsbD_of_ge _ _ (by omega)]

theorem bitIndex_lt (x : Int) : bitIndex x < 8 := by unfold bitIndex; omega

/-! ## Bytes -/

@[simp] theorem Memory.read_nil (i : Nat) : Memory.read [] i = none := rfl

theorem Memory.read_cons (k : Nat) (v : Byte) (m : Memory) (i : Nat) :
    Memory.read ((k, v) :: m) i = if k = i then some v else Memory.read m i := rfl

theorem Memory.write_cons (k : Nat) (v : Byte) (m : Memory) (i : Nat) (w : Byte) :
    Memory.write ((k, v) :: m) i w = (k, if k = i then w else v) :: Memory.write m i w := by
  by_cases h : k = i <;> simp [Memory.write, h]

/-- Read after write, at every index: the byte written where the store has that byte, and every other byte as before. -/
theorem Memory.read_write (m : Memory) (i j : Nat) (v : Byte) :
    (m.write i v).read j = if j = i then (m.read i).map fun _ => v else m.read j := by
  induction m with
  | nil => by_cases h : j = i <;> simp [Memory.write, h]
  | cons c m ih =>
    obtain ⟨k, w⟩ := c
    rw [Memory.write_cons, Memory.read_cons, Memory.read_cons, Memory.read_cons, ih]
    by_cases hki : k = i <;> by_cases hkj : k = j <;> by_cases hji : j = i <;> simp_all

@[simp] theorem Memory.map_fst_write (m : Memory) (i : Nat) (v : Byte) :
    (m.write i v).map Prod.fst = m.map Prod.fst := by
  induction m with
  | nil => rfl
  | cons c m ih =>
    obtain ⟨k, w⟩ := c
    rw [Memory.write_cons, List.map_cons, List.map_cons, ih]

theorem Memory.read_isSome (m : Memory) (i : Nat) : (m.read i).isSome ↔ i ∈ m.map Prod.fst := by
  induction m with
  | nil => simp
  | cons c m ih =>
    obtain ⟨k, w⟩ := c
    rw [Memory.read_cons]
    by_cases h : k = i
    · simp [h]
    · rw [if_neg h, ih]
      simp only [List.map_cons, List.mem_cons]
      constructor
      · exact Or.inr
      · rintro (rfl | h')
        · exact absurd rfl h
        · exact h'

theorem Memory.read_wf {n : Nat} {m : Memory} (h : m.wf n) (i : Nat) : (m.read i).isSome ↔ i < 8 * n := by
  rw [Memory.read_isSome, h, List.mem_range]

theorem Memory.wf_write {n : Nat} {m : Memory} (h : m.wf n) (i : Nat) (v : Byte) : (m.write i v).wf n := by
  unfold Memory.wf at *
  rw [Memory.map_fst_write, h]

theorem Memory.wf_atReset (n : Nat) : (Memory.atReset n).wf n := by
  unfold Memory.wf Memory.atReset
  rw [List.map_map]
  exact List.map_id _

/-- Two stores of one size that hold the same bytes are the same data. -/
theorem Memory.ext_read {n : Nat} {m m' : Memory} (h : m.wf n) (h' : m'.wf n)
    (hr : ∀ i, m.read i = m'.read i) : m = m' := by
  have key : ∀ (l l' : Memory), l.map Prod.fst = l'.map Prod.fst → (l.map Prod.fst).Nodup →
      (∀ i, Memory.read l i = Memory.read l' i) → l = l' := by
    intro l
    induction l with
    | nil =>
      intro l' hl _ _
      exact (List.map_eq_nil_iff.1 hl.symm).symm
    | cons c l ih =>
      intro l' hl hn hr
      obtain ⟨k, v⟩ := c
      cases l' with
      | nil => simp at hl
      | cons c' l' =>
        obtain ⟨k', v'⟩ := c'
        simp only [List.map_cons, List.cons.injEq, List.nodup_cons] at hl hn
        obtain ⟨rfl, hl⟩ := hl
        have hv : v = v' := by simpa [Memory.read_cons] using hr k
        subst hv
        congr 1
        refine ih l' hl hn.2 fun i => ?_
        by_cases hi : k = i
        · subst hi
          have h1 : ¬ (Memory.read l k).isSome := fun h => hn.1 ((Memory.read_isSome l k).1 h)
          have h2 : ¬ (Memory.read l' k).isSome := fun h => hn.1 (hl ▸ (Memory.read_isSome l' k).1 h)
          simp only [Option.not_isSome_iff_eq_none] at h1 h2
          rw [h1, h2]
        · simpa [Memory.read_cons, hi] using hr i
  refine key m m' (h.trans h'.symm) ?_ hr
  rw [h]
  exact List.nodup_range

/-! ## Pixels -/

theorem byteIndex_lt {n : Nat} {x y : Int} (h : InBounds n x y) : byteIndex n x y < 8 * n := by
  unfold byteIndex
  obtain ⟨hx0, hx1, hy0, hy1⟩ := h
  have hq : x.toNat / 8 < n := by omega
  have hy : y.toNat ≤ 7 := by omega
  have := Nat.mul_le_mul_right n hy
  omega

/-- Two in-bounds pixels are the same bit of the same byte only if they are one pixel. -/
theorem pixel_place_inj {n : Nat} {x y x' y' : Int} (h : InBounds n x y) (h' : InBounds n x' y')
    (hb : byteIndex n x y = byteIndex n x' y') (hi : bitIndex x = bitIndex x') : x = x' ∧ y = y' := by
  unfold byteIndex at hb
  unfold bitIndex at hi
  obtain ⟨hx0, hx1, hy0, hy1⟩ := h
  obtain ⟨hx0', hx1', hy0', hy1'⟩ := h'
  have hq : x.toNat / 8 < n := by omega
  have hq' : x'.toNat / 8 < n := by omega
  have hn : 0 < n := by omega
  have hy : y.toNat = y'.toNat := by
    have h1 : (y.toNat * n + x.toNat / 8) / n = y.toNat := by
      rw [Nat.mul_comm, Nat.mul_add_div hn, Nat.div_eq_of_lt hq, Nat.add_zero]
    have h2 : (y'.toNat * n + x'.toNat / 8) / n = y'.toNat := by
      rw [Nat.mul_comm, Nat.mul_add_div hn, Nat.div_eq_of_lt hq', Nat.add_zero]
    rw [← h1, hb, h2]
  rw [hy] at hb
  omega

theorem Memory.pixel?_of_not_inBounds {n : Nat} {x y : Int} (h : ¬ InBounds n x y) (m : Memory) :
    m.pixel? n x y = none := if_neg h

theorem Memory.pixel?_isSome {n : Nat} {m : Memory} (hw : m.wf n) (x y : Int) :
    (m.pixel? n x y).isSome ↔ InBounds n x y := by
  unfold Memory.pixel?
  by_cases h : InBounds n x y
  · rw [if_pos h, Option.isSome_map]
    exact ⟨fun _ => h, fun _ => (Memory.read_wf hw _).2 (byteIndex_lt h)⟩
  · rw [if_neg h]
    exact ⟨fun h' => by simp at h', fun h' => absurd h' h⟩

/-- In a store of its size every in-bounds pixel has a value. -/
theorem Memory.pixel?_of_inBounds {n : Nat} {m : Memory} (hw : m.wf n) {x y : Int} (h : InBounds n x y) :
    ∃ b, m.pixel? n x y = some b := Option.isSome_iff_exists.1 ((Memory.pixel?_isSome hw x y).2 h)

theorem Memory.wf_setPixel {n : Nat} {m : Memory} (h : m.wf n) (x y : Int) (b : Bool) : (m.setPixel n x y b).wf n := by
  unfold Memory.setPixel
  split
  · exact Memory.wf_write h _ _
  · exact h

/-- `SetP` by byte: one byte changes, in one bit. -/
theorem Memory.read_setPixel (m : Memory) (n : Nat) (x y : Int) (b : Bool) (i : Nat) :
    (m.setPixel n x y b).read i =
      if i = byteIndex n x y then (m.read i).map fun v => putBit v (bitIndex x) b else m.read i := by
  unfold Memory.setPixel
  split
  next v hv =>
    rw [Memory.read_write]
    by_cases h : i = byteIndex n x y
    · subst h; simp [hv]
    · simp [h]
  next hv =>
    by_cases h : i = byteIndex n x y
    · subst h; simp [hv]
    · simp [h]

/-- `SetP` by pixel: that pixel takes the value, every other pixel is as before. -/
theorem Memory.pixel?_setPixel {n : Nat} {m : Memory} (hw : m.wf n) {x y : Int} (h : InBounds n x y) (b : Bool)
    (x' y' : Int) :
    (m.setPixel n x y b).pixel? n x' y' = if x' = x ∧ y' = y then some b else m.pixel? n x' y' := by
  by_cases h' : InBounds n x' y'
  · unfold Memory.pixel?
    rw [if_pos h', if_pos h', Memory.read_setPixel]
    by_cases hb : byteIndex n x' y' = byteIndex n x y
    · obtain ⟨v, hv⟩ := Option.isSome_iff_exists.1 ((Memory.read_wf hw _).2 (byteIndex_lt h))
      rw [hb, if_pos rfl, hv]
      simp only [Option.map_some, getLsbD_putBit _ _ _ (bitIndex_lt x)]
      by_cases hi : bitIndex x' = bitIndex x
      · have hxy := pixel_place_inj h' h hb hi
        rw [if_pos hi, if_pos hxy]
      · rw [if_neg hi, if_neg fun hxy => hi (by rw [hxy.1])]
    · rw [if_neg hb, if_neg fun hxy => hb (by rw [hxy.1, hxy.2])]
  · rw [Memory.pixel?_of_not_inBounds h', Memory.pixel?_of_not_inBounds h', if_neg fun hxy => h' (by rw [hxy.1, hxy.2]; exact h)]

/-- Two stores of one size that show the same pixels are the same data: every bit of every byte is a pixel. -/
theorem Memory.ext_pixel {n : Nat} {m m' : Memory} (h : m.wf n) (h' : m'.wf n)
    (hp : ∀ x y, InBounds n x y → m.pixel? n x y = m'.pixel? n x y) : m = m' := by
  refine Memory.ext_read h h' fun i => ?_
  by_cases hi : i < 8 * n
  · obtain ⟨v, hv⟩ := Option.isSome_iff_exists.1 ((Memory.read_wf h i).2 hi)
    obtain ⟨v', hv'⟩ := Option.isSome_iff_exists.1 ((Memory.read_wf h' i).2 hi)
    rw [hv, hv', Option.some.injEq]
    apply BitVec.eq_of_getLsbD_eq
    intro j hj
    have hn : 0 < n := by omega
    have hq := Nat.mod_lt i hn
    have hy : i / n < 8 := Nat.div_lt_of_lt_mul (by omega)
    have hm := Nat.mod_add_div i n
    rw [Nat.mul_comm] at hm
    generalize i / n = q at hy hm
    generalize i % n = r at hq hm
    have hb : InBounds n ((8 * r + (7 - j) : Nat) : Int) (q : Int) := by constructor <;> omega
    have hbi : byteIndex n ((8 * r + (7 - j) : Nat) : Int) (q : Int) = i := by
      unfold byteIndex
      rw [Int.toNat_natCast, Int.toNat_natCast]
      omega
    have hbit : bitIndex ((8 * r + (7 - j) : Nat) : Int) = j := by
      unfold bitIndex
      rw [Int.toNat_natCast]
      omega
    have := hp _ _ hb
    unfold Memory.pixel? at this
    rw [if_pos hb, if_pos hb, hbi, hbit, hv, hv'] at this
    simpa using this
  · rw [Option.not_isSome_iff_eq_none.1 fun hs => hi ((Memory.read_wf h i).1 hs),
      Option.not_isSome_iff_eq_none.1 fun hs => hi ((Memory.read_wf h' i).1 hs)]

theorem Memory.wf_plot {n : Nat} {m : Memory} (h : m.wf n) (x y : Int) (b : Bool) : (m.plot n x y b).wf n := by
  unfold Memory.plot
  split
  · exact Memory.wf_setPixel h x y b
  · exact h

theorem Memory.pixel?_plot {n : Nat} {m : Memory} (hw : m.wf n) (x y : Int) (b : Bool) (x' y' : Int) :
    (m.plot n x y b).pixel? n x' y' = if InBounds n x' y' ∧ x' = x ∧ y' = y then some b else m.pixel? n x' y' := by
  unfold Memory.plot
  by_cases h : InBounds n x y
  · rw [if_pos h, Memory.pixel?_setPixel hw h]
    by_cases hxy : x' = x ∧ y' = y
    · rw [if_pos hxy, if_pos ⟨by rw [hxy.1, hxy.2]; exact h, hxy⟩]
    · rw [if_neg hxy, if_neg fun h' => hxy h'.2]
  · rw [if_neg h, if_neg fun h' => h (by rw [← h'.2.1, ← h'.2.2]; exact h'.1)]

theorem Memory.wf_plotAll {n : Nat} (ps : List (Int × Int)) (b : Bool) {m : Memory} (h : m.wf n) :
    (m.plotAll n ps b).wf n := by
  unfold Memory.plotAll
  induction ps generalizing m with
  | nil => exact h
  | cons p ps ih => exact ih (Memory.wf_plot h _ _ _)

/-- A drawing primitive writes exactly the in-bounds pixels of its figure (rule R111). -/
theorem Memory.pixel?_plotAll {n : Nat} (ps : List (Int × Int)) (b : Bool) {m : Memory} (hw : m.wf n) (x y : Int) :
    (m.plotAll n ps b).pixel? n x y = if InBounds n x y ∧ (x, y) ∈ ps then some b else m.pixel? n x y := by
  unfold Memory.plotAll
  induction ps generalizing m with
  | nil => simp
  | cons p ps ih =>
    rw [List.foldl_cons, ih (Memory.wf_plot hw _ _ _), Memory.pixel?_plot hw]
    by_cases hb : InBounds n x y
    · by_cases hm : (x, y) ∈ ps
      · rw [if_pos ⟨hb, hm⟩, if_pos ⟨hb, List.mem_cons_of_mem _ hm⟩]
      · rw [if_neg fun h => hm h.2]
        by_cases hp : x = p.1 ∧ y = p.2
        · rw [if_pos ⟨hb, hp⟩, if_pos ⟨hb, List.mem_cons.2 (Or.inl (Prod.ext hp.1 hp.2))⟩]
        · rw [if_neg fun h => hp h.2, if_neg]
          rintro ⟨-, h⟩
          rcases List.mem_cons.1 h with h | h
          · exact hp ⟨congrArg Prod.fst h, congrArg Prod.snd h⟩
          · exact hm h
    · rw [if_neg fun h => hb h.1, if_neg fun h => hb h.1, if_neg fun h => hb h.1]

/-- A drawing primitive leaves alone every byte that holds no in-bounds pixel of its figure. -/
theorem Memory.read_plotAll_of_ne {n : Nat} (ps : List (Int × Int)) (b : Bool) (m : Memory) (i : Nat)
    (h : ∀ p ∈ ps, InBounds n p.1 p.2 → byteIndex n p.1 p.2 ≠ i) : (m.plotAll n ps b).read i = m.read i := by
  unfold Memory.plotAll
  induction ps generalizing m with
  | nil => rfl
  | cons p ps ih =>
    rw [List.foldl_cons, ih _ fun q hq => h q (List.mem_cons_of_mem _ hq)]
    unfold Memory.plot
    split
    next hb =>
      rw [Memory.read_setPixel, if_neg]
      rintro rfl
      exact h p List.mem_cons_self hb rfl
    next => rfl

theorem mem_rectPixels (x y w h px py : Int) :
    (px, py) ∈ rectPixels x y w h ↔ x ≤ px ∧ px < x + w ∧ y ≤ py ∧ py < y + h := by
  unfold rectPixels
  simp only [List.mem_flatMap, List.mem_map, List.mem_range, Prod.mk.injEq]
  constructor
  · rintro ⟨j, hj, i, hi, rfl, rfl⟩
    omega
  · rintro ⟨h1, h2, h3, h4⟩
    exact ⟨(py - y).toNat, by omega, (px - x).toNat, by omega, by omega, by omega⟩

theorem mem_storePixels (n : Nat) (x y : Int) : (x, y) ∈ storePixels n ↔ InBounds n x y := by
  unfold storePixels
  rw [mem_rectPixels]
  omega

theorem Memory.wf_fillRect {n : Nat} {m : Memory} (hm : m.wf n) (x y w h : Int) (b : Bool) :
    (m.fillRect n x y w h b).wf n := Memory.wf_plotAll _ _ hm

theorem Memory.pixel?_fillRect {n : Nat} {m : Memory} (hm : m.wf n) (x y w h : Int) (b : Bool) (px py : Int) :
    (m.fillRect n x y w h b).pixel? n px py =
      if InBounds n px py ∧ x ≤ px ∧ px < x + w ∧ y ≤ py ∧ py < y + h then some b else m.pixel? n px py := by
  unfold Memory.fillRect
  simp only [Memory.pixel?_plotAll _ _ hm, mem_rectPixels]

theorem Memory.wf_outline {n : Nat} {m : Memory} (hm : m.wf n) (x y w h : Int) (b : Bool) :
    (m.outline n x y w h b).wf n := by
  unfold Memory.outline
  split
  · exact Memory.wf_fillRect (Memory.wf_fillRect (Memory.wf_fillRect (Memory.wf_fillRect hm _ _ _ _ _) _ _ _ _ _) _ _ _ _ _) _ _ _ _ _
  · exact hm

/-! ## Bulk operations -/

theorem Memory.wf_foldl_write {n : Nat} (is : List Nat) (v : Byte) {m : Memory} (h : m.wf n) :
    (is.foldl (fun m i => Memory.write m i v) m).wf n := by
  induction is generalizing m with
  | nil => exact h
  | cons i is ih => exact ih (Memory.wf_write h _ _)

theorem Memory.wf_fillAll {n : Nat} {m : Memory} (h : m.wf n) (v : Byte) : (m.fillAll n v).wf n :=
  Memory.wf_foldl_write _ _ h

theorem Memory.read_foldl_write (is : List Nat) (v : Byte) (m : Memory) (j : Nat) :
    (is.foldl (fun m i => Memory.write m i v) m).read j = if j ∈ is then (m.read j).map fun _ => v else m.read j := by
  induction is generalizing m with
  | nil => simp
  | cons i is ih =>
    rw [List.foldl_cons, ih, Memory.read_write]
    by_cases hj : j ∈ is <;> by_cases hji : j = i <;> simp_all [Function.comp_def]

/-- `FILL` by byte: every byte of the store is the fill byte. -/
theorem Memory.read_fillAll {n : Nat} {m : Memory} (h : m.wf n) (v : Byte) (j : Nat) :
    (m.fillAll n v).read j = if j < 8 * n then some v else none := by
  unfold Memory.fillAll
  rw [Memory.read_foldl_write]
  by_cases hj : j < 8 * n
  · obtain ⟨w, hw⟩ := Option.isSome_iff_exists.1 ((Memory.read_wf h j).2 hj)
    simp [hj, hw]
  · have : m.read j = none := Option.not_isSome_iff_eq_none.1 fun h' => hj ((Memory.read_wf h j).1 h')
    simp [hj, this]

theorem Memory.pixel?_fillAll {n : Nat} {m : Memory} (h : m.wf n) (v : Bool) (x y : Int) :
    (m.fillAll n (fillByte v)).pixel? n x y = if InBounds n x y then some v else none := by
  unfold Memory.pixel?
  by_cases hb : InBounds n x y
  · rw [if_pos hb, if_pos hb, Memory.read_fillAll h, if_pos (byteIndex_lt hb)]
    have := bitIndex_lt x
    cases v
    · simp [fillByte]
    · simp only [fillByte, if_true, Option.map_some, Option.some.injEq]
      have h8 : ∀ i < 8, (0xFF#8).getLsbD i = true := by decide
      exact h8 _ this
  · rw [if_neg hb, if_neg hb]

/-- Setting a list of distinct in-bounds pixels, each to its own value. -/
theorem Memory.foldl_setPixel {n : Nat} (f : Int → Int → Bool) (ps : List (Int × Int)) {m : Memory} (hw : m.wf n)
    (hp : ∀ p ∈ ps, InBounds n p.1 p.2) :
    (ps.foldl (fun m p => m.setPixel n p.1 p.2 (f p.1 p.2)) m).wf n ∧
    ∀ x y, (ps.foldl (fun m p => m.setPixel n p.1 p.2 (f p.1 p.2)) m).pixel? n x y =
      if (x, y) ∈ ps then some (f x y) else m.pixel? n x y := by
  induction ps generalizing m with
  | nil => exact ⟨hw, fun x y => by simp⟩
  | cons p ps ih =>
    obtain ⟨h1, h2⟩ := ih (Memory.wf_setPixel hw p.1 p.2 (f p.1 p.2)) fun q hq => hp q (List.mem_cons_of_mem _ hq)
    refine ⟨h1, fun x y => ?_⟩
    rw [List.foldl_cons, h2, Memory.pixel?_setPixel hw (hp p List.mem_cons_self)]
    by_cases hm : (x, y) ∈ ps
    · rw [if_pos hm, if_pos (List.mem_cons_of_mem _ hm)]
    · rw [if_neg hm]
      by_cases hpx : x = p.1 ∧ y = p.2
      · rw [if_pos hpx, if_pos (List.mem_cons.2 (Or.inl (Prod.ext hpx.1 hpx.2))), hpx.1, hpx.2]
      · rw [if_neg hpx, if_neg]
        intro h
        rcases List.mem_cons.1 h with h | h
        · exact hpx ⟨congrArg Prod.fst h, congrArg Prod.snd h⟩
        · exact hm h

theorem Memory.wf_scroll {n : Nat} {m : Memory} (h : m.wf n) (dx dy : Int) : (m.scroll n dx dy).wf n :=
  (Memory.foldl_setPixel (fun x y => (m.pixel? n (x - dx) (y - dy)).getD false) (storePixels n) h
    fun p hp => (mem_storePixels n p.1 p.2).1 hp).1

/-- `SCROLL` by pixel (rule R110). -/
theorem Memory.pixel?_scroll {n : Nat} {m : Memory} (h : m.wf n) (dx dy x y : Int) :
    (m.scroll n dx dy).pixel? n x y =
      if InBounds n x y then some ((m.pixel? n (x - dx) (y - dy)).getD false) else none := by
  unfold Memory.scroll
  rw [(Memory.foldl_setPixel (fun x y => (m.pixel? n (x - dx) (y - dy)).getD false) (storePixels n) h
    fun p hp => (mem_storePixels n p.1 p.2).1 hp).2 x y]
  by_cases hb : InBounds n x y
  · rw [if_pos ((mem_storePixels n x y).2 hb), if_pos hb]
  · rw [if_neg fun h' => hb ((mem_storePixels n x y).1 h'), if_neg hb, Memory.pixel?_of_not_inBounds hb]

end Sys2Proof.Machine
end

