-- ==== Sys2Proof/Laws/Exec.lean ====
section
/-! SUPPORT. The rotation and its inverse, the row byte read through it, and what the shared endings of a meaning answer. -/

namespace Sys2Proof.Machine

/-! ## Endings -/

@[simp] theorem respond_eq (d : Byte) (s : State) : respond d s = .next (s.withReply (some (.response .ok d))) := rfl

@[simp] theorem raise_eq (st : Status) (s : State) : raise st s = .next (s.withReply (some (.response st 0x00#8))) := rfl

/-- Everything a driver register write can do. -/
theorem registerWrite_cases (code data : Byte) (s : State) :
    (validData code data = true ∧ ∃ t r, wirePair ⟨code, data⟩ s = (t, r) ∧
      registerWrite code data s = .next (t.withReply r.reply)) ∨
    (validData code data = false ∧ registerWrite code data s = .refused .dataOutsideTable) := by
  unfold registerWrite
  cases validData code data
  · exact .inr ⟨rfl, rfl⟩
  · exact .inl ⟨rfl, _, _, rfl, rfl⟩

/-- All fourteen driver register writes are one operation: `exec` writes the pair of the instruction. -/
theorem exec_of_pairOf {i : Instr} {p : WirePair} (h : pairOf i = some p) (s : State) :
    exec i s = registerWrite p.code p.data s := by
  cases i <;> cases h <;> rfl

/-- A driver register write is well-formed exactly when its data byte is one the register table lists. -/
theorem wf_of_pairOf {i : Instr} {p : WirePair} (h : pairOf i = some p) : i.wf = validData p.code p.data := by
  cases i <;> cases h <;> rfl

/-! ## The rotation -/

/-- The orientations a store of `n` modules can be read in: all four for one module, 0° and 180° for more (rule R135). -/
def Readable (n : Nat) (r : BitVec 2) : Prop := n > 1 → r = 0#2 ∨ r = 2#2

theorem rot_cases (r : BitVec 2) : r = 0#2 ∨ r = 1#2 ∨ r = 2#2 ∨ r = 3#2 := by
  revert r; decide

theorem rotate_unrotate (n : Nat) (r : BitVec 2) (u v : Int) :
    rotate n r (unrotate n r u v).1 (unrotate n r u v).2 = (u, v) := by
  obtain rfl | rfl | rfl | rfl := rot_cases r <;> simp [rotate, unrotate]

theorem unrotate_rotate (n : Nat) (r : BitVec 2) (x y : Int) :
    unrotate n r (rotate n r x y).1 (rotate n r x y).2 = (x, y) := by
  obtain rfl | rfl | rfl | rfl := rot_cases r <;> simp [rotate, unrotate]

theorem unrotate_inBounds {n : Nat} {r : BitVec 2} (hr : Readable n r) {u v : Int} (h : InBounds n u v) :
    InBounds n (unrotate n r u v).1 (unrotate n r u v).2 := by
  have hn : ∀ r', r = r' → r' ≠ 0#2 → r' ≠ 2#2 → n ≤ 1 := by
    intro r' hr' h0 h2
    by_contra hc
    rcases hr (by omega) with h | h
    · exact h0 (hr'.symm.trans h)
    · exact h2 (hr'.symm.trans h)
  obtain h' | h' | h' | h' := rot_cases r
  · subst h'; simp only [unrotate, if_true]; exact h
  · have := hn _ h' (by decide) (by decide)
    subst h'; simp [unrotate]; omega
  · subst h'; simp [unrotate]; omega
  · have := hn _ h' (by decide) (by decide)
    subst h'; simp [unrotate]; omega

theorem rotate_inBounds {n : Nat} {r : BitVec 2} (hr : Readable n r) {x y : Int} (h : InBounds n x y) :
    InBounds n (rotate n r x y).1 (rotate n r x y).2 := by
  have hn : ∀ r', r = r' → r' ≠ 0#2 → r' ≠ 2#2 → n ≤ 1 := by
    intro r' hr' h0 h2
    by_contra hc
    rcases hr (by omega) with h | h
    · exact h0 (hr'.symm.trans h)
    · exact h2 (hr'.symm.trans h)
  obtain h' | h' | h' | h' := rot_cases r
  · subst h'; simp only [rotate, if_true]; exact h
  · have := hn _ h' (by decide) (by decide)
    subst h'; simp [rotate]; omega
  · subst h'; simp [rotate]; omega
  · have := hn _ h' (by decide) (by decide)
    subst h'; simp [rotate]; omega

/-! ## The row byte -/

theorem foldlM_putBit (f : Nat → Option Bool) (is : List Nat) (his : is.Nodup) (hlt : ∀ i ∈ is, i < 8) (d : Byte)
    (hf : ∀ i ∈ is, (f i).isSome) :
    ∃ e, is.foldlM (fun d i => (f i).map fun b => putBit d (7 - i) b) d = some e ∧
      ∀ i < 8, if i ∈ is then f i = some (e.getLsbD (7 - i)) else e.getLsbD (7 - i) = d.getLsbD (7 - i) := by
  induction is generalizing d with
  | nil => exact ⟨d, rfl, fun i _ => by simp⟩
  | cons j is ih =>
    obtain ⟨b, hb⟩ := Option.isSome_iff_exists.1 (hf j List.mem_cons_self)
    have hj := (List.nodup_cons.1 his).1
    have hj8 := hlt j List.mem_cons_self
    obtain ⟨e, he, hbits⟩ := ih (List.nodup_cons.1 his).2 (fun i hi => hlt i (List.mem_cons_of_mem _ hi))
      (putBit d (7 - j) b) (fun i hi => hf i (List.mem_cons_of_mem _ hi))
    refine ⟨e, by rw [List.foldlM_cons, hb]; exact he, fun i hi => ?_⟩
    have h := hbits i hi
    by_cases hm : i ∈ is
    · rw [if_pos (List.mem_cons_of_mem _ hm)]
      rwa [if_pos hm] at h
    · rw [if_neg hm, getLsbD_putBit _ _ _ (by omega)] at h
      by_cases hij : i = j
      · subst hij
        rw [if_pos List.mem_cons_self, hb, h, if_pos rfl]
      · rw [if_neg fun h' => (List.mem_cons.1 h').elim hij hm, h, if_neg (by omega)]

/-- The row byte has a value wherever all its pixels have, and bit `7 − i` of it is pixel `8k + i` of the row. -/
theorem Memory.rowByte?_of {m : Memory} {n : Nat} {rot : BitVec 2} {y k : Int}
    (h : ∀ i : Nat, i < 8 → (m.image? n rot (8 * k + i) y).isSome) :
    ∃ d, m.rowByte? n rot y k = some d ∧ ∀ i : Nat, i < 8 → m.image? n rot (8 * k + i) y = some (d.getLsbD (7 - i)) := by
  obtain ⟨d, hd, hb⟩ := foldlM_putBit (fun i => m.image? n rot (8 * k + i) y) (List.range 8) List.nodup_range
    (fun i hi => List.mem_range.1 hi) 0#8 (fun i hi => h i (List.mem_range.1 hi))
  refine ⟨d, hd, fun i hi => ?_⟩
  have := hb i hi
  rwa [if_pos (List.mem_range.2 hi)] at this

/-- In a store of its size, in a readable orientation, every row byte of the transmitted image has a value. -/
theorem Memory.rowByte?_of_readable {m : Memory} {n : Nat} (hw : m.wf n) {rot : BitVec 2} (hr : Readable n rot)
    {y k : Int} (hy : 0 ≤ y ∧ y < 8) (hk : 0 ≤ k ∧ k < n) :
    ∃ d, m.rowByte? n rot y k = some d ∧ ∀ i : Nat, i < 8 → m.image? n rot (8 * k + i) y = some (d.getLsbD (7 - i)) := by
  refine Memory.rowByte?_of fun i hi => ?_
  exact (Memory.pixel?_isSome hw _ _).2 (unrotate_inBounds hr ⟨by omega, by omega, hy.1, hy.2⟩)

end Sys2Proof.Machine
end

