-- ==== Sys2Proof/Laws/Calls.lean ====
section
/-! SUPPORT. Running an expansion: what every command of it keeps, the whole keeps; two expansions one after the other; and
windows one after another whose writes all complete. -/

namespace Sys2Proof.Machine

/-- What every command of an expansion keeps, the expansion keeps. -/
theorem runCommands_keeps {P : State → Prop} {is : List Instr} {s t : State} {rs : List (Option Reply)}
    (h : runCommands is s = .next (t, rs)) (hs : P s)
    (hk : ∀ i ∈ is, ∀ u v, P u → exec i u = .next v → P v) : P t := by
  induction is generalizing s rs with
  | nil =>
    simp only [runCommands, Host.Outcome.next.injEq, Prod.mk.injEq] at h
    exact h.1 ▸ hs
  | cons i is ih =>
    unfold runCommands at h
    split at h
    · cases h
    · cases h
    next u hu =>
      split at h
      · cases h
      · cases h
      next v rs' hv =>
        obtain ⟨rfl, -⟩ := Prod.mk.injEq .. ▸ Host.Outcome.next.injEq .. ▸ h
        exact ih hv (hk i List.mem_cons_self s u hs hu) fun j hj => hk j (List.mem_cons_of_mem _ hj)

/-- Two expansions one after the other are one expansion. -/
theorem runCommands_append {is js : List Instr} {s t u : State} {rs qs : List (Option Reply)}
    (h : runCommands is s = .next (t, rs)) (h' : runCommands js t = .next (u, qs)) :
    runCommands (is ++ js) s = .next (u, rs ++ qs) := by
  induction is generalizing s rs with
  | nil =>
    simp only [runCommands, Host.Outcome.next.injEq, Prod.mk.injEq] at h
    obtain ⟨rfl, rfl⟩ := h
    exact h'
  | cons i is ih =>
    rw [List.cons_append]
    unfold runCommands at h ⊢
    split at h
    · cases h
    · cases h
    next v hv =>
      split at h
      · cases h
      · cases h
      next w rs' hw =>
        obtain ⟨rfl, rfl⟩ := Prod.mk.injEq .. ▸ Host.Outcome.next.injEq .. ▸ h
        simp only [ih hw]
        rfl

/-- Windows one after another whose writes all complete: every event of each is driven in order, every chip takes its pairs. -/
theorem sendWindows_completes (pss : List (List WirePair)) {s : State} (h : BusCompletes (pss.map List.length).sum s) :
    sendWindows pss s =
      (pss.foldl (fun t ps =>
        { t with
          select := .high, window := [], chips := latch t.chainOrder ps t.chips,
          sent := t.sent ++ windowEvents ps, bus := t.bus.drop ps.length }) s, .done) := by
  induction pss generalizing s with
  | nil => rfl
  | cons ps pss ih =>
    rw [List.map_cons, List.sum_cons] at h
    unfold sendWindows
    rw [sendWindow_completes ps fun o ho => h o (List.take_subset_take_left _ (by omega) ho)]
    simp only
    rw [ih, List.foldl_cons]
    intro o ho
    refine h o ?_
    have : (s.bus.take (ps.length + (pss.map List.length).sum)).drop ps.length =
        (s.bus.drop ps.length).take (pss.map List.length).sum := by
      rw [List.drop_take]; congr 1; omega
    exact List.mem_of_mem_drop (this ▸ ho)

end Sys2Proof.Machine
end

