-- ==== Sys2Proof/Laws/Encoding.lean ====
section
/-! SUPPORT. A command word is its seven fields, a wire pair its two bytes; the match and mask test of a row read field by
field; and the field a row's operand comes from. -/

namespace Sys2Proof

/-! ## The fields of a command word -/

/-- The word with the given fields, `RSV` included. -/
def fieldsWord (op : BitVec 6) (v : BitVec 1) (r : BitVec 9) (a b c d : BitVec 12) : BitVec 64 :=
  op ++ v ++ r ++ a ++ b ++ c ++ d

theorem commandWord_eq (op : BitVec 6) (v : Bool) (a b c d : Int) :
    commandWord op v a b c d =
      fieldsWord op (BitVec.ofBool v) 0#9 (BitVec.ofInt 12 a) (BitVec.ofInt 12 b) (BitVec.ofInt 12 c)
        (BitVec.ofInt 12 d) := rfl

theorem ofBool_getLsbD (w : BitVec 64) (i : Nat) : BitVec.ofBool (w.getLsbD i) = w.extractLsb' i 1 := by
  apply BitVec.eq_of_getLsbD_eq
  intro j hj
  obtain rfl : j = 0 := by omega
  simp

/-- Every command word is the concatenation of its fields. -/
theorem fieldsWord_of (w : BitVec 64) :
    fieldsWord (opField w) (BitVec.ofBool (vField w)) (rsvField w) (aField w) (bField w) (cField w) (dField w) = w := by
  unfold fieldsWord opField vField rsvField aField bField cField dField
  rw [ofBool_getLsbD]
  rw [BitVec.extractLsb'_append_extractLsb'_eq_extractLsb' (by rfl),
    BitVec.extractLsb'_append_extractLsb'_eq_extractLsb' (by rfl),
    BitVec.extractLsb'_append_extractLsb'_eq_extractLsb' (by rfl),
    BitVec.extractLsb'_append_extractLsb'_eq_extractLsb' (by rfl),
    BitVec.extractLsb'_append_extractLsb'_eq_extractLsb' (by rfl),
    BitVec.extractLsb'_append_extractLsb'_eq_extractLsb' (by rfl)]
  exact BitVec.extractLsb'_eq_self

section Fields
variable (op : BitVec 6) (v : BitVec 1) (r : BitVec 9) (a b c d : BitVec 12)

theorem append_inj_left' {m n : Nat} {x x' : BitVec m} {y y' : BitVec n} (h : x ++ y = x' ++ y') : x = x' ∧ y = y' := by
  constructor
  · have := congrArg (BitVec.extractLsb' n m) h
    rwa [BitVec.extractLsb'_append_eq_left, BitVec.extractLsb'_append_eq_left] at this
  · have := congrArg (BitVec.extractLsb' 0 n) h
    rwa [BitVec.extractLsb'_append_eq_right, BitVec.extractLsb'_append_eq_right] at this

/-- Two words are equal only field by field. -/
theorem fieldsWord_inj {op op' : BitVec 6} {v v' : BitVec 1} {r r' : BitVec 9} {a a' b b' c c' d d' : BitVec 12} :
    fieldsWord op v r a b c d = fieldsWord op' v' r' a' b' c' d' ↔
      op = op' ∧ v = v' ∧ r = r' ∧ a = a' ∧ b = b' ∧ c = c' ∧ d = d' := by
  constructor
  · intro h
    obtain ⟨h, hd⟩ := append_inj_left' h
    obtain ⟨h, hc⟩ := append_inj_left' h
    obtain ⟨h, hb⟩ := append_inj_left' h
    obtain ⟨h, ha⟩ := append_inj_left' h
    obtain ⟨h, hr⟩ := append_inj_left' h
    obtain ⟨hop, hv⟩ := append_inj_left' h
    exact ⟨hop, hv, hr, ha, hb, hc, hd⟩
  · rintro ⟨rfl, rfl, rfl, rfl, rfl, rfl, rfl⟩
    rfl

theorem fields_fieldsWord :
    opField (fieldsWord op v r a b c d) = op ∧ BitVec.ofBool (vField (fieldsWord op v r a b c d)) = v ∧
    rsvField (fieldsWord op v r a b c d) = r ∧ aField (fieldsWord op v r a b c d) = a ∧
    bField (fieldsWord op v r a b c d) = b ∧ cField (fieldsWord op v r a b c d) = c ∧
    dField (fieldsWord op v r a b c d) = d :=
  fieldsWord_inj.1 (fieldsWord_of _)

@[simp] theorem opField_fieldsWord : opField (fieldsWord op v r a b c d) = op := (fields_fieldsWord op v r a b c d).1
@[simp] theorem rsvField_fieldsWord : rsvField (fieldsWord op v r a b c d) = r := (fields_fieldsWord op v r a b c d).2.2.1
@[simp] theorem aField_fieldsWord : aField (fieldsWord op v r a b c d) = a := (fields_fieldsWord op v r a b c d).2.2.2.1
@[simp] theorem bField_fieldsWord : bField (fieldsWord op v r a b c d) = b := (fields_fieldsWord op v r a b c d).2.2.2.2.1
@[simp] theorem cField_fieldsWord : cField (fieldsWord op v r a b c d) = c := (fields_fieldsWord op v r a b c d).2.2.2.2.2.1
@[simp] theorem dField_fieldsWord : dField (fieldsWord op v r a b c d) = d := (fields_fieldsWord op v r a b c d).2.2.2.2.2.2

@[simp] theorem vField_fieldsWord (v : Bool) : vField (fieldsWord op (BitVec.ofBool v) r a b c d) = v := by
  have h := (fields_fieldsWord op (BitVec.ofBool v) r a b c d).2.1
  revert h
  cases v <;> cases vField (fieldsWord op _ r a b c d) <;> decide

@[simp] theorem vField_fieldsWord_zero : vField (fieldsWord op 0#1 r a b c d) = false :=
  vField_fieldsWord op r a b c d false

@[simp] theorem vField_fieldsWord_one : vField (fieldsWord op 1#1 r a b c d) = true :=
  vField_fieldsWord op r a b c d true

end Fields

/-- A mask acts on each field. -/
theorem fieldsWord_and (op op' : BitVec 6) (v v' : BitVec 1) (r r' : BitVec 9) (a a' b b' c c' d d' : BitVec 12) :
    fieldsWord op v r a b c d &&& fieldsWord op' v' r' a' b' c' d' =
      fieldsWord (op &&& op') (v &&& v') (r &&& r') (a &&& a') (b &&& b') (c &&& c') (d &&& d') := by
  unfold fieldsWord
  refine BitVec.and_append.trans (congrArg (· ++ _) ?_)
  refine BitVec.and_append.trans (congrArg (· ++ _) ?_)
  refine BitVec.and_append.trans (congrArg (· ++ _) ?_)
  refine BitVec.and_append.trans (congrArg (· ++ _) ?_)
  refine BitVec.and_append.trans (congrArg (· ++ _) ?_)
  exact BitVec.and_append

/-- The test of a row whose mask and pattern are given by fields, field by field. -/
theorem masked_eq_iff (w : BitVec 64) {op op' : BitVec 6} {v v' : BitVec 1} {r r' : BitVec 9}
    {a a' b b' c c' d d' : BitVec 12} {mask pattern : BitVec 64} (hm : mask = fieldsWord op v r a b c d)
    (hp : pattern = fieldsWord op' v' r' a' b' c' d') :
    w &&& mask = pattern ↔
      opField w &&& op = op' ∧ BitVec.ofBool (vField w) &&& v = v' ∧ rsvField w &&& r = r' ∧ aField w &&& a = a' ∧
      bField w &&& b = b' ∧ cField w &&& c = c' ∧ dField w &&& d = d' := by
  rw [hm, hp]
  conv_lhs => rw [← fieldsWord_of w]
  rw [fieldsWord_and, fieldsWord_inj]

/-! ## Operands -/

/-- `sext_12` reads back what the assembler wrote (rule R62). -/
theorem sext12_ofInt {z : Int} (h : fitsOperand z = true) : sext12 (BitVec.ofInt 12 z) = z := by
  unfold fitsOperand at h
  simp only [Bool.and_eq_true, decide_eq_true_eq] at h
  unfold sext12
  rw [BitVec.toInt_ofInt, Int.bmod_eq_of_le (by omega) (by omega)]

theorem ofInt_sext12 (v : BitVec 12) : BitVec.ofInt 12 (sext12 v) = v := BitVec.ofInt_toInt

theorem fitsOperand_sext12 (v : BitVec 12) : fitsOperand (sext12 v) = true := by
  have h1 := BitVec.le_toInt v
  have h2 := BitVec.toInt_lt (x := v)
  unfold fitsOperand sext12
  simp only [Bool.and_eq_true, decide_eq_true_eq]
  norm_num at h1 h2
  omega

@[simp] theorem sext12_zero : sext12 0#12 = 0 := by decide

/-- The operands of an assembled word. -/
theorem operandsOf_commandWord (op : BitVec 6) (v : Bool) {a b c d : Int} (ha : fitsOperand a = true)
    (hb : fitsOperand b = true) (hc : fitsOperand c = true) (hd : fitsOperand d = true) :
    operandsOf (commandWord op v a b c d) = { v := v, a := a, b := b, c := c, d := d } := by
  rw [commandWord_eq]
  unfold operandsOf
  rw [vField_fieldsWord, aField_fieldsWord, bField_fieldsWord, cField_fieldsWord, dField_fieldsWord,
    sext12_ofInt ha, sext12_ofInt hb, sext12_ofInt hc, sext12_ofInt hd]

/-! ## The rows of rule R64, field by field -/

/-- The test of each row of `commandRows` on a word: its operation code, `RSV` zero, its unused fields zero. -/
theorem row_tests (w : BitVec 64) :
    (w &&& 0xFDFF000000FFFFFF#64 = 0x0400000000000000#64 ↔
      opField w = 0x01#6 ∧ rsvField w = 0#9 ∧ cField w = 0#12 ∧ dField w = 0#12) ∧
    (w &&& 0xFFFF000000FFFFFF#64 = 0x0800000000000000#64 ↔
      opField w = 0x02#6 ∧ vField w = false ∧ rsvField w = 0#9 ∧ cField w = 0#12 ∧ dField w = 0#12) ∧
    (w &&& 0xFDFFFFFFFFFFFFFF#64 = 0x0C00000000000000#64 ↔
      opField w = 0x03#6 ∧ rsvField w = 0#9 ∧ aField w = 0#12 ∧ bField w = 0#12 ∧ cField w = 0#12 ∧ dField w = 0#12) ∧
    (w &&& 0xFDFF000000000FFF#64 = 0x1000000000000000#64 ↔
      opField w = 0x04#6 ∧ rsvField w = 0#9 ∧ dField w = 0#12) ∧
    (w &&& 0xFDFF000000000FFF#64 = 0x1400000000000000#64 ↔
      opField w = 0x05#6 ∧ rsvField w = 0#9 ∧ dField w = 0#12) ∧
    (w &&& 0xFDFF000000000000#64 = 0x1800000000000000#64 ↔ opField w = 0x06#6 ∧ rsvField w = 0#9) ∧
    (w &&& 0xFDFF000000000000#64 = 0x1C00000000000000#64 ↔ opField w = 0x07#6 ∧ rsvField w = 0#9) ∧
    (w &&& 0xFDFF000000000000#64 = 0x2000000000000000#64 ↔ opField w = 0x08#6 ∧ rsvField w = 0#9) ∧
    (w &&& 0xFFFF000000FFFFFF#64 = 0x2400000000000000#64 ↔
      opField w = 0x09#6 ∧ vField w = false ∧ rsvField w = 0#9 ∧ cField w = 0#12 ∧ dField w = 0#12) ∧
    (w &&& 0xFFFF000FFFFFFFFF#64 = 0x2800000000000000#64 ↔
      opField w = 0x0A#6 ∧ vField w = false ∧ rsvField w = 0#9 ∧ bField w = 0#12 ∧ cField w = 0#12 ∧ dField w = 0#12) ∧
    (w &&& 0xFFFF000000FFFFFF#64 = 0x2C00000000000000#64 ↔
      opField w = 0x0B#6 ∧ vField w = false ∧ rsvField w = 0#9 ∧ cField w = 0#12 ∧ dField w = 0#12) := by
  have hop : ∀ x : BitVec 6, x &&& 0x3F#6 = x := fun x => BitVec.and_allOnes
  have hr : ∀ x : BitVec 9, x &&& 0x1FF#9 = x := fun x => BitVec.and_allOnes
  have hf : ∀ x : BitVec 12, x &&& 0xFFF#12 = x := fun x => BitVec.and_allOnes
  have hz : ∀ x : BitVec 12, x &&& 0#12 = 0#12 := fun x => BitVec.and_zero
  have hv : ∀ b : Bool, (BitVec.ofBool b &&& 1#1 = 0#1 ↔ b = false) := by decide
  have hv0 : ∀ b : Bool, BitVec.ofBool b &&& 0#1 = 0#1 := by decide
  refine ⟨?_, ?_, ?_, ?_, ?_, ?_, ?_, ?_, ?_, ?_, ?_⟩
  · rw [masked_eq_iff w (op := 0x3F#6) (v := 0#1) (r := 0x1FF#9) (a := 0#12) (b := 0#12) (c := 0xFFF#12) (d := 0xFFF#12)
      (op' := 0x01#6) (v' := 0#1) (r' := 0#9) (a' := 0#12) (b' := 0#12) (c' := 0#12) (d' := 0#12) (by decide) (by decide)]
    simp only [hop, hr, hf, hz, hv0, true_and]
  · rw [masked_eq_iff w (op := 0x3F#6) (v := 1#1) (r := 0x1FF#9) (a := 0#12) (b := 0#12) (c := 0xFFF#12) (d := 0xFFF#12)
      (op' := 0x02#6) (v' := 0#1) (r' := 0#9) (a' := 0#12) (b' := 0#12) (c' := 0#12) (d' := 0#12) (by decide) (by decide)]
    simp only [hop, hr, hf, hz, hv, true_and]
  · rw [masked_eq_iff w (op := 0x3F#6) (v := 0#1) (r := 0x1FF#9) (a := 0xFFF#12) (b := 0xFFF#12) (c := 0xFFF#12)
      (d := 0xFFF#12) (op' := 0x03#6) (v' := 0#1) (r' := 0#9) (a' := 0#12) (b' := 0#12) (c' := 0#12) (d' := 0#12)
      (by decide) (by decide)]
    simp only [hop, hr, hf, hv0, true_and]
  · rw [masked_eq_iff w (op := 0x3F#6) (v := 0#1) (r := 0x1FF#9) (a := 0#12) (b := 0#12) (c := 0#12) (d := 0xFFF#12)
      (op' := 0x04#6) (v' := 0#1) (r' := 0#9) (a' := 0#12) (b' := 0#12) (c' := 0#12) (d' := 0#12) (by decide) (by decide)]
    simp only [hop, hr, hf, hz, hv0, true_and]
  · rw [masked_eq_iff w (op := 0x3F#6) (v := 0#1) (r := 0x1FF#9) (a := 0#12) (b := 0#12) (c := 0#12) (d := 0xFFF#12)
      (op' := 0x05#6) (v' := 0#1) (r' := 0#9) (a' := 0#12) (b' := 0#12) (c' := 0#12) (d' := 0#12) (by decide) (by decide)]
    simp only [hop, hr, hf, hz, hv0, true_and]
  · rw [masked_eq_iff w (op := 0x3F#6) (v := 0#1) (r := 0x1FF#9) (a := 0#12) (b := 0#12) (c := 0#12) (d := 0#12)
      (op' := 0x06#6) (v' := 0#1) (r' := 0#9) (a' := 0#12) (b' := 0#12) (c' := 0#12) (d' := 0#12) (by decide) (by decide)]
    simp only [hop, hr, hz, hv0, true_and, and_true]
  · rw [masked_eq_iff w (op := 0x3F#6) (v := 0#1) (r := 0x1FF#9) (a := 0#12) (b := 0#12) (c := 0#12) (d := 0#12)
      (op' := 0x07#6) (v' := 0#1) (r' := 0#9) (a' := 0#12) (b' := 0#12) (c' := 0#12) (d' := 0#12) (by decide) (by decide)]
    simp only [hop, hr, hz, hv0, true_and, and_true]
  · rw [masked_eq_iff w (op := 0x3F#6) (v := 0#1) (r := 0x1FF#9) (a := 0#12) (b := 0#12) (c := 0#12) (d := 0#12)
      (op' := 0x08#6) (v' := 0#1) (r' := 0#9) (a' := 0#12) (b' := 0#12) (c' := 0#12) (d' := 0#12) (by decide) (by decide)]
    simp only [hop, hr, hz, hv0, true_and, and_true]
  · rw [masked_eq_iff w (op := 0x3F#6) (v := 1#1) (r := 0x1FF#9) (a := 0#12) (b := 0#12) (c := 0xFFF#12) (d := 0xFFF#12)
      (op' := 0x09#6) (v' := 0#1) (r' := 0#9) (a' := 0#12) (b' := 0#12) (c' := 0#12) (d' := 0#12) (by decide) (by decide)]
    simp only [hop, hr, hf, hz, hv, true_and]
  · rw [masked_eq_iff w (op := 0x3F#6) (v := 1#1) (r := 0x1FF#9) (a := 0#12) (b := 0xFFF#12) (c := 0xFFF#12)
      (d := 0xFFF#12) (op' := 0x0A#6) (v' := 0#1) (r' := 0#9) (a' := 0#12) (b' := 0#12) (c' := 0#12) (d' := 0#12)
      (by decide) (by decide)]
    simp only [hop, hr, hf, hz, hv, true_and]
  · rw [masked_eq_iff w (op := 0x3F#6) (v := 1#1) (r := 0x1FF#9) (a := 0#12) (b := 0#12) (c := 0xFFF#12) (d := 0xFFF#12)
      (op' := 0x0B#6) (v' := 0#1) (r' := 0#9) (a' := 0#12) (b' := 0#12) (c' := 0#12) (d' := 0#12) (by decide) (by decide)]
    simp only [hop, hr, hf, hz, hv, true_and]

/-! ## Wire pairs -/

@[simp] theorem codeByte_wireWord (c d : Byte) : codeByte (wireWord c d) = c :=
  BitVec.extractLsb'_append_eq_left

@[simp] theorem dataByte_wireWord (c d : Byte) : dataByte (wireWord c d) = d :=
  BitVec.extractLsb'_append_eq_right

theorem wireWord_of (w : BitVec 16) : wireWord (codeByte w) (dataByte w) = w := by
  unfold wireWord codeByte dataByte
  rw [BitVec.extractLsb'_append_extractLsb'_eq_extractLsb' (by rfl)]
  exact BitVec.extractLsb'_eq_self

/-- The test of a row of `wireRows`: the command byte is the code. -/
theorem wire_masked_eq_iff (w : BitVec 16) (code : Byte) : w &&& 0xFF00#16 = wireWord code 0#8 ↔ codeByte w = code := by
  have hm : (0xFF00#16 : BitVec 16) = wireWord 0xFF#8 0x00#8 := by decide
  have h8 : ∀ x : Byte, x &&& 0xFF#8 = x := fun x => BitVec.and_allOnes
  rw [hm]
  conv_lhs => rw [← wireWord_of w]
  unfold wireWord
  rw [BitVec.and_append, h8, BitVec.and_zero]
  exact ⟨fun h => (append_inj_left' h).1, fun h => by rw [h]⟩

end Sys2Proof
end

