-- ==== Sys2Proof/Laws/PerInstr.lean ====
section
/-! SUPPORT. The per-instruction family OwnRow: the word an instruction is encoded to meets the match and mask of that
instruction's own row of spec/opcode_table.json (rules R64 and R73). -/

namespace Sys2Proof.Laws.OwnRow

/-- An encoded word meets a row's match and mask. -/
def Meets (pattern mask : Nat) : Encoded → Prop
  | .cmd64 w => w &&& BitVec.ofNat 64 mask = BitVec.ofNat 64 pattern
  | .wire16 w => w &&& BitVec.ofNat 16 mask = BitVec.ofNat 16 pattern

/-- The instruction's word meets its own row, whatever its operands are. -/
def Statement : Instr → Prop
  | .setpx x y v => Meets 0x0400000000000000 0xFDFF000000FFFFFF (encode (.setpx x y v))
  | .getpx x y => Meets 0x0800000000000000 0xFFFF000000FFFFFF (encode (.getpx x y))
  | .fill v => Meets 0x0C00000000000000 0xFDFFFFFFFFFFFFFF (encode (.fill v))
  | .hline x y w v => Meets 0x1000000000000000 0xFDFF000000000FFF (encode (.hline x y w v))
  | .vline x y h v => Meets 0x1400000000000000 0xFDFF000000000FFF (encode (.vline x y h v))
  | .line x0 y0 x1 y1 v => Meets 0x1800000000000000 0xFDFF000000000000 (encode (.line x0 y0 x1 y1 v))
  | .rect x y w h v => Meets 0x1C00000000000000 0xFDFF000000000000 (encode (.rect x y w h v))
  | .fillrect x y w h v => Meets 0x2000000000000000 0xFDFF000000000000 (encode (.fillrect x y w h v))
  | .scroll dx dy => Meets 0x2400000000000000 0xFFFF000000FFFFFF (encode (.scroll dx dy))
  | .setrot deg => Meets 0x2800000000000000 0xFFFF000FFFFFFFFF (encode (.setrot deg))
  | .rdrow y m => Meets 0x2C00000000000000 0xFFFF000000FFFFFF (encode (.rdrow y m))
  | .noop d => Meets 0x0000 0xFF00 (encode (.noop d))
  | .digit0 d => Meets 0x0100 0xFF00 (encode (.digit0 d))
  | .digit1 d => Meets 0x0200 0xFF00 (encode (.digit1 d))
  | .digit2 d => Meets 0x0300 0xFF00 (encode (.digit2 d))
  | .digit3 d => Meets 0x0400 0xFF00 (encode (.digit3 d))
  | .digit4 d => Meets 0x0500 0xFF00 (encode (.digit4 d))
  | .digit5 d => Meets 0x0600 0xFF00 (encode (.digit5 d))
  | .digit6 d => Meets 0x0700 0xFF00 (encode (.digit6 d))
  | .digit7 d => Meets 0x0800 0xFF00 (encode (.digit7 d))
  | .decodeMode d => Meets 0x0900 0xFF00 (encode (.decodeMode d))
  | .intensity d => Meets 0x0A00 0xFF00 (encode (.intensity d))
  | .scanLimit d => Meets 0x0B00 0xFF00 (encode (.scanLimit d))
  | .shutdown d => Meets 0x0C00 0xFF00 (encode (.shutdown d))
  | .displayTest d => Meets 0x0F00 0xFF00 (encode (.displayTest d))

/-- A wire word meets the row of its command byte. -/
theorem meets_wire (code data : Byte) : wireWord code data &&& 0xFF00#16 = wireWord code 0#8 :=
  (wire_masked_eq_iff _ _).2 (codeByte_wireWord code data)

theorem setpx (x y : Int) (v : Bool) : Statement (.setpx x y v) :=
  (row_tests _).1.2 (by simp [commandWord_eq])

theorem getpx (x y : Int) : Statement (.getpx x y) :=
  (row_tests _).2.1.2 (by simp [commandWord_eq])

theorem fill (v : Bool) : Statement (.fill v) :=
  (row_tests _).2.2.1.2 (by simp [commandWord_eq])

theorem hline (x y w : Int) (v : Bool) : Statement (.hline x y w v) :=
  (row_tests _).2.2.2.1.2 (by simp [commandWord_eq])

theorem vline (x y h : Int) (v : Bool) : Statement (.vline x y h v) :=
  (row_tests _).2.2.2.2.1.2 (by simp [commandWord_eq])

theorem line (x0 y0 x1 y1 : Int) (v : Bool) : Statement (.line x0 y0 x1 y1 v) :=
  (row_tests _).2.2.2.2.2.1.2 (by simp [commandWord_eq])

theorem rect (x y w h : Int) (v : Bool) : Statement (.rect x y w h v) :=
  (row_tests _).2.2.2.2.2.2.1.2 (by simp [commandWord_eq])

theorem fillrect (x y w h : Int) (v : Bool) : Statement (.fillrect x y w h v) :=
  (row_tests _).2.2.2.2.2.2.2.1.2 (by simp [commandWord_eq])

theorem scroll (dx dy : Int) : Statement (.scroll dx dy) :=
  (row_tests _).2.2.2.2.2.2.2.2.1.2 (by simp [commandWord_eq])

theorem setrot (deg : Int) : Statement (.setrot deg) :=
  (row_tests _).2.2.2.2.2.2.2.2.2.1.2 (by simp [commandWord_eq])

theorem rdrow (y m : Int) : Statement (.rdrow y m) :=
  (row_tests _).2.2.2.2.2.2.2.2.2.2.2 (by simp [commandWord_eq])

theorem noop (d : Byte) : Statement (.noop d) := meets_wire 0x00#8 d

theorem digit0 (d : Byte) : Statement (.digit0 d) := meets_wire 0x01#8 d

theorem digit1 (d : Byte) : Statement (.digit1 d) := meets_wire 0x02#8 d

theorem digit2 (d : Byte) : Statement (.digit2 d) := meets_wire 0x03#8 d

theorem digit3 (d : Byte) : Statement (.digit3 d) := meets_wire 0x04#8 d

theorem digit4 (d : Byte) : Statement (.digit4 d) := meets_wire 0x05#8 d

theorem digit5 (d : Byte) : Statement (.digit5 d) := meets_wire 0x06#8 d

theorem digit6 (d : Byte) : Statement (.digit6 d) := meets_wire 0x07#8 d

theorem digit7 (d : Byte) : Statement (.digit7 d) := meets_wire 0x08#8 d

theorem decodeMode (d : Byte) : Statement (.decodeMode d) := meets_wire 0x09#8 d

theorem intensity (d : Byte) : Statement (.intensity d) := meets_wire 0x0A#8 d

theorem scanLimit (d : Byte) : Statement (.scanLimit d) := meets_wire 0x0B#8 d

theorem shutdown (d : Byte) : Statement (.shutdown d) := meets_wire 0x0C#8 d

theorem displayTest (d : Byte) : Statement (.displayTest d) := meets_wire 0x0F#8 d

end Sys2Proof.Laws.OwnRow
end

