-- ==== Sys2Proof/Tests/Slice0.lean ====
section
/-! SUPPORT. Tests: ill-formed instructions are refused, words written out from the spec's encodings decode, one step per
instruction on the spec's own vectors (spec/95 section 2, or the example of the rule named), and a witness that meets the
hypotheses of every statement that has any. -/

namespace Sys2Proof.Tests

open Sys2Proof Sys2Proof.Machine

/-! ## Small states -/

/-- A store with the given bytes. -/
def storeOf (bytes : List Byte) : Memory := bytes.zipIdx.map fun p => (p.2, p.1)

/-- A chip with every register zero. -/
def blankChip : Chip := ⟨0, 0, 0, 0, 0, 0, 0, 0, 0, 0, 0, 0, 0⟩

/-- A machine of one module, initialised, the store given. -/
def one (bytes : List Byte) : State :=
  { modules := 1, chainOrder := [0], fb := storeOf bytes, rot := 0#2, ctrl := .initialized, brightness := 0,
    select := .high, window := [], chips := [blankChip], hung := false, inputs := [], bus := [], reply := none,
    sent := [], freeDraws := 0 }

/-- A machine of two modules, the first pair of a window reaching physical module 1. -/
def two (bytes : List Byte) : State :=
  { one bytes with modules := 2, chainOrder := [1, 0], chips := [blankChip, blankChip] }

def zero8 : List Byte := List.replicate 8 0x00#8
def ones8 : List Byte := List.replicate 8 0xFF#8
def zero16 : List Byte := List.replicate 16 0x00#8

/-- The letter F of spec/95 section 2.10. -/
def letterF : List Byte := [0xF0#8, 0x80#8, 0x80#8, 0xE0#8, 0x80#8, 0x80#8, 0x80#8, 0x00#8]

/-- The status, the data byte and the store bytes after an instruction. -/
def after (i : Instr) (s : State) : Option (Option Reply × List Byte) :=
  match exec i s with
  | .next t => some (t.reply, t.fb.map Prod.snd)
  | .fault _ => none
  | .refused _ => none

/-- The reply, and a register of physical module `j`, after an instruction. -/
def registerAfter (i : Instr) (s : State) (j : Nat) (code : Byte) : Option (Option Reply × Option Byte) :=
  match exec i s with
  | .next t => some (t.reply, t.chipRegister j code)
  | .fault _ => none
  | .refused _ => none

/-- The outcome is a next state, and `p` holds of it. -/
def holds (o : Host.Outcome State Fault Refusal) (p : State → Bool) : Bool :=
  match o with
  | .next t => p t
  | .fault _ => false
  | .refused _ => false

/-- The reply and the pairs sent by a call. -/
def sentBy (c : HostCall) (s : State) : Option (Option Reply × List WirePair) :=
  match runCall c s with
  | .next t => some (t.reply, sentPairs t.sent)
  | .fault _ => none
  | .refused _ => none

/-- The store bytes after a call. -/
def storeAfter (c : HostCall) (s : State) : Option (List Byte) :=
  match runCall c s with
  | .next t => some (t.fb.map Prod.snd)
  | .fault _ => none
  | .refused _ => none

/-! ## Ill-formed instructions (rules R62, R70, R73, R175) -/

theorem test_wf_setpx : (Instr.setpx 2048 0 true).wf = false ∧ (Instr.setpx (-2049) 0 true).wf = false ∧ (Instr.setpx 0 2048 true).wf = false ∧ (Instr.setpx 0 (-2049) true).wf = false ∧
    (Instr.setpx 2047 2047 true).wf = true ∧ (Instr.setpx (-2048) (-2048) true).wf = true := by decide

theorem test_wf_getpx : (Instr.getpx 2048 0).wf = false ∧ (Instr.getpx (-2049) 0).wf = false ∧ (Instr.getpx 0 2048).wf = false ∧ (Instr.getpx 0 (-2049)).wf = false ∧
    (Instr.getpx 2047 2047).wf = true ∧ (Instr.getpx (-2048) (-2048)).wf = true := by decide

theorem test_wf_hline : (Instr.hline 2048 0 0 true).wf = false ∧ (Instr.hline (-2049) 0 0 true).wf = false ∧ (Instr.hline 0 2048 0 true).wf = false ∧ (Instr.hline 0 (-2049) 0 true).wf = false ∧ (Instr.hline 0 0 2048 true).wf = false ∧ (Instr.hline 0 0 (-2049) true).wf = false ∧
    (Instr.hline 2047 2047 2047 true).wf = true ∧ (Instr.hline (-2048) (-2048) (-2048) true).wf = true := by decide

theorem test_wf_vline : (Instr.vline 2048 0 0 true).wf = false ∧ (Instr.vline (-2049) 0 0 true).wf = false ∧ (Instr.vline 0 2048 0 true).wf = false ∧ (Instr.vline 0 (-2049) 0 true).wf = false ∧ (Instr.vline 0 0 2048 true).wf = false ∧ (Instr.vline 0 0 (-2049) true).wf = false ∧
    (Instr.vline 2047 2047 2047 true).wf = true ∧ (Instr.vline (-2048) (-2048) (-2048) true).wf = true := by decide

theorem test_wf_line : (Instr.line 2048 0 0 0 true).wf = false ∧ (Instr.line (-2049) 0 0 0 true).wf = false ∧ (Instr.line 0 2048 0 0 true).wf = false ∧ (Instr.line 0 (-2049) 0 0 true).wf = false ∧ (Instr.line 0 0 2048 0 true).wf = false ∧ (Instr.line 0 0 (-2049) 0 true).wf = false ∧ (Instr.line 0 0 0 2048 true).wf = false ∧ (Instr.line 0 0 0 (-2049) true).wf = false ∧
    (Instr.line 2047 2047 2047 2047 true).wf = true ∧ (Instr.line (-2048) (-2048) (-2048) (-2048) true).wf = true := by decide

theorem test_wf_rect : (Instr.rect 2048 0 0 0 true).wf = false ∧ (Instr.rect (-2049) 0 0 0 true).wf = false ∧ (Instr.rect 0 2048 0 0 true).wf = false ∧ (Instr.rect 0 (-2049) 0 0 true).wf = false ∧ (Instr.rect 0 0 2048 0 true).wf = false ∧ (Instr.rect 0 0 (-2049) 0 true).wf = false ∧ (Instr.rect 0 0 0 2048 true).wf = false ∧ (Instr.rect 0 0 0 (-2049) true).wf = false ∧
    (Instr.rect 2047 2047 2047 2047 true).wf = true ∧ (Instr.rect (-2048) (-2048) (-2048) (-2048) true).wf = true := by decide

theorem test_wf_fillrect : (Instr.fillrect 2048 0 0 0 true).wf = false ∧ (Instr.fillrect (-2049) 0 0 0 true).wf = false ∧ (Instr.fillrect 0 2048 0 0 true).wf = false ∧ (Instr.fillrect 0 (-2049) 0 0 true).wf = false ∧ (Instr.fillrect 0 0 2048 0 true).wf = false ∧ (Instr.fillrect 0 0 (-2049) 0 true).wf = false ∧ (Instr.fillrect 0 0 0 2048 true).wf = false ∧ (Instr.fillrect 0 0 0 (-2049) true).wf = false ∧
    (Instr.fillrect 2047 2047 2047 2047 true).wf = true ∧ (Instr.fillrect (-2048) (-2048) (-2048) (-2048) true).wf = true := by decide

theorem test_wf_scroll : (Instr.scroll 2048 0).wf = false ∧ (Instr.scroll (-2049) 0).wf = false ∧ (Instr.scroll 0 2048).wf = false ∧ (Instr.scroll 0 (-2049)).wf = false ∧
    (Instr.scroll 2047 2047).wf = true ∧ (Instr.scroll (-2048) (-2048)).wf = true := by decide

theorem test_wf_setrot : (Instr.setrot 2048).wf = false ∧ (Instr.setrot (-2049)).wf = false ∧
    (Instr.setrot 2047).wf = true ∧ (Instr.setrot (-2048)).wf = true := by decide

theorem test_wf_rdrow : (Instr.rdrow 2048 0).wf = false ∧ (Instr.rdrow (-2049) 0).wf = false ∧ (Instr.rdrow 0 2048).wf = false ∧ (Instr.rdrow 0 (-2049)).wf = false ∧
    (Instr.rdrow 2047 2047).wf = true ∧ (Instr.rdrow (-2048) (-2048)).wf = true := by decide

theorem test_wf_noop : (Instr.noop 1).wf = false ∧ (Instr.noop 0).wf = true := by decide

theorem test_wf_decodeMode : (Instr.decodeMode 1).wf = false ∧ (Instr.decodeMode 0).wf = true := by decide

theorem test_wf_intensity : (Instr.intensity 16).wf = false ∧ (Instr.intensity 15).wf = true := by decide

theorem test_wf_scanLimit : (Instr.scanLimit 8).wf = false ∧ (Instr.scanLimit 7).wf = true := by decide

theorem test_wf_shutdown : (Instr.shutdown 2).wf = false ∧ (Instr.shutdown 1).wf = true := by decide

theorem test_wf_displayTest : (Instr.displayTest 2).wf = false ∧ (Instr.displayTest 1).wf = true := by decide

/-- The row pattern is any byte, and `FILL` has no operand that could be ill-formed. -/
theorem test_wf_unchecked : (Instr.fill true).wf = true ∧ (Instr.digit0 0xFF).wf = true ∧ (Instr.digit1 0xFF).wf = true ∧
    (Instr.digit2 0xFF).wf = true ∧ (Instr.digit3 0xFF).wf = true ∧ (Instr.digit4 0xFF).wf = true ∧
    (Instr.digit5 0xFF).wf = true ∧ (Instr.digit6 0xFF).wf = true ∧ (Instr.digit7 0xFF).wf = true := by decide

/-! ## Decoding: one word for every constructor

The bits of a command word are written as `OP V RSV A B C D` (rules R61 and R63), those of a pair as `CMD DATA` (rule R72). -/

theorem test_decode_setpx : decodeTableWord 64
    0b000001_1_000000000_000000000011_000000000000_000000000000_000000000000 = some (.setpx 3 0 true) := by decide

theorem test_decode_getpx : decodeTableWord 64
    0b000010_0_000000000_000000000011_000000001000_000000000000_000000000000 = some (.getpx 3 8) := by decide

theorem test_decode_fill : decodeTableWord 64
    0b000011_1_000000000_000000000000_000000000000_000000000000_000000000000 = some (.fill true) := by decide

theorem test_decode_hline : decodeTableWord 64
    0b000100_1_000000000_000000000000_000000000000_111111111101_000000000000 = some (.hline 0 0 (-3) true) := by decide

theorem test_decode_vline : decodeTableWord 64
    0b000101_1_000000000_000000000000_111111111110_000000000100_000000000000 = some (.vline 0 (-2) 4 true) := by decide

theorem test_decode_line : decodeTableWord 64
    0b000110_1_000000000_111111111100_111111111100_000000001011_000000001011 = some (.line (-4) (-4) 11 11 true) := by decide

theorem test_decode_rect : decodeTableWord 64
    0b000111_1_000000000_111111111111_111111111111_000000001010_000000001010 = some (.rect (-1) (-1) 10 10 true) := by decide

theorem test_decode_fillrect : decodeTableWord 64
    0b001000_0_000000000_000000000001_000000000001_000000000110_000000000110 = some (.fillrect 1 1 6 6 false) := by decide

theorem test_decode_scroll : decodeTableWord 64
    0b001001_0_000000000_111111111110_111111111111_000000000000_000000000000 = some (.scroll (-2) (-1)) := by decide

theorem test_decode_setrot : decodeTableWord 64
    0b001010_0_000000000_000001011010_000000000000_000000000000_000000000000 = some (.setrot 90) := by decide

theorem test_decode_rdrow : decodeTableWord 64
    0b001011_0_000000000_000000000011_000000000000_000000000000_000000000000 = some (.rdrow 3 0) := by decide

theorem test_decode_noop : decodeTableWord 16 0b00000000_00000000 = some (.noop 0x00#8) := by decide

theorem test_decode_digit0 : decodeTableWord 16 0b00000001_10000000 = some (.digit0 0x80#8) := by decide

theorem test_decode_digit1 : decodeTableWord 16 0b00000010_00000001 = some (.digit1 0x01#8) := by decide

theorem test_decode_digit2 : decodeTableWord 16 0b00000011_01111110 = some (.digit2 0x7E#8) := by decide

theorem test_decode_digit3 : decodeTableWord 16 0b00000100_00000001 = some (.digit3 0x01#8) := by decide

theorem test_decode_digit4 : decodeTableWord 16 0b00000101_11111111 = some (.digit4 0xFF#8) := by decide

theorem test_decode_digit5 : decodeTableWord 16 0b00000110_00000000 = some (.digit5 0x00#8) := by decide

theorem test_decode_digit6 : decodeTableWord 16 0b00000111_10101010 = some (.digit6 0xAA#8) := by decide

theorem test_decode_digit7 : decodeTableWord 16 0b00001000_01010101 = some (.digit7 0x55#8) := by decide

theorem test_decode_decodeMode : decodeTableWord 16 0b00001001_00000000 = some (.decodeMode 0x00#8) := by decide

theorem test_decode_intensity : decodeTableWord 16 0b00001010_00001111 = some (.intensity 0x0F#8) := by decide

theorem test_decode_scanLimit : decodeTableWord 16 0b00001011_00000111 = some (.scanLimit 0x07#8) := by decide

theorem test_decode_shutdown : decodeTableWord 16 0b00001100_00000001 = some (.shutdown 0x01#8) := by decide

theorem test_decode_displayTest : decodeTableWord 16 0b00001111_00000000 = some (.displayTest 0x00#8) := by decide

/-- Spec/95 section 2.11: reserved codes, `RSV` set, unused fields set; and the wire codes the table does not list (rule R73). -/
theorem test_decode_rejects :
    decode (.cmd64 0x0000000000000000) = .rejected .illegalCommand ∧
    decode (.cmd64 0x3000000000000000) = .rejected .illegalCommand ∧
    decode (.cmd64 0xFC00000000000000) = .rejected .illegalCommand ∧
    decode (.cmd64 0x0401000000000000) = .rejected .illegalCommand ∧
    decode (.cmd64 0x0C00000000000001) = .rejected .illegalCommand ∧
    decode (.cmd64 0x0A00003000000000) = .rejected .illegalCommand ∧
    decode (.wire16 0x0D00) = .rejected .unknownRegister ∧ decode (.wire16 0x0E00) = .rejected .unknownRegister ∧
    decode (.wire16 0x1000) = .rejected .unknownRegister := by decide

/-- Bytes: a command word most significant byte first (rule R45), a pair command byte first (rule R72), nothing else. -/
theorem test_decode_bytes :
    decodeBytes [0x06#8, 0x00#8, 0x00#8, 0x30#8, 0x00#8, 0x00#8, 0x00#8, 0x00#8] = .ok (.setpx 3 0 true) ∧
    decodeBytes [0x0A#8, 0x0F#8] = .ok (.intensity 0x0F#8) ∧
    decodeBytes [] = .rejected .wrongLength ∧ decodeBytes [0x06#8] = .rejected .wrongLength := by decide

/-! ## One instruction on the spec's vectors (spec/95 section 2) -/

theorem test_setpx : after (.setpx 3 0 true) (one zero8) = some (some (.response .ok 0x00#8), [0x10#8, 0x00#8, 0x00#8, 0x00#8, 0x00#8, 0x00#8, 0x00#8, 0x00#8]) := by decide

theorem test_setpx_out_of_range : after (.setpx 8 0 true) (one zero8) = some (some (.response .outOfRange 0x00#8), zero8) := by decide

theorem test_getpx : after (.getpx 3 0) ({ one [0x10#8, 0, 0, 0, 0, 0, 0, 0] with rot := 1#2 }) = some (some (.response .ok 0x01#8), [0x10#8, 0x00#8, 0x00#8, 0x00#8, 0x00#8, 0x00#8, 0x00#8, 0x00#8]) := by decide

theorem test_getpx_out_of_range : after (.getpx 3 8) (one letterF) = some (some (.response .outOfRange 0x00#8), letterF) := by decide

theorem test_fill : after (.fill true) (one zero8) = some (some (.response .ok 0x00#8), ones8) := by decide

theorem test_fill_off : after (.fill false) (one ones8) = some (some (.response .ok 0x00#8), zero8) := by decide

theorem test_hline : after (.hline 6 1 5 true) (one zero8) = some (some (.response .ok 0x00#8), [0x00#8, 0x03#8, 0x00#8, 0x00#8, 0x00#8, 0x00#8, 0x00#8, 0x00#8]) := by decide

theorem test_hline_negative : after (.hline 0 0 (-3) true) (one zero8) = some (some (.response .ok 0x00#8), zero8) := by decide

theorem test_vline : after (.vline 0 (-2) 4 true) (one zero8) = some (some (.response .ok 0x00#8), [0x80#8, 0x80#8, 0x00#8, 0x00#8, 0x00#8, 0x00#8, 0x00#8, 0x00#8]) := by decide

theorem test_line : after (.line 0 0 7 3 true) (one zero8) = some (some (.response .ok 0x00#8), [0xC0#8, 0x30#8, 0x0C#8, 0x03#8, 0x00#8, 0x00#8, 0x00#8, 0x00#8]) := by decide

theorem test_line_back : after (.line 7 0 0 7 true) (one zero8) = some (some (.response .ok 0x00#8), [0x01#8, 0x02#8, 0x04#8, 0x08#8, 0x10#8, 0x20#8, 0x40#8, 0x80#8]) := by decide

theorem test_rect : after (.rect 1 1 4 3 true) (one zero8) = some (some (.response .ok 0x00#8), [0x00#8, 0x78#8, 0x48#8, 0x78#8, 0x00#8, 0x00#8, 0x00#8, 0x00#8]) := by decide

theorem test_rect_clipped : after (.rect 6 6 4 4 true) (one zero8) = some (some (.response .ok 0x00#8), [0x00#8, 0x00#8, 0x00#8, 0x00#8, 0x00#8, 0x00#8, 0x03#8, 0x02#8]) := by decide

theorem test_fillrect : after (.fillrect 1 1 6 6 false) (one ones8) = some (some (.response .ok 0x00#8), [0xFF#8, 0x81#8, 0x81#8, 0x81#8, 0x81#8, 0x81#8, 0x81#8, 0xFF#8]) := by decide

set_option maxRecDepth 4000 in
theorem test_scroll : after (.scroll (-2) (-1)) (one ones8) = some (some (.response .ok 0x00#8), [0xFC#8, 0xFC#8, 0xFC#8, 0xFC#8, 0xFC#8, 0xFC#8, 0xFC#8, 0x00#8]) := by decide

set_option maxRecDepth 4000 in
theorem test_scroll_down : after (.scroll 0 1) (one [0x81#8, 0, 0, 0, 0, 0, 0, 0x18#8]) = some (some (.response .ok 0x00#8), [0x00#8, 0x81#8, 0x00#8, 0x00#8, 0x00#8, 0x00#8, 0x00#8, 0x00#8]) := by decide

/-- Spec/95 section 2.8. -/
theorem test_setrot : holds (exec (.setrot 270) (one zero8))
    (fun t => t.rot = 3#2 && t.reply = some (.response .ok 0x00#8)) = true := by decide

theorem test_setrot_two_modules : holds (exec (.setrot 90) (two zero16))
    (fun t => t.rot = 0#2 && t.reply = some (.response .invalidConfiguration 0x00#8)) = true := by decide

theorem test_rdrow : after (.rdrow 0 0) ({ one letterF with rot := 1#2 }) = some (some (.response .ok 0x7F#8), letterF) := by decide

theorem test_rdrow_270 : after (.rdrow 7 0) ({ one letterF with rot := 3#2 }) = some (some (.response .ok 0xFE#8), letterF) := by decide

/-- Rules R172 and R173, for one module: the register named takes the data byte. -/
theorem test_noop : holds (exec (.noop 0) (one zero8)) (fun t =>
    t.chips = [blankChip] && t.reply = some (.call .ok) && sentPairs t.sent = [⟨0x00#8, 0x00#8⟩]) = true := by decide

theorem test_digit0 : registerAfter (.digit0 0x80#8) (one zero8) 0 0x01#8 =
    some (some (.call .ok), some 0x80#8) := by decide

theorem test_digit1 : registerAfter (.digit1 0x01#8) (one zero8) 0 0x02#8 =
    some (some (.call .ok), some 0x01#8) := by decide

theorem test_digit2 : registerAfter (.digit2 0x7E#8) (one zero8) 0 0x03#8 =
    some (some (.call .ok), some 0x7E#8) := by decide

theorem test_digit3 : registerAfter (.digit3 0x01#8) (one zero8) 0 0x04#8 =
    some (some (.call .ok), some 0x01#8) := by decide

theorem test_digit4 : registerAfter (.digit4 0xFF#8) (one zero8) 0 0x05#8 =
    some (some (.call .ok), some 0xFF#8) := by decide

theorem test_digit5 : registerAfter (.digit5 0x18#8) (one zero8) 0 0x06#8 =
    some (some (.call .ok), some 0x18#8) := by decide

theorem test_digit6 : registerAfter (.digit6 0xAA#8) (one zero8) 0 0x07#8 =
    some (some (.call .ok), some 0xAA#8) := by decide

theorem test_digit7 : registerAfter (.digit7 0x55#8) (one zero8) 0 0x08#8 =
    some (some (.call .ok), some 0x55#8) := by decide

theorem test_decodeMode : registerAfter (.decodeMode 0x00#8) (one zero8) 0 0x09#8 =
    some (some (.call .ok), some 0x00#8) := by decide

theorem test_intensity : registerAfter (.intensity 0x0F#8) (one zero8) 0 0x0A#8 =
    some (some (.call .ok), some 0x0F#8) := by decide

theorem test_scanLimit : registerAfter (.scanLimit 0x07#8) (one zero8) 0 0x0B#8 =
    some (some (.call .ok), some 0x07#8) := by decide

theorem test_shutdown : registerAfter (.shutdown 0x01#8) (one zero8) 0 0x0C#8 =
    some (some (.call .ok), some 0x01#8) := by decide

theorem test_displayTest : registerAfter (.displayTest 0x01#8) (one zero8) 0 0x0F#8 =
    some (some (.call .ok), some 0x01#8) := by decide

/-- Rule R173 with `CHAIN_ORDER` = 1, 0: the second pair closes the window, and reaches physical module 0. -/
theorem test_window_of_two : registerAfter (.digit0 0x01#8) { two zero16 with select := .low, window := [⟨0x01#8, 0x80#8⟩] }
    0 0x01#8 = some (some (.call .ok), some 0x01#8) ∧
    registerAfter (.digit0 0x01#8) { two zero16 with select := .low, window := [⟨0x01#8, 0x80#8⟩] }
    1 0x01#8 = some (some (.call .ok), some 0x80#8) := by decide

/-! ## Calls -/

/-- Rule R193. -/
theorem test_initialize : sentBy .initialise (two zero16) = some (some (.call .ok),
    [⟨0x0C#8, 0x00#8⟩, ⟨0x0C#8, 0x00#8⟩, ⟨0x0F#8, 0x00#8⟩, ⟨0x0F#8, 0x00#8⟩, ⟨0x0B#8, 0x07#8⟩, ⟨0x0B#8, 0x07#8⟩,
     ⟨0x09#8, 0x00#8⟩, ⟨0x09#8, 0x00#8⟩, ⟨0x0C#8, 0x01#8⟩, ⟨0x0C#8, 0x01#8⟩]) := by decide

/-- Spec/95 section 2.13. -/
theorem test_setBrightness : sentBy (.setBrightness 15) (one zero8) = some (some (.call .ok), [⟨0x0A#8, 0x0F#8⟩]) ∧
    sentBy (.setBrightness 16) (one zero8) = some (some (.call .outOfRange), []) ∧
    sentBy (.setBrightness (-1)) (one zero8) = some (some (.call .outOfRange), []) := by decide

/-- Rule R194. -/
theorem test_show : sentBy .showFrame { one [0x10#8, 0, 0, 0, 0, 0, 0, 0] with rot := 1#2 } = some (some (.call .ok),
    [⟨0x01#8, 0x00#8⟩, ⟨0x02#8, 0x00#8⟩, ⟨0x03#8, 0x00#8⟩, ⟨0x04#8, 0x01#8⟩, ⟨0x05#8, 0x00#8⟩, ⟨0x06#8, 0x00#8⟩,
     ⟨0x07#8, 0x00#8⟩, ⟨0x08#8, 0x00#8⟩]) := by decide

/-- Rule R151's example. -/
theorem test_loadMatrix : storeAfter (.loadMatrix [[.int 1, .int 0, .int 1], [.int 1, .int 1], []]) (one ones8) =
    some [0xA0#8, 0xC0#8, 0, 0, 0, 0, 0, 0] := by decide

/-- Rule R160. -/
theorem test_loadPattern : storeAfter (.loadPattern
    ['\n', ' ', ' ', '#', '.', '#', ' ', ' ', '\n', '\n', ' ', '#', '#', '\n', '#', 'x', '\n'] ['#'] ['.']) (one ones8) =
    some [0xA0#8, 0xC0#8, 0x80#8, 0, 0, 0, 0, 0] := by decide

/-- Rule R71: CLEAR is FILL 0. -/
theorem test_clear : storeAfter .clear (one ones8) = some zero8 := by decide

/-- Rule R70: operands in decimal or hexadecimal, the pixel value last, a comment, and an operand no word encodes. -/
theorem test_assembler :
    assembleLine ['V', 'L', 'I', 'N', 'E', ' ', '0', ',', ' ', '-', '2', ',', '0', 'x', '4', ',', ' ', '1', ' ', ';', 'a'] =
      .command (.vline 0 (-2) 4 true) ∧
    assembleLine ['S', 'E', 'T', 'R', 'O', 'T', ' ', '2', '0', '4', '8'] = .rejected ∧
    assembleLine ['F', 'I', 'L', 'L', ' ', '2'] = .rejected ∧ assembleLine [' ', ';', 'x'] = .nothing := by decide

/-! ## The step from reset -/

/-- A word presented after reset runs as the first instruction. -/
theorem test_step_runs_first_word :
    holds (step (State.reset.withFetchWord 64 0x0E00000000000000))
      (fun t => t.fb.map Prod.snd = ones8 && t.reply = some (.response .ok 0x00#8) && t.inputs = []) = true ∧
    holds (step (State.reset.withFetchWord 16 0x0A0F))
      (fun t => t.chipRegister 0 0x0A#8 = some 0x0F#8 && t.inputs = []) = true := by decide

/-! ## Witnesses: a state and operands that meet the hypotheses of each statement -/

/-- The store is in its form; used by every statement that asks for `Memory.wf`. -/
theorem test_premise_wf : Memory.wf (one zero8).modules (one zero8).fb ∧ Memory.wf (two zero16).modules (two zero16).fb := by
  decide

/-- The invariant, for one module in a quarter turn and for two with a window open. -/
theorem test_premise_inv : ({ one letterF with rot := 3#2 } : State).Inv ∧
    ({ two zero16 with rot := 2#2, select := .low, window := [⟨0x01#8, 0x80#8⟩] } : State).Inv := by decide

theorem test_premise_DecodeOfEncode : (Instr.setpx 2047 (-2048) true).wf = true ∧ (Instr.intensity 15).wf = true := by decide

theorem test_premise_EncodeOfDecode : decode (.cmd64 0x0600003000000000) = .ok (.setpx 3 0 true) ∧
    decode (.wire16 0x0AFF) = .ok (.intensity 0xFF#8) := by decide

theorem test_premise_RowsNeverOverlap :
    (0x0E00000000000000#64 &&& commandRows[2].mask = commandRows[2].pattern) ∧
    (0x0401#16 &&& wireRows[4].mask = wireRows[4].pattern) := by decide

theorem test_premise_IllegalWordsAnswered :
    (IllegalWord 0xFC00000000000000#64 ∧ ¬ IllegalWord 0x0E00000000000000#64) ∧
    ({ one zero8 with inputs := [.word (.cmd64 0xFC00000000000000#64)] } : State).hung = false :=
  ⟨⟨by unfold IllegalWord; decide, by unfold IllegalWord; decide⟩, rfl⟩

theorem test_premise_StepRunsDecodedInstruction :
    ({ one zero8 with inputs := [.word (.cmd64 0x0E00000000000000#64)] } : State).hung = false ∧
    decode (.cmd64 0x0E00000000000000#64) = .ok (.fill true) ∧
    decodeTableWord 64 0x0E00000000000000 = some (.fill true) := by decide

theorem test_premise_NothingHappensUnasked : (one zero8).inputs = [] ∧ ({ one zero8 with hung := true } : State).hung = true := by
  decide

/-- `Selects`: a word of each operation code. -/
theorem test_premise_Selects_codes : opField 0x0800003000000000#64 = 0x02#6 ∧ opField 0x0E00000000000000#64 = 0x03#6 ∧
    opField 0x1200000000FFD000#64 = 0x04#6 ∧ opField 0x1600000FFE004000#64 = 0x05#6 ∧
    opField 0x1A00FFCFFC00B00B#64 = 0x06#6 ∧ opField 0x1E00FFFFFF00A00A#64 = 0x07#6 ∧
    opField 0x2000001001006006#64 = 0x08#6 ∧ opField 0x2400FFEFFF000000#64 = 0x09#6 ∧
    opField 0x280005A000000000#64 = 0x0A#6 ∧ opField 0x2C00003000000000#64 = 0x0B#6 := by decide

/-- `Selects`: a word of the operation that meets its mask, and one that does not. -/
theorem test_premise_Selects : opField 0x0600003000000000#64 = 0x01#6 ∧
    0x0600003000000000#64 &&& 0xFDFF000000FFFFFF#64 = 0x0400000000000000#64 ∧
    opField 0x0600003000001000#64 = 0x01#6 ∧ 0x0600003000001000#64 &&& 0xFDFF000000FFFFFF#64 ≠ 0x0400000000000000#64 := by
  decide

/-- The two clauses of SETPX and GETPX meet at `x = 7` and `x = 8`. -/
theorem test_premise_SetpxWritesOnePixel : Memory.wf (one zero8).modules (one zero8).fb ∧
    InBounds (one zero8).modules 7 7 ∧ ¬ InBounds (one zero8).modules 8 7 ∧ ¬ InBounds (one zero8).modules (-1) 0 := by decide

theorem test_premise_LinePixelsShape : (linePixels 0 0 2 1)[0]? = some (0, 0) ∧ (linePixels 0 0 2 1)[1]? = some (1, 1) ∧
    ((1 : Int) - 0).natAbs ≤ ((2 : Int) - 0).natAbs ∧ (linePixels 0 0 1 2)[0]? = some (0, 0) ∧
    (linePixels 0 0 1 2)[1]? = some (1, 1) := by decide

/-- Both clauses of SCROLL: a source inside, and one outside. -/
theorem test_premise_ScrollShiftsImage : InBounds 1 7 0 ∧ InBounds 1 (7 - 7) (0 - 0) ∧ InBounds 1 6 0 ∧
    ¬ InBounds 1 (6 - 7) (0 - 0) := by decide

theorem test_premise_DrawingIgnoresRotation : isFrameBufferCommand (.fill true) = true ∧
    (∃ t, exec (.fill true) (one zero8) = .next t) := ⟨rfl, _, rfl⟩

theorem test_premise_QuarterTurnLaws : (3#2 : BitVec 2) ≠ 0#2 := by decide

theorem test_premise_RotationDomain : 1 ≤ 2 ∧ InBounds 2 15 7 ∧ ((1#2 : BitVec 2) = 1#2 ∧ 0 ≤ (7 : Int) ∧ (7 : Int) < 8 ∧
    0 ≤ (15 : Int) ∧ (15 : Int) < 8 * ((2 : Nat) : Int)) := by decide

/-- Each clause of SETROT: accepted with one module and with two, and both refusals. -/
theorem test_premise_SetrotWritesOrientation :
    (270 = 90 * ((3#2 : BitVec 2).toNat : Int) ∧ ¬ (one zero8).modules > 1) ∧
    (180 = 90 * ((2#2 : BitVec 2).toNat : Int) ∧ (two zero16).modules > 1) ∧
    ((two zero16).modules > 1 ∧ (90 : Int) = 90) ∧
    ((-90 : Int) ≠ 0 ∧ (-90 : Int) ≠ 90 ∧ (-90 : Int) ≠ 180 ∧ (-90 : Int) ≠ 270) := by decide

/-- Each clause of RDROW: the last row and module, and each side out of range. -/
theorem test_premise_RdrowAnswersImageRow : (two zero16).Inv ∧
    (0 ≤ (7 : Int) ∧ (7 : Int) < 8 ∧ 0 ≤ (1 : Int) ∧ (1 : Int) < ((two zero16).modules : Int)) ∧
    (8 : Int) ≥ 8 ∧ (-1 : Int) < 0 ∧ (2 : Int) ≥ ((two zero16).modules : Int) := by decide

theorem test_premise_RdrowBaselineIsStoredByte : (two zero16).Inv ∧ (two zero16).rot = 0#2 ∧ 7 < 8 ∧ 1 < (two zero16).modules := by
  decide

theorem test_premise_PaintedScratchIsImage : ({ one letterF with rot := 1#2 } : State).Inv ∧
    Memory.wf (one letterF).modules (storeOf ones8) ∧ InBounds 1 7 7 := by decide

theorem test_premise_CommandsTouchOnlyTheBlock : Instr.isCommand (.setrot 90) = true ∧ Instr.isCommand (.getpx 0 0) = true ∧
    isRead (.getpx 0 0) = true ∧ (one zero8).Inv ∧ (∃ t, exec (.setrot 90) (one zero8) = .next t) ∧
    (∃ t, exec (.getpx 0 0) (one zero8) = .next t) := by
  refine ⟨rfl, rfl, rfl, by decide, ⟨_, rfl⟩, ⟨_, rfl⟩⟩

theorem test_premise_ErrorWritesNothing :
    let s : State := { one zero8 with inputs := [.word (.cmd64 0x0600008000000000#64)] }
    s.hung = false ∧ holds (step s) (fun t => t.reply = some (.response .outOfRange 0x00#8)) = true ∧ Status.outOfRange ≠ Status.ok := by decide

theorem test_premise_StatusesOfEachCommand : Instr.isCommand (.setrot 45) = true ∧
    after (.setrot 45) (one zero8) = some (some (.response .invalidConfiguration 0x00#8), zero8) := by decide

theorem test_premise_ReadsAndIdempotentWrites : Memory.wf (one zero8).modules (one zero8).fb ∧
    Instr.isCommand (.line 0 0 7 3 true) = true ∧ (∃ t, exec (.line 0 0 7 3 true) (one zero8) = .next t) :=
  ⟨by decide, rfl, _, rfl⟩

/-- `N` at both ends of its range and just outside. -/
theorem test_premise_ConstructionGivesResetState : ¬ (1 ≤ 0 ∧ 0 ≤ 255) ∧ ¬ (1 ≤ 256 ∧ 256 ≤ 255) ∧
    (1 ≤ 1 ∧ 1 ≤ 255 ∧ [0].Perm (List.range 1)) ∧ (1 ≤ 255 ∧ 255 ≤ 255) := by decide

theorem test_premise_ConstructionGivesResetState_255 : (List.range 255).Perm (List.range 255) := List.Perm.refl _

theorem test_premise_InvariantKeptByEveryStep :
    let s : State := { two zero16 with inputs := [.word (.wire16 0x0180#16)] }
    s.Inv ∧ holds (step s) (fun t => t.window = [⟨0x01#8, 0x80#8⟩]) = true := by decide

/-- A state that meets the invariant and whose step is refused, for `InvariantExcludesFaults`. -/
theorem test_premise_InvariantExcludesFaults :
    let s : State := { one zero8 with inputs := [.word (.wire16 0x0901#16)] }
    s.Inv ∧ step s = .refused .dataOutsideTable := ⟨by decide, rfl⟩

theorem test_premise_WirePairJoinsWindow : pairOf (.digit7 0xFF#8) = some ⟨0x08#8, 0xFF#8⟩ ∧ (Instr.digit7 0xFF#8).wf = true ∧
    (two zero16).Inv ∧ BusCompletes 1 (two zero16) ∧ (two zero16).window.length + 1 < (two zero16).modules := by decide

theorem test_premise_WirePairCompletesWindow :
    let s : State := { two zero16 with select := .low, window := [⟨0x01#8, 0x80#8⟩], bus := [.completes] }
    pairOf (.digit7 0xFF#8) = some ⟨0x08#8, 0xFF#8⟩ ∧ (Instr.digit7 0xFF#8).wf = true ∧ s.Inv ∧ BusCompletes 1 s ∧
    s.window.length + 1 = s.modules ∧ s.chainOrder[1]? = some 0 ∧
    (s.window ++ [⟨0x08#8, 0xFF#8⟩])[1]? = some (⟨0x08#8, 0xFF#8⟩ : WirePair) := by decide

/-- One that writes a register, and the No-op. -/
theorem test_premise_SingleModuleRegisterWrite : pairOf (.displayTest 1) = some ⟨0x0F#8, 0x01#8⟩ ∧
    (Instr.displayTest 1).wf = true ∧ pairOf (.noop 0) = some ⟨0x00#8, 0x00#8⟩ ∧ (Instr.noop 0).wf = true ∧
    (one zero8).Inv ∧ (one zero8).modules = 1 ∧ BusCompletes 1 (one zero8) := by decide

theorem test_premise_NeverSentIsRefused : pairOf (.intensity 16) = some ⟨0x0A#8, 0x10#8⟩ ∧ validData 0x0A#8 0x10#8 = false ∧
    ({ one zero8 with inputs := [.word (.wire16 (0x10#8 ++ 0x00#8))] } : State).hung = false ∧ 16 ≤ (0x10#8).toNat := by decide

theorem test_premise_FailedBusWrite : (0x02#8 : Byte) ≠ 0x01#8 ∧ pairOf (.digit0 1) = some ⟨0x01#8, 0x01#8⟩ ∧ (Instr.digit0 1).wf = true ∧
    ({ one zero8 with bus := [.fails] } : State).bus = [.fails] := by decide

theorem test_premise_BlockedBusWriteNeverReturns : pairOf (.digit0 1) = some ⟨0x01#8, 0x01#8⟩ ∧ (Instr.digit0 1).wf = true ∧
    ({ one zero8 with bus := [.blocks] } : State).bus = [.blocks] := by decide

/-- The last write of each call that writes to the bus never returns. -/
theorem test_premise_BlockedBusWriteNeverReturns_calls :
    let s : State := { two zero16 with bus := List.replicate 9 .completes ++ [.blocks], inputs := [.call .initialise] }
    let t : State := { two zero16 with bus := [.completes, .blocks], inputs := [.call (.setBrightness 15)] }
    let u : State := { two zero16 with bus := List.replicate 15 .completes ++ [.blocks], inputs := [.call .showFrame] }
    (s.Inv ∧ s.hung = false ∧ 9 < busWrites s .initialise ∧ BusCompletes 9 s ∧ s.bus[9]? = some .blocks) ∧
    (t.Inv ∧ t.hung = false ∧ 1 < busWrites t (.setBrightness 15) ∧ BusCompletes 1 t ∧ t.bus[1]? = some .blocks) ∧
    (u.Inv ∧ u.hung = false ∧ 15 < busWrites u .showFrame ∧ BusCompletes 15 u ∧ u.bus[15]? = some .blocks) := by decide

theorem test_premise_InitializeSendsFiveWindows : (two zero16).Inv ∧
    BusCompletes (5 * (two zero16).modules) { two zero16 with bus := List.replicate 10 .completes ++ [.fails] } := by decide

/-- The last write of `initialize` fails. -/
theorem test_premise_FailedInitializeUninitializes :
    let s : State := { two zero16 with bus := List.replicate 9 .completes ++ [.fails] }
    9 < 5 * s.modules ∧ BusCompletes 9 s ∧ s.bus[9]? = some .fails := by decide

/-- Each clause of `setBrightness`, at the ends of its range. -/
theorem test_premise_SetBrightnessWritesIntensity : (-1 : Int) < 0 ∧ (16 : Int) > 15 ∧ (0 ≤ (15 : Int) ∧ (15 : Int) ≤ 15) ∧
    ({ one zero8 with ctrl := .uninitialized } : State).ctrl = .uninitialized ∧ (one zero8).ctrl ≠ .uninitialized ∧
    (one zero8).Inv ∧ BusCompletes (one zero8).modules (one zero8) := by decide

/-- The last write of `setBrightness` fails. -/
theorem test_premise_SetBrightnessWritesIntensity_fails :
    let s : State := { two zero16 with bus := [.completes, .fails] }
    s.Inv ∧ s.ctrl ≠ .uninitialized ∧ 1 < s.modules ∧ BusCompletes 1 s ∧ s.bus[1]? = some .fails := by decide

theorem test_premise_ShowTransmitsTheImage : (two zero16).Inv ∧ (two zero16).ctrl ≠ .uninitialized ∧
    BusCompletes (8 * (two zero16).modules) (two zero16) ∧ (two zero16).chainOrder[1]? = some 0 ∧
    ({ two zero16 with ctrl := .uninitialized } : State).ctrl = .uninitialized := by decide

theorem test_premise_TwoShowsSendTheSame :
    let s : State := { two zero16 with inputs := [.call .showFrame, .call .showFrame] }
    s.Inv ∧ s.hung = false ∧ s.ctrl ≠ .uninitialized ∧ BusCompletes (16 * s.modules) s := by decide

/-- A read, a call and an illegal word between two shows: they go on, and the second show can run. -/
theorem test_premise_TwoShowsSendTheSame_between :
    let between : List Input := [.word (.cmd64 0x0800003000000000#64), .call (.setBrightness 3), .word (.cmd64 0x0#64)]
    let s : State := { one zero8 with inputs := .call .showFrame :: (between ++ [.call .showFrame]) }
    let t : State := { one zero8 with inputs := between ++ [.call .showFrame] }
    s.Inv ∧ s.hung = false ∧ s.ctrl ≠ .uninitialized ∧ BusCompletes (8 * s.modules) s ∧
    (∀ x ∈ between, mayWriteBlock x = false) ∧
    ((stepsTo 3 t).map fun u => decide (u.hung = false ∧ u.ctrl ≠ .uninitialized ∧ u.bus = [] ∧
      u.inputs = [.call .showFrame])) = some true := by decide

/-- Row 0 has been written when the third write fails. -/
theorem test_premise_FailedShowKeepsWhatWasSent :
    let s : State := { two zero16 with bus := [.completes, .completes, .fails] }
    s.Inv ∧ s.ctrl ≠ .uninitialized ∧ 2 < 8 * s.modules ∧ BusCompletes 2 s ∧ s.bus[2]? = some .fails ∧
    (0 + 1) * s.modules ≤ 2 ∧ s.chainOrder[1]? = some 0 := by decide

theorem test_premise_SequencerSendsOnlyTheTable : (one zero8).sent = [] ∧
    sentBy (.setBrightness 15) (one zero8) = some (some (.call .ok), [⟨0x0A#8, 0x0F#8⟩]) := by decide

theorem test_premise_SequencerLeavesTheBlock : ∃ t, runCall .showFrame (one zero8) = .next t := ⟨_, rfl⟩

theorem test_premise_PseudoOperationsAddNoState : (∃ t, runCall .clear (one zero8) = .next t) ∧
    Memory.wf (one zero8).modules (one zero8).fb := ⟨⟨_, rfl⟩, by decide⟩

theorem test_premise_LoadPatternLightsOnChars : Memory.wf (one zero8).modules (one zero8).fb ∧ ([] : List Char).length ≠ 1 ∧
    ['#', '#'].length ≠ 1 := by decide

theorem test_premise_DumpAfterLoadRoundTrip : Memory.wf (one zero8).modules (one zero8).fb ∧
    (List.replicate 8 (List.replicate 8 true)).length = 8 ∧
    ∀ row ∈ List.replicate 8 (List.replicate 8 true), row.length = 8 * (one zero8).modules := by decide

theorem test_premise_ReadFrameReadsEveryRow : (two zero16).Inv ∧ 7 < 8 ∧ 1 < (two zero16).modules := by decide

theorem test_premise_AssembledLinesEncode : assembleLine ['F', 'I', 'L', 'L', ' ', '1'] = .command (.fill true) := by decide

/-- The form of a command, its last operand in hexadecimal: well-formed, with an operand just outside, and another pixel value. -/
theorem test_premise_AssembledLinesEncode_form :
    asmForm (.hline 0 (-3) 2047 true) = some (['H', 'L', 'I', 'N', 'E'], [0, -3, 2047], some true) ∧
    List.Forall₂ Spells [['0'], ['-', '3'], ['0', 'x', '7', 'f', 'f']] [0, -3, 2047] ∧
    (Instr.hline 0 (-3) 2047 true).wf = true ∧
    asmForm (.setrot 2048) = some (['S', 'E', 'T', 'R', 'O', 'T'], [2048], none) ∧
    List.Forall₂ Spells [['2', '0', '4', '8']] [2048] ∧ (Instr.setrot 2048).wf = false ∧
    (some true ≠ none ∧ (2 : Int) ≠ 0 ∧ (2 : Int) ≠ 1) := by
  refine ⟨rfl, .cons (.inl (by decide)) (.cons (.inl (by decide)) (.cons (.inr (by decide)) .nil)), by decide, rfl,
    .cons (.inl (by decide)) .nil, by decide, by decide⟩

end Sys2Proof.Tests
end

section
/-! PROOF. Construction meets the invariant (spec/00_scope.md, rules R10, R22, R32 and R33). -/

namespace Sys2Proof.Machine

/-- Construction is good for every module count in range and every chain order that names each module once; what the free
draws give the store, the chips and chip-select plays no part. -/
theorem State.inv_built {n : Nat} {order : List Nat} (hn : 1 ≤ n ∧ n ≤ 255) (ho : order.Perm (List.range n)) :
    (State.built n order).Inv := by
  have hrot : n > 1 → (0#2 : BitVec 2) = 0#2 ∨ (0#2 : BitVec 2) = 2#2 := fun _ => .inl rfl
  have hchips : ((List.range n).map Chip.atReset).length = n := by simp
  have hwindow : ([] : List WirePair).length < n := hn.1
  exact ⟨hn, ho, Memory.wf_atReset n, hrot, hchips, hwindow, fun hne => absurd rfl hne⟩

/-- Settles O32: reset is construction with one module, whose only chain order is `[0]` (log entry 1). -/
theorem resetMeetsInvariant : Obligations.ResetMeetsInvariant :=
  State.inv_built (by decide) (List.Perm.refl [0])

end Sys2Proof.Machine
end

section
/-! PROOF. What a step is, input by input, and that it runs the decoded instruction (spec/10 R21 and R25, spec/20 R47). -/

namespace Sys2Proof.Machine

/-! ## One word -/

/-- A row of spec/opcode_table.json reads a word as the decoder does. -/
theorem decodeTableWord_eq_some {nbits w : Nat} {i : Instr} :
    decodeTableWord nbits w = some i ↔ decode (encodedOfTable nbits w) = .ok i := by
  unfold decodeTableWord
  cases decode (encodedOfTable nbits w) <;> simp

theorem runWord_of_decode {e : Encoded} {i : Instr} (h : decode e = .ok i) (s : State) : runWord e s = exec i s := by
  simp [runWord, h]

/-- Everything a word can do. -/
theorem runWord_cases (e : Encoded) (s : State) :
    (∃ i, decode e = .ok i ∧ runWord e s = exec i s) ∨
    (decode e = .rejected .illegalCommand ∧ runWord e s = raise .illegalCommand s) ∨
    runWord e s = .refused .unknownRegister := by
  cases hd : decode e with
  | ok i => exact .inl ⟨i, rfl, runWord_of_decode hd s⟩
  | rejected err =>
    cases err with
    | illegalCommand => exact .inr (.inl ⟨rfl, by simp [runWord, hd]⟩)
    | unknownRegister => exact .inr (.inr (by simp [runWord, hd]))
    | wrongLength => exact .inr (.inr (by simp [runWord, hd]))

/-! ## One step -/

theorem step_of_hung {s : State} (h : s.hung = true) : step s = .next s := by
  simp [step, h]

theorem step_of_no_input {s : State} (h : s.inputs = []) : step s = .next s := by
  simp [step, h]

theorem step_of_word {s : State} (hh : s.hung = false) {e : Encoded} {rest : List Input} (hi : s.inputs = .word e :: rest) :
    step s = runWord e (s.taken rest) := by
  simp [step, hh, hi]

theorem step_of_call {s : State} (hh : s.hung = false) {c : HostCall} {rest : List Input} (hi : s.inputs = .call c :: rest) :
    step s = runCall c (s.taken rest) := by
  simp [step, hh, hi]

/-- Everything a step can do. -/
theorem step_cases (s : State) :
    step s = .next s ∨
    (∃ e rest, s.hung = false ∧ s.inputs = .word e :: rest ∧ step s = runWord e (s.taken rest)) ∨
    (∃ c rest, s.hung = false ∧ s.inputs = .call c :: rest ∧ step s = runCall c (s.taken rest)) := by
  cases hh : s.hung with
  | true => exact .inl (step_of_hung hh)
  | false =>
    cases hi : s.inputs with
    | nil => exact .inl (step_of_no_input hi)
    | cons x rest =>
      cases x with
      | word e => exact .inr (.inl ⟨e, rest, rfl, rfl, step_of_word hh hi⟩)
      | call c => exact .inr (.inr ⟨c, rest, rfl, rfl, step_of_call hh hi⟩)

/-- Settles O8: a step on a word runs what the word decodes to, and `withFetchWord` puts a decodable word first
(log entries 3 and 25). -/
theorem stepRunsDecodedInstruction : Obligations.StepRunsDecodedInstruction := by
  have onWord : ∀ (s : State) (e : Encoded) (rest : List Input) (i : Instr),
      s.hung = false → s.inputs = .word e :: rest → decode e = .ok i → step s = exec i (s.taken rest) :=
    fun s e rest i hh hi hd => (step_of_word hh hi).trans (runWord_of_decode hd _)
  exact ⟨onWord, fun s nbits w i hw =>
    onWord (s.withFetchWord nbits w) (encodedOfTable nbits w) s.inputs i rfl rfl (decodeTableWord_eq_some.1 hw)⟩

end Sys2Proof.Machine
end

section
/-! PROOF. What a command of the block can do, said once, and the access matrix that follows (spec/10 R25, R29 and R30). -/

namespace Sys2Proof.Machine

/-- Everything a command of the block can do: it draws, turns the orientation, answers a read, is answered an error, or, where
the state breaks the invariant, finds no byte to read. -/
inductive CommandOutcome (s : State) : Instr → Host.Outcome State Fault Refusal → Prop where
  /-- SETPX in bounds, FILL, the drawing primitives and SCROLL: the store keeps its form. -/
  | draws {i : Instr} (m : Memory) (hread : isRead i = false) (hrot : ∀ deg, i ≠ .setrot deg)
      (hwf : Memory.wf s.modules s.fb → Memory.wf s.modules m) :
      CommandOutcome s i (.next ((s.withFb m).withReply (some (.response .ok 0x00#8))))
  /-- SETROT accepted: no quarter turn with several modules (rule R135). -/
  | turns (deg : Int) (hdeg : IsOrientation deg) (hquarter : s.modules > 1 → ¬ IsQuarterTurn deg) :
      CommandOutcome s (.setrot deg) (.next ((s.withRot (orientationCode deg)).withReply (some (.response .ok 0x00#8))))
  /-- GETPX and RDROW in range. -/
  | answers {i : Instr} (d : Byte) (hread : isRead i = true) :
      CommandOutcome s i (.next (s.withReply (some (.response .ok d))))
  /-- Any error (rule R201). -/
  | errs {i : Instr} (st : Status) (hst : st ≠ .ok) : CommandOutcome s i (.next (s.withReply (some (.response st 0x00#8))))
  /-- GETPX and RDROW of a store of another size, or RDROW through an orientation that leaves the store. -/
  | faults {i : Instr} (hread : isRead i = true) (hbad : ¬ (Memory.wf s.modules s.fb ∧ Readable s.modules s.rot)) :
      CommandOutcome s i (.fault .outsideStore)

theorem execSetpx_outcome (x y : Int) (v : Bool) (s : State) :
    CommandOutcome s (.setpx x y v) (execSetpx x y v s) := by
  unfold execSetpx
  split
  · exact .draws _ rfl nofun fun h => Memory.wf_setPixel h x y v
  · exact .errs .outOfRange nofun

theorem execGetpx_outcome (x y : Int) (s : State) : CommandOutcome s (.getpx x y) (execGetpx x y s) := by
  unfold execGetpx
  split
  next hin =>
    split
    · exact .answers _ rfl
    next hnone =>
      refine .faults rfl fun hgood => ?_
      obtain ⟨b, hb⟩ := Memory.pixel?_of_inBounds hgood.1 hin
      exact absurd (hb.symm.trans hnone) nofun
  · exact .errs .outOfRange nofun

theorem execSetrot_outcome (deg : Int) (s : State) : CommandOutcome s (.setrot deg) (execSetrot deg s) := by
  unfold execSetrot
  split
  · exact .errs .invalidConfiguration nofun
  next hdeg =>
    split
    · exact .errs .invalidConfiguration nofun
    next hquarter => exact .turns deg (not_not.1 hdeg) fun hn hq => hquarter ⟨hn, hq⟩

theorem execRdrow_outcome (y m : Int) (s : State) : CommandOutcome s (.rdrow y m) (execRdrow y m s) := by
  unfold execRdrow
  split
  · exact .errs .outOfRange nofun
  next hin =>
    split
    · exact .answers _ rfl
    next hnone =>
      refine .faults rfl fun ⟨hwf, hrot⟩ => ?_
      obtain ⟨d, hd, -⟩ := Memory.rowByte?_of_readable (y := y) (k := m) hwf hrot (by omega) (by omega)
      exact absurd (hd.symm.trans hnone) nofun

theorem exec_command_outcome {i : Instr} (hi : i.isCommand = true) (s : State) : CommandOutcome s i (exec i s) := by
  cases i with
  | setpx x y v => exact execSetpx_outcome x y v s
  | getpx x y => exact execGetpx_outcome x y s
  | fill v => exact .draws _ rfl nofun fun h => Memory.wf_fillAll h _
  | hline x y w v => exact .draws _ rfl nofun fun h => Memory.wf_fillRect h x y w 1 v
  | vline x y h v => exact .draws _ rfl nofun fun hm => Memory.wf_fillRect hm x y 1 h v
  | line x0 y0 x1 y1 v => exact .draws _ rfl nofun fun h => Memory.wf_plotAll (linePixels x0 y0 x1 y1) v h
  | rect x y w h v => exact .draws _ rfl nofun fun hm => Memory.wf_outline hm x y w h v
  | fillrect x y w h v => exact .draws _ rfl nofun fun hm => Memory.wf_fillRect hm x y w h v
  | scroll dx dy => exact .draws _ rfl nofun fun h => Memory.wf_scroll h dx dy
  | setrot deg => exact execSetrot_outcome deg s
  | rdrow y m => exact execRdrow_outcome y m s
  | _ => cases hi

/-- Settles O27: each way a command can end writes only what the access matrix of rule R30 allows, and the one way that
answers nothing breaks the invariant. -/
theorem commandsTouchOnlyTheBlock : Obligations.CommandsTouchOnlyTheBlock := by
  constructor
  · intro i s t hi ht
    have h := exec_command_outcome hi s
    rw [ht] at h
    cases h with
    | draws m hread hrot =>
      refine ⟨rfl, fun hno => ?_, fun _ => rfl⟩
      obtain hr | ⟨deg, hdeg⟩ := hno
      · exact absurd (hr.symm.trans hread) nofun
      · exact absurd hdeg (hrot deg)
    | turns deg => exact ⟨rfl, fun _ => rfl, fun hno => absurd rfl (hno deg)⟩
    | answers | errs => exact ⟨rfl, fun _ => rfl, fun _ => rfl⟩
  · intro i s hi ⟨_, _, hwf, hrot, _⟩
    have h := exec_command_outcome hi s
    generalize exec i s = o at h
    cases h with
    | draws | turns | answers | errs => exact ⟨_, _, _, rfl, rfl⟩
    | faults _ hbad => exact absurd ⟨hwf, hrot⟩ hbad

end Sys2Proof.Machine
end

section
/-! PROOF. What every step keeps: the module count and the chain order from every state, the invariant from every state that
has it (spec/00 R10, spec/10 R22 to R24, spec/42 R135, spec/44 R171, R173 and R177). -/

namespace Sys2Proof.Machine

/-! ## What is kept from one state to a later one -/

/-- `t` has the parameters `s` has, and is good if `s` is. -/
structure Keeps (s t : State) : Prop where
  modules : t.modules = s.modules
  chainOrder : t.chainOrder = s.chainOrder
  inv : s.Inv → t.Inv

namespace Keeps
variable {s t u : State}

theorem refl (s : State) : Keeps s s := ⟨rfl, rfl, id⟩

theorem trans (h : Keeps s t) (h' : Keeps t u) : Keeps s u :=
  ⟨h'.modules.trans h.modules, h'.chainOrder.trans h.chainOrder, h'.inv ∘ h.inv⟩

/-! The invariant does not speak of the fields these updates write. -/

theorem withReply (h : Keeps s t) (r : Option Reply) : Keeps s (t.withReply r) := h.trans ⟨rfl, rfl, id⟩
theorem withCtrl (h : Keeps s t) (c : Controller) : Keeps s (t.withCtrl c) := h.trans ⟨rfl, rfl, id⟩
theorem withBrightness (h : Keeps s t) (b : Fin 16) : Keeps s (t.withBrightness b) := h.trans ⟨rfl, rfl, id⟩
theorem of_taken {rest : List Input} (h : Keeps (s.taken rest) t) : Keeps s t :=
  (⟨rfl, rfl, id⟩ : Keeps s (s.taken rest)).trans h

theorem withFb (h : Keeps s t) {m : Memory} (hm : Memory.wf t.modules t.fb → Memory.wf t.modules m) :
    Keeps s (t.withFb m) :=
  h.trans ⟨rfl, rfl, fun ⟨hn, ho, hwf, hrest⟩ => ⟨hn, ho, hm hwf, hrest⟩⟩

theorem withRot (h : Keeps s t) {r : BitVec 2} (hr : Readable t.modules r) : Keeps s (t.withRot r) :=
  h.trans ⟨rfl, rfl, fun ⟨hn, ho, hwf, _, hrest⟩ => ⟨hn, ho, hwf, hr, hrest⟩⟩

end Keeps

/-! ## Commands of the block -/

/-- An accepted orientation that is no quarter turn is held as 0 or 2. -/
theorem readable_orientationCode {n : Nat} {deg : Int} (hdeg : IsOrientation deg) (hquarter : n > 1 → ¬ IsQuarterTurn deg) :
    Readable n (orientationCode deg) := by
  intro hn
  have hno := hquarter hn
  obtain rfl | rfl | rfl | rfl := hdeg
  · exact .inl rfl
  · exact absurd (.inl rfl) hno
  · exact .inr rfl
  · exact absurd (.inr rfl) hno

theorem exec_command_keeps {i : Instr} (hi : i.isCommand = true) {s t : State} (ht : exec i s = .next t) : Keeps s t := by
  have h := exec_command_outcome hi s
  rw [ht] at h
  cases h with
  | draws m _ _ hwf => exact ((Keeps.refl s).withFb hwf).withReply _
  | turns deg hdeg hquarter => exact ((Keeps.refl s).withRot (readable_orientationCode hdeg hquarter)).withReply _
  | answers | errs => exact (Keeps.refl s).withReply _

/-! ## The bus

No bus operation writes the store or the orientation (`BusFrame`); what is left of the invariant is below. -/

/-- The part of the invariant that the bus works on: one chip per module, and an open window short of its `N` pairs with
chip-select low. -/
structure BusGood (s : State) : Prop where
  chips : s.chips.length = s.modules
  window : s.window.length < s.modules
  select : s.window ≠ [] → s.select = .low

theorem State.Inv.busGood {s : State} : s.Inv → BusGood s :=
  fun ⟨_, _, _, _, hchips, hwindow, hselect⟩ => ⟨hchips, hwindow, hselect⟩

theorem BusFrame.keeps {s t : State} (hf : BusFrame s t) (hg : BusGood s → BusGood t) : Keeps s t := by
  refine ⟨hf.modules, hf.chainOrder, fun hs => ?_⟩
  obtain ⟨hchips, hwindow, hselect⟩ := hg hs.busGood
  obtain ⟨hn, ho, hwf, hrot, -⟩ := hs
  rw [← hf.modules] at hn ho hwf hrot
  rw [← hf.chainOrder] at ho
  rw [← hf.fb] at hwf
  rw [← hf.rot] at hrot
  exact ⟨hn, ho, hwf, hrot, hchips, hwindow, hselect⟩

/-- A window is open, and `k` more pairs do not make it longer than `N`; it may hold none yet. -/
structure WindowOpen (k : Nat) (s : State) : Prop where
  pos : 0 < s.modules
  chips : s.chips.length = s.modules
  room : s.window.length + k ≤ s.modules
  select : s.select = .low

theorem BusGood.openWindow {s : State} (h : BusGood s) {k : Nat} (hk : k ≤ s.modules) : WindowOpen k s.openWindow :=
  ⟨Nat.zero_lt_of_lt h.window, h.chips, by simpa using hk, rfl⟩

/-- A pair presented on its own finds a window open, or opens one. -/
theorem BusGood.windowOpen {s : State} (h : BusGood s) : WindowOpen 1 (if s.window = [] then s.openWindow else s) := by
  split
  · exact h.openWindow (Nat.zero_lt_of_lt h.window)
  next hw => exact ⟨Nat.zero_lt_of_lt h.window, h.chips, h.window, h.select hw⟩

theorem WindowOpen.closeWindow {k : Nat} {s : State} (h : WindowOpen k s) : BusGood s.closeWindow :=
  ⟨by simp [h.chips], h.pos, nofun⟩

/-- One write into an open window with room for it: the pair takes its place, or the window is lost (the write failed) or
stays as it is (it never returned). -/
theorem WindowOpen.after_wireWrite {k : Nat} {p : WirePair} {s t : State} {r : BusResult} (hs : WindowOpen (k + 1) s)
    (h : wireWrite p s = (t, r)) : (r = .done ∧ WindowOpen k t) ∨ (r ≠ .done ∧ BusGood t) := by
  obtain ⟨hpos, hchips, hroom, hselect⟩ := hs
  obtain ⟨hr, -, rfl⟩ | ⟨rfl, -, rfl⟩ | ⟨rfl, -, rfl⟩ := wireWrite_cases h
  · exact .inl ⟨hr, hpos, hchips, by simp; omega, hselect⟩
  · exact .inr ⟨nofun, by simp [hchips], hpos, nofun⟩
  · exact .inr ⟨nofun, hchips, by simp; omega, fun _ => hselect⟩

/-- How the pairs of a window go out: the first write completes and the others follow, or the first is the last. -/
theorem sendPairs_cons_cases {p : WirePair} {ps : List WirePair} {s t : State} {r : BusResult}
    (h : sendPairs (p :: ps) s = (t, r)) :
    (∃ u, wireWrite p s = (u, .done) ∧ sendPairs ps u = (t, r)) ∨ (r ≠ .done ∧ wireWrite p s = (t, r)) := by
  unfold sendPairs at h
  split at h
  next u hw => exact .inl ⟨u, hw, h⟩
  next u hw => obtain ⟨rfl, rfl⟩ := Prod.mk.injEq .. ▸ h; exact .inr ⟨nofun, hw⟩
  next u hw => obtain ⟨rfl, rfl⟩ := Prod.mk.injEq .. ▸ h; exact .inr ⟨nofun, hw⟩

/-- How windows go out one after another: the first completes and the others follow, or the first is the last. -/
theorem sendWindows_cons_cases {ps : List WirePair} {pss : List (List WirePair)} {s t : State} {r : BusResult}
    (h : sendWindows (ps :: pss) s = (t, r)) :
    (∃ u, sendWindow ps s = (u, .done) ∧ sendWindows pss u = (t, r)) ∨ (r ≠ .done ∧ sendWindow ps s = (t, r)) := by
  unfold sendWindows at h
  split at h
  next u hw => exact .inl ⟨u, hw, h⟩
  next u hw => obtain ⟨rfl, rfl⟩ := Prod.mk.injEq .. ▸ h; exact .inr ⟨nofun, hw⟩
  next u hw => obtain ⟨rfl, rfl⟩ := Prod.mk.injEq .. ▸ h; exact .inr ⟨nofun, hw⟩

/-- How a pair goes out on its own: after one write the window is closed if that made it `N` pairs long. -/
theorem wirePair_cases {p : WirePair} {s t : State} {r : BusResult} (h : wirePair p s = (t, r)) :
    ∃ u, wireWrite p (if s.window = [] then s.openWindow else s) = (u, r) ∧
      t = if r = .done ∧ u.modules ≤ u.window.length then u.closeWindow else u := by
  unfold wirePair at h
  split at h
  all_goals
    next u hw =>
      obtain ⟨rfl, rfl⟩ := Prod.mk.injEq .. ▸ h
      exact ⟨u, hw, by simp⟩

theorem sendPairs_busGood {ps : List WirePair} {s t : State} {r : BusResult} (hs : WindowOpen ps.length s)
    (h : sendPairs ps s = (t, r)) : BusGood t := by
  induction ps generalizing s with
  | nil =>
    obtain ⟨rfl, -⟩ := Prod.mk.injEq .. ▸ h
    exact hs.closeWindow
  | cons p ps ih =>
    obtain ⟨u, hw, hps⟩ | ⟨hr, hw⟩ := sendPairs_cons_cases h
    · obtain ⟨-, hu⟩ | ⟨hr, -⟩ := hs.after_wireWrite hw
      · exact ih hu hps
      · exact absurd rfl hr
    · obtain ⟨hd, -⟩ | ⟨-, ht⟩ := hs.after_wireWrite hw
      · exact absurd hd hr
      · exact ht

theorem sendWindow_keeps {ps : List WirePair} {s t : State} {r : BusResult} (hl : ps.length ≤ s.modules)
    (h : sendWindow ps s = (t, r)) : Keeps s t :=
  (sendWindow_frame h).keeps fun hs => sendPairs_busGood (hs.openWindow hl) h

theorem sendWindows_keeps {pss : List (List WirePair)} {s t : State} {r : BusResult}
    (hl : ∀ ps ∈ pss, ps.length ≤ s.modules) (h : sendWindows pss s = (t, r)) : Keeps s t := by
  induction pss generalizing s with
  | nil =>
    obtain ⟨rfl, -⟩ := Prod.mk.injEq .. ▸ h
    exact Keeps.refl s
  | cons ps pss ih =>
    obtain ⟨hps, hpss⟩ := List.forall_mem_cons.1 hl
    obtain ⟨u, hw, hrest⟩ | ⟨-, hw⟩ := sendWindows_cons_cases h
    · have hu := sendWindow_keeps hps hw
      exact hu.trans (ih (hu.modules ▸ hpss) hrest)
    · exact sendWindow_keeps hps hw

theorem wirePair_keeps {p : WirePair} {s t : State} {r : BusResult} (h : wirePair p s = (t, r)) : Keeps s t := by
  refine (wirePair_frame h).keeps fun hs => ?_
  obtain ⟨u, hw, rfl⟩ := wirePair_cases h
  obtain ⟨rfl, hu⟩ | ⟨hr, hu⟩ := hs.windowOpen.after_wireWrite hw
  · split
    next hfull => exact hu.closeWindow
    next hshort => exact ⟨hu.chips, by simpa using hshort, fun _ => hu.select⟩
  · rw [if_neg fun hd => hr hd.1]
    exact hu

theorem registerWrite_keeps {code data : Byte} {s t : State} (h : registerWrite code data s = .next t) : Keeps s t := by
  obtain ⟨-, u, r, hw, ho⟩ | ⟨-, ho⟩ := registerWrite_cases code data s
  · cases ho.symm.trans h
    exact (wirePair_keeps hw).withReply _
  · cases ho.symm.trans h

/-! ## Every instruction, every call, every step -/

/-- An instruction is a command of the block or a driver register write. -/
theorem isCommand_or_pairOf (i : Instr) : i.isCommand = true ∨ ∃ p, pairOf i = some p := by
  cases i <;> simp [Instr.isCommand, pairOf]

theorem exec_keeps {i : Instr} {s t : State} (h : exec i s = .next t) : Keeps s t := by
  obtain hi | ⟨p, hp⟩ := isCommand_or_pairOf i
  · exact exec_command_keeps hi h
  · exact registerWrite_keeps (exec_of_pairOf hp s ▸ h)

theorem runExpansion_keeps {cmds : List Instr} {answer : List (Option Reply) → Reply} {s t : State}
    (h : runExpansion cmds answer s = .next t) : Keeps s t := by
  unfold runExpansion at h
  split at h
  · cases h
  · cases h
  next u rs hrun =>
    cases h
    exact (runCommands_keeps hrun (Keeps.refl s) fun _ _ _ _ hu hv => hu.trans (exec_keeps hv)).withReply _

theorem callLoadPattern_keeps {text onChar : List Char} {s t : State} (h : callLoadPattern text onChar s = .next t) :
    Keeps s t := by
  unfold callLoadPattern at h
  split at h
  · exact runExpansion_keeps h
  · cases h
    exact (Keeps.refl s).withReply _

theorem callInitialize_keeps (s : State) : Keeps s (callInitialize s) := by
  have hl : ∀ ps ∈ initializeWindows s.modules, ps.length ≤ s.modules := by
    simp [initializeWindows, configWindow]
  unfold callInitialize
  split
  next t hw => exact ((sendWindows_keeps hl hw).withCtrl _).withReply _
  next t hw => exact ((sendWindows_keeps hl hw).withCtrl _).withReply _
  next t hw => exact sendWindows_keeps hl hw

theorem callSetBrightness_keeps (level : Int) (s : State) : Keeps s (callSetBrightness level s) := by
  have hl : (configWindow s.modules regIntensity (BitVec.ofInt 8 level)).length ≤ s.modules := by simp [configWindow]
  unfold callSetBrightness
  split
  · exact (Keeps.refl s).withReply _
  split
  · exact (Keeps.refl s).withReply _
  split
  next t hw => exact ((sendWindow_keeps hl hw).withBrightness _).withReply _
  next t hw => exact (sendWindow_keeps hl hw).withReply _
  next t hw => exact sendWindow_keeps hl hw

theorem callSetRotation_keeps {degrees : Int} {s t : State} (h : callSetRotation degrees s = .next t) : Keeps s t := by
  unfold callSetRotation at h
  split at h
  next u hu =>
    cases h
    exact (exec_command_keeps (i := .setrot degrees) rfl hu).withReply _
  · cases h
  · cases h

theorem length_of_mapM_eq_some {α β : Type} {f : α → Option β} {l : List α} {r : List β} (h : l.mapM f = some r) :
    r.length = l.length := by
  induction l generalizing r with
  | nil => cases h; rfl
  | cons a l ih =>
    simp only [List.mapM_cons, Option.pure_def, Option.bind_eq_bind, Option.bind_eq_some_iff] at h
    obtain ⟨b, -, bs, hbs, h⟩ := h
    cases h
    rw [List.length_cons, List.length_cons, ih hbs]

/-- The window of a row holds one pair per module. -/
theorem length_rowWindow? {y : Nat} {s : State} {ps : List WirePair} (h : rowWindow? y s = some ps) :
    ps.length = s.modules :=
  (length_of_mapM_eq_some h).trans (by simp)

theorem scrambleRows_keeps (ys : List Nat) (s : State) : Keeps s (scrambleRows ys s) := by
  induction ys generalizing s with
  | nil => exact Keeps.refl s
  | cons y ys ih =>
    have hy : Keeps s (scrambleRows [y] s) := ⟨rfl, rfl, fun ⟨hn, ho, hwf, hrot, hchips, hwindow⟩ =>
      ⟨hn, ho, hwf, hrot, (length_scramble ..).trans hchips, hwindow⟩⟩
    exact hy.trans (ih _)

theorem showRows_keeps {ys : List Nat} {s t : State} (h : showRows ys s = .next t) : Keeps s t := by
  induction ys generalizing s with
  | nil =>
    cases h
    exact ((Keeps.refl s).withCtrl _).withReply _
  | cons y ys ih =>
    unfold showRows at h
    split at h
    · cases h
    next ps hps =>
      have hl := (length_rowWindow? hps).le
      split at h
      next u hw => exact (sendWindow_keeps hl hw).trans (ih h)
      next u hw =>
        cases h
        exact ((sendWindow_keeps hl hw).trans (scrambleRows_keeps ys u)).withReply _
      next u hw =>
        cases h
        exact sendWindow_keeps hl hw

theorem callShow_keeps {s t : State} (h : callShow s = .next t) : Keeps s t := by
  unfold callShow at h
  split at h
  · cases h
    exact (Keeps.refl s).withReply _
  · exact showRows_keeps h

theorem runCall_keeps {c : HostCall} {s t : State} (h : runCall c s = .next t) : Keeps s t := by
  unfold runCall at h
  cases c with
  | clear => exact runExpansion_keeps h
  | loadMatrix grid => exact runExpansion_keeps h
  | dumpMatrix => exact runExpansion_keeps h
  | loadPattern text onChar offChar => exact callLoadPattern_keeps h
  | readFrame => exact runExpansion_keeps h
  | initialise => cases h; exact callInitialize_keeps s
  | setBrightness level => cases h; exact callSetBrightness_keeps level s
  | setRotation degrees => exact callSetRotation_keeps h
  | showFrame => exact callShow_keeps h

theorem runWord_keeps {e : Encoded} {s t : State} (h : runWord e s = .next t) : Keeps s t := by
  obtain ⟨i, -, ho⟩ | ⟨-, ho⟩ | ho := runWord_cases e s
  · exact exec_keeps (ho ▸ h)
  · cases ho.symm.trans h
    exact (Keeps.refl s).withReply _
  · cases ho.symm.trans h

theorem step_keeps {s t : State} (h : step s = .next t) : Keeps s t := by
  obtain ho | ⟨e, rest, -, -, ho⟩ | ⟨c, rest, -, -, ho⟩ := step_cases s
  · cases ho.symm.trans h
    exact Keeps.refl s
  · exact (runWord_keeps (ho ▸ h)).of_taken
  · exact (runCall_keeps (ho ▸ h)).of_taken

/-- Settles O33; the window part is log entry 13's reading of a pair presented alone. -/
theorem invariantKeptByEveryStep : Obligations.InvariantKeptByEveryStep :=
  fun _ _ hs h => (step_keeps h).inv hs

/-- Settles O34: the parameters are kept from every state, good or not. -/
theorem parametersNeverChange : Obligations.ParametersNeverChange :=
  fun _ _ h => ⟨(step_keeps h).modules, (step_keeps h).chainOrder⟩

end Sys2Proof.Machine
end

section
/-! PROOF. The word of a well-formed instruction decodes to it, presented as a word or as bytes (spec/20 R45, spec/30 R61 to
R67, R72 and R73). -/

namespace Sys2Proof

/-! ## The row a word selects -/

/-- A search whose hits all have one key finds the only entry of that key. -/
theorem find?_eq_some_of_nodup_key {α β : Type} {l : List α} {key : α → β} (hkeys : (l.map key).Nodup) {p : α → Bool}
    {k : β} (hp : ∀ a ∈ l, p a = true → key a = k) {a : α} (ha : a ∈ l) (hpa : p a = true) : l.find? p = some a := by
  obtain ⟨b, hb⟩ := Option.isSome_iff_exists.1 (List.find?_isSome.2 ⟨a, ha, hpa⟩)
  have hbl := List.mem_of_find?_eq_some hb
  have hkey : key b = key a := (hp b hbl (List.find?_some hb)).trans (hp a ha hpa).symm
  rw [hb, List.inj_on_of_nodup_map hkeys hbl ha hkey]

/-- Every mask of rule R64 holds the whole operation code, so a word that selects a row has the row's operation code. -/
theorem opField_of_commandRow {r : CommandRow} (hr : r ∈ commandRows) {w : BitVec 64} (hw : w &&& r.mask = r.pattern) :
    opField w = opField r.pattern := by
  have hmask : ∀ r ∈ commandRows, opField r.mask = BitVec.allOnes 6 := by decide
  calc opField w = opField w &&& opField r.mask := by rw [hmask r hr, BitVec.and_allOnes]
    _ = opField (w &&& r.mask) := BitVec.extractLsb'_and.symm
    _ = opField r.pattern := by rw [hw]

theorem decodeCommand_of_row {r : CommandRow} (hr : r ∈ commandRows) {w : BitVec 64} (hw : w &&& r.mask = r.pattern) :
    decodeCommand w = some (r.build (operandsOf w)) := by
  have hkeys : (commandRows.map fun r => opField r.pattern).Nodup := by decide
  have hfind := find?_eq_some_of_nodup_key (p := fun r => w &&& r.mask == r.pattern) hkeys
    (fun _ hr' hw' => (opField_of_commandRow hr' (beq_iff_eq.1 hw')).symm) hr (beq_iff_eq.2 hw)
  simp only [decodeCommand, hfind, Option.map_some]

/-- Every mask of rule R73 is the command byte. -/
theorem codeByte_of_wireRow {r : WireRow} (hr : r ∈ wireRows) {w : BitVec 16} (hw : w &&& r.mask = r.pattern) :
    codeByte w = codeByte r.pattern := by
  have hmask : ∀ r ∈ wireRows, codeByte r.mask = BitVec.allOnes 8 := by decide
  calc codeByte w = codeByte w &&& codeByte r.mask := by rw [hmask r hr, BitVec.and_allOnes]
    _ = codeByte (w &&& r.mask) := BitVec.extractLsb'_and.symm
    _ = codeByte r.pattern := by rw [hw]

theorem decodeWire_of_row {r : WireRow} (hr : r ∈ wireRows) {w : BitVec 16} (hw : w &&& r.mask = r.pattern) :
    decodeWire w = some (r.build (dataByte w)) := by
  have hkeys : (wireRows.map fun r => codeByte r.pattern).Nodup := by decide
  have hfind := find?_eq_some_of_nodup_key (p := fun r => w &&& r.mask == r.pattern) hkeys
    (fun _ hr' hw' => (codeByte_of_wireRow hr' (beq_iff_eq.1 hw')).symm) hr (beq_iff_eq.2 hw)
  simp only [decodeWire, hfind, Option.map_some]

/-! ## The word of an instruction -/

/-- A command word assembled for row `k` decodes to what the row builds of its operands. -/
theorem decode_commandWord {k : Nat} {r : CommandRow} (hr : commandRows[k]? = some r) {op : BitVec 6} {v : Bool}
    {a b c d : Int} (hrow : commandWord op v a b c d &&& r.mask = r.pattern) (ha : fitsOperand a = true)
    (hb : fitsOperand b = true) (hc : fitsOperand c = true) (hd : fitsOperand d = true) :
    decode (.cmd64 (commandWord op v a b c d)) = .ok (r.build { v := v, a := a, b := b, c := c, d := d }) := by
  simp only [decode, decodeCommand_of_row (List.mem_of_getElem? hr) hrow, operandsOf_commandWord op v ha hb hc hd]

/-- A pair assembled for row `k` decodes to what the row builds of its data byte. -/
theorem decode_wireWord {k : Nat} {r : WireRow} (hr : wireRows[k]? = some r) {code data : Byte}
    (hrow : wireWord code data &&& r.mask = r.pattern) : decode (.wire16 (wireWord code data)) = .ok (r.build data) := by
  simp only [decode, decodeWire_of_row (List.mem_of_getElem? hr) hrow, dataByte_wireWord]

/-- Each instruction's word meets its own row of the table, and carries its operands there. -/
theorem decode_encode {i : Instr} (hi : i.wf = true) : decode (encode i) = .ok i := by
  have hzero : fitsOperand 0 = true := rfl
  cases i <;> simp only [Instr.wf, Bool.and_eq_true] at hi
  case setpx x y v => exact decode_commandWord (k := 0) rfl (Laws.OwnRow.setpx x y v) hi.1 hi.2 hzero hzero
  case getpx x y => exact decode_commandWord (k := 1) rfl (Laws.OwnRow.getpx x y) hi.1 hi.2 hzero hzero
  case fill v => exact decode_commandWord (k := 2) rfl (Laws.OwnRow.fill v) hzero hzero hzero hzero
  case hline x y w v =>
    obtain ⟨⟨hx, hy⟩, hw⟩ := hi
    exact decode_commandWord (k := 3) rfl (Laws.OwnRow.hline x y w v) hx hy hw hzero
  case vline x y h v =>
    obtain ⟨⟨hx, hy⟩, hh⟩ := hi
    exact decode_commandWord (k := 4) rfl (Laws.OwnRow.vline x y h v) hx hy hh hzero
  case line x0 y0 x1 y1 v =>
    obtain ⟨⟨⟨hx0, hy0⟩, hx1⟩, hy1⟩ := hi
    exact decode_commandWord (k := 5) rfl (Laws.OwnRow.line x0 y0 x1 y1 v) hx0 hy0 hx1 hy1
  case rect x y w h v =>
    obtain ⟨⟨⟨hx, hy⟩, hw⟩, hh⟩ := hi
    exact decode_commandWord (k := 6) rfl (Laws.OwnRow.rect x y w h v) hx hy hw hh
  case fillrect x y w h v =>
    obtain ⟨⟨⟨hx, hy⟩, hw⟩, hh⟩ := hi
    exact decode_commandWord (k := 7) rfl (Laws.OwnRow.fillrect x y w h v) hx hy hw hh
  case scroll dx dy => exact decode_commandWord (k := 8) rfl (Laws.OwnRow.scroll dx dy) hi.1 hi.2 hzero hzero
  case setrot deg => exact decode_commandWord (k := 9) rfl (Laws.OwnRow.setrot deg) hi hzero hzero hzero
  case rdrow y m => exact decode_commandWord (k := 10) rfl (Laws.OwnRow.rdrow y m) hi.1 hi.2 hzero hzero
  case noop d => exact decode_wireWord (k := 0) rfl (Laws.OwnRow.noop d)
  case digit0 d => exact decode_wireWord (k := 1) rfl (Laws.OwnRow.digit0 d)
  case digit1 d => exact decode_wireWord (k := 2) rfl (Laws.OwnRow.digit1 d)
  case digit2 d => exact decode_wireWord (k := 3) rfl (Laws.OwnRow.digit2 d)
  case digit3 d => exact decode_wireWord (k := 4) rfl (Laws.OwnRow.digit3 d)
  case digit4 d => exact decode_wireWord (k := 5) rfl (Laws.OwnRow.digit4 d)
  case digit5 d => exact decode_wireWord (k := 6) rfl (Laws.OwnRow.digit5 d)
  case digit6 d => exact decode_wireWord (k := 7) rfl (Laws.OwnRow.digit6 d)
  case digit7 d => exact decode_wireWord (k := 8) rfl (Laws.OwnRow.digit7 d)
  case decodeMode d => exact decode_wireWord (k := 9) rfl (Laws.OwnRow.decodeMode d)
  case intensity d => exact decode_wireWord (k := 10) rfl (Laws.OwnRow.intensity d)
  case scanLimit d => exact decode_wireWord (k := 11) rfl (Laws.OwnRow.scanLimit d)
  case shutdown d => exact decode_wireWord (k := 12) rfl (Laws.OwnRow.shutdown d)
  case displayTest d => exact decode_wireWord (k := 13) rfl (Laws.OwnRow.displayTest d)

/-! ## Its bytes -/

/-- Every command word is the concatenation of its bytes, bits 63:56 first. -/
theorem append_bytes (w : BitVec 64) :
    w.extractLsb' 56 8 ++ w.extractLsb' 48 8 ++ w.extractLsb' 40 8 ++ w.extractLsb' 32 8 ++ w.extractLsb' 24 8 ++
      w.extractLsb' 16 8 ++ w.extractLsb' 8 8 ++ w.extractLsb' 0 8 = w := by
  iterate 7 rw [BitVec.extractLsb'_append_extractLsb'_eq_extractLsb' (by rfl)]
  exact BitVec.extractLsb'_eq_self

theorem encodedOfBytes_bytes (e : Encoded) : encodedOfBytes e.bytes = some e := by
  cases e with
  | cmd64 w => exact congrArg (fun w => some (Encoded.cmd64 w)) (append_bytes w)
  | wire16 w => exact congrArg (fun w => some (Encoded.wire16 w)) (wireWord_of w)

theorem decodeBytes_bytes (e : Encoded) : decodeBytes e.bytes = decode e := by
  simp only [decodeBytes, encodedOfBytes_bytes]

/-- Settles O2: the bytes of a word are read back as that word, which decodes to its instruction. -/
theorem decodeOfEncodedBytes : Obligations.DecodeOfEncodedBytes :=
  fun i hi => (decodeBytes_bytes (encode i)).trans (decode_encode hi)

end Sys2Proof
end

section
/-! PROOF. A read repeats its answer, and every writing command but SCROLL issued again changes nothing (spec/20 R48). -/

namespace Sys2Proof.Machine

/-! ## Reads and errors -/

/-- No command of the block reads the reply of the one before it (rule R25). -/
theorem exec_withReply {i : Instr} (hi : i.isCommand = true) (s : State) (r : Option Reply) :
    exec i (s.withReply r) = exec i s := by
  cases i with
  | setpx | getpx | fill | hline | vline | line | rect | fillrect | scroll | setrot | rdrow => rfl
  | _ => cases hi

/-- A command that changed nothing but its reply answers the same again. -/
theorem exec_again_of_reply {i : Instr} (hi : i.isCommand = true) {s t : State} {r : Option Reply}
    (ht : exec i s = .next t) (hreply : t = s.withReply r) : exec i t = .next t :=
  calc exec i t = exec i s := hreply ▸ exec_withReply hi s r
    _ = .next t := ht

theorem exec_read_writes_reply {i : Instr} (hi : i.isCommand = true) (hread : isRead i = true) {s t : State}
    (ht : exec i s = .next t) : t = s.withReply t.reply := by
  have h := exec_command_outcome hi s
  rw [ht] at h
  cases h with
  | draws _ hno => exact absurd (hread.symm.trans hno) nofun
  | turns => cases hread
  | answers | errs => rfl

/-! ## Drawing -/

/-- On a store of `n` modules the command writes the store as `f` gives it and answers OK. -/
def DrawsBy (n : Nat) (i : Instr) (f : Memory → Memory) : Prop :=
  ∀ s : State, s.modules = n → exec i s = respond 0x00#8 (s.withFb (f s.fb))

theorem DrawsBy.again {i : Instr} {s t : State} {f : Memory → Memory} (hi : DrawsBy s.modules i f)
    (hf : f (f s.fb) = f s.fb) (ht : exec i s = .next t) : exec i t = .next t := by
  cases (hi s rfl).symm.trans ht
  calc exec i ((s.withFb (f s.fb)).withReply (some (.response .ok 0x00#8)))
    _ = respond 0x00#8 (s.withFb (f (f s.fb))) := hi _ rfl
    _ = respond 0x00#8 (s.withFb (f s.fb)) := by rw [hf]

theorem Memory.fillAll_fillAll {n : Nat} {m : Memory} (hm : m.wf n) (v : Byte) :
    (m.fillAll n v).fillAll n v = m.fillAll n v := by
  have hm' := Memory.wf_fillAll hm v
  refine Memory.ext_read (Memory.wf_fillAll hm' v) hm' fun j => ?_
  rw [Memory.read_fillAll hm', Memory.read_fillAll hm]

theorem Memory.plotAll_plotAll {n : Nat} {m : Memory} (hm : m.wf n) (ps : List (Int × Int)) (b : Bool) :
    (m.plotAll n ps b).plotAll n ps b = m.plotAll n ps b := by
  have hm' := Memory.wf_plotAll ps b hm
  refine Memory.ext_pixel (Memory.wf_plotAll ps b hm') hm' fun x y _ => ?_
  rw [Memory.pixel?_plotAll ps b hm', Memory.pixel?_plotAll ps b hm]
  split <;> rfl

/-- Setting one in-bounds pixel is drawing the figure of that pixel. -/
theorem Memory.plotAll_singleton {n : Nat} {x y : Int} (h : InBounds n x y) (m : Memory) (b : Bool) :
    m.plotAll n [(x, y)] b = m.setPixel n x y b := if_pos h

/-- The pixels of the four edges of rule R109, in its order; none for a rectangle without extent. -/
def outlinePixels (x y w h : Int) : List (Int × Int) :=
  if 1 ≤ w ∧ 1 ≤ h then
    rectPixels x y w 1 ++ rectPixels x (y + h - 1) w 1 ++ rectPixels x y 1 h ++ rectPixels (x + w - 1) y 1 h
  else []

/-- Four edges one after the other are one figure. -/
theorem Memory.plotAll_outlinePixels (m : Memory) (n : Nat) (x y w h : Int) (b : Bool) :
    m.plotAll n (outlinePixels x y w h) b = m.outline n x y w h b := by
  unfold outlinePixels Memory.outline
  split
  · simp only [Memory.fillRect, Memory.plotAll, List.foldl_append]
  · rfl

/-- A command that plots one figure in one value, issued again, plots what is already there. -/
theorem exec_again_of_figure {i : Instr} {s t : State} {ps : List (Int × Int)} {b : Bool}
    (hi : DrawsBy s.modules i fun m => m.plotAll s.modules ps b) (hs : Memory.wf s.modules s.fb)
    (ht : exec i s = .next t) : exec i t = .next t :=
  hi.again (Memory.plotAll_plotAll hs ps b) ht

theorem drawsBy_fill (n : Nat) (v : Bool) : DrawsBy n (.fill v) fun m => m.fillAll n (fillByte v) := by
  rintro s rfl
  rfl

theorem drawsBy_setpx {n : Nat} {x y : Int} (h : InBounds n x y) (v : Bool) :
    DrawsBy n (.setpx x y v) fun m => m.plotAll n [(x, y)] v := by
  rintro s rfl
  simp only [Memory.plotAll_singleton h]
  exact if_pos h

theorem drawsBy_rect (n : Nat) (x y w h : Int) (v : Bool) :
    DrawsBy n (.rect x y w h v) fun m => m.plotAll n (outlinePixels x y w h) v := by
  rintro s rfl
  simp only [Memory.plotAll_outlinePixels]
  rfl

/-! ## Turning -/

theorem execSetrot_accepted {deg : Int} {s : State} (hdeg : IsOrientation deg)
    (hquarter : s.modules > 1 → ¬ IsQuarterTurn deg) :
    execSetrot deg s = respond 0x00#8 (s.withRot (orientationCode deg)) := by
  unfold execSetrot
  rw [if_neg (not_not.2 hdeg), if_neg fun h => hquarter h.1 h.2]

theorem execSetrot_again {deg : Int} {s t : State} (ht : exec (.setrot deg) s = .next t) :
    exec (.setrot deg) t = .next t := by
  have h := exec_command_outcome (i := .setrot deg) rfl s
  rw [ht] at h
  cases h with
  | draws _ _ hrot => exact absurd rfl (hrot deg)
  | turns _ hdeg hquarter => exact execSetrot_accepted hdeg hquarter
  | answers | errs => exact exec_again_of_reply rfl ht rfl

/-! ## All of them -/

theorem exec_again {i : Instr} (hi : i.isCommand = true) (hscroll : ∀ dx dy, i ≠ .scroll dx dy) {s t : State}
    (hs : Memory.wf s.modules s.fb) (ht : exec i s = .next t) : exec i t = .next t := by
  cases i with
  | setpx x y v =>
    by_cases hin : InBounds s.modules x y
    · exact exec_again_of_figure (drawsBy_setpx hin v) hs ht
    · cases (if_neg hin : exec (.setpx x y v) s = raise .outOfRange s).symm.trans ht
      exact exec_again_of_reply rfl ht rfl
  | fill v => exact (drawsBy_fill s.modules v).again (Memory.fillAll_fillAll hs (fillByte v)) ht
  | hline x y w v => exact exec_again_of_figure (ps := rectPixels x y w 1) (b := v) (fun _ hu => hu ▸ rfl) hs ht
  | vline x y h v => exact exec_again_of_figure (ps := rectPixels x y 1 h) (b := v) (fun _ hu => hu ▸ rfl) hs ht
  | line x0 y0 x1 y1 v => exact exec_again_of_figure (ps := linePixels x0 y0 x1 y1) (b := v) (fun _ hu => hu ▸ rfl) hs ht
  | rect x y w h v => exact exec_again_of_figure (drawsBy_rect s.modules x y w h v) hs ht
  | fillrect x y w h v => exact exec_again_of_figure (ps := rectPixels x y w h) (b := v) (fun _ hu => hu ▸ rfl) hs ht
  | scroll dx dy => exact absurd rfl (hscroll dx dy)
  | setrot deg => exact execSetrot_again ht
  | getpx | rdrow => exact exec_again_of_reply rfl ht (exec_read_writes_reply rfl rfl ht)
  | _ => cases hi

/-- Settles O30: a read writes its reply only, and no command reads that; drawing a figure or turning a second time finds
what it writes already there. -/
theorem readsAndIdempotentWrites : Obligations.ReadsAndIdempotentWrites := by
  intro i s t hs hi ht
  refine ⟨fun hread => ?_, fun hscroll => exec_again hi hscroll hs ht⟩
  have hreply := exec_read_writes_reply hi hread ht
  exact ⟨hreply, exec_again_of_reply hi ht hreply⟩

end Sys2Proof.Machine
end

section
/-! PROOF. Each word has one meaning and each illegal word its answer: no two rows overlap, a decoded word is encoded back, a
command word selects no row exactly when it is illegal (spec/30 R61 to R67 and R69, spec/90 R205). -/

namespace Sys2Proof

/-- Settles O1: each instruction's word meets its own row of the table, and carries its operands there. -/
theorem decodeOfEncode : Obligations.DecodeOfEncode :=
  fun _ => decode_encode

/-! ## No two rows overlap -/

/-- Entries of one key are one entry, where no key comes twice. -/
theorem index_eq_of_nodup_key {α β : Type} {l : List α} {key : α → β} (hkeys : (l.map key).Nodup) {j k : Fin l.length}
    (h : key l[j] = key l[k]) : j = k := by
  have hj : (j : Nat) < (l.map key).length := by simp
  have hk : (k : Nat) < (l.map key).length := by simp
  have hjk : (l.map key)[(j : Nat)] = (l.map key)[(k : Nat)] := by simpa using h
  exact Fin.ext (hkeys.getElem_inj_iff.1 hjk)

/-- Settles O4: rows that one word meets have the word's operation code, or its command byte, and no other row has that. -/
theorem rowsNeverOverlap : Obligations.RowsNeverOverlap := by
  have hops : (commandRows.map fun r => opField r.pattern).Nodup := by decide
  have hcodes : (wireRows.map fun r => codeByte r.pattern).Nodup := by decide
  refine ⟨fun w j k hj hk => index_eq_of_nodup_key hops ?_, fun w j k hj hk => index_eq_of_nodup_key hcodes ?_⟩
  · exact (opField_of_commandRow (List.getElem_mem _) hj).symm.trans (opField_of_commandRow (List.getElem_mem _) hk)
  · exact (codeByte_of_wireRow (List.getElem_mem _) hj).symm.trans (codeByte_of_wireRow (List.getElem_mem _) hk)

/-! ## A decoded word is encoded back -/

theorem decodeCommand_eq_some {w : BitVec 64} {i : Instr} (h : decodeCommand w = some i) :
    ∃ r ∈ commandRows, w &&& r.mask = r.pattern ∧ r.build (operandsOf w) = i := by
  obtain ⟨r, hr, hi⟩ := Option.map_eq_some_iff.1 h
  exact ⟨r, List.mem_of_find?_eq_some hr, beq_iff_eq.1 (List.find?_some hr :), hi⟩

theorem decodeWire_eq_some {w : BitVec 16} {i : Instr} (h : decodeWire w = some i) :
    ∃ r ∈ wireRows, w &&& r.mask = r.pattern ∧ r.build (dataByte w) = i := by
  obtain ⟨r, hr, hi⟩ := Option.map_eq_some_iff.1 h
  exact ⟨r, List.mem_of_find?_eq_some hr, beq_iff_eq.1 (List.find?_some hr :), hi⟩

/-- A word with `RSV` zero is assembled from its operation code, pixel value and operands. -/
theorem commandWord_operandsOf {w : BitVec 64} (hr : rsvField w = 0#9) :
    commandWord (opField w) (operandsOf w).v (operandsOf w).a (operandsOf w).b (operandsOf w).c (operandsOf w).d = w := by
  conv_rhs => rw [← fieldsWord_of w, hr]
  simp only [commandWord_eq, operandsOf, ofInt_sext12]

/-- What a command row builds of a word that meets it is encoded to that word: the row's operands are the word's, the word's
other fields are zero. -/
theorem encode_of_commandRow {r : CommandRow} (hr : r ∈ commandRows) {w : BitVec 64} (hw : w &&& r.mask = r.pattern) :
    encode (r.build (operandsOf w)) = .cmd64 w := by
  obtain ⟨setpx, getpx, fill, hline, vline, line, rect, fillrect, scroll, setrot, rdrow⟩ := row_tests w
  have assembled : ∀ {e : Encoded}, rsvField w = 0#9 → e = .cmd64 (commandWord (opField w) (operandsOf w).v (operandsOf w).a
      (operandsOf w).b (operandsOf w).c (operandsOf w).d) → e = .cmd64 w :=
    fun hrsv h => h.trans (congrArg Encoded.cmd64 (commandWord_operandsOf hrsv))
  simp only [commandRows, List.mem_cons, List.not_mem_nil, or_false] at hr
  rcases hr with rfl | rfl | rfl | rfl | rfl | rfl | rfl | rfl | rfl | rfl | rfl
  · obtain ⟨hop, hrsv, hc, hd⟩ := setpx.1 hw
    exact assembled hrsv (by simp [encode, operandsOf, hop, hc, hd])
  · obtain ⟨hop, hv, hrsv, hc, hd⟩ := getpx.1 hw
    exact assembled hrsv (by simp [encode, operandsOf, hop, hv, hc, hd])
  · obtain ⟨hop, hrsv, ha, hb, hc, hd⟩ := fill.1 hw
    exact assembled hrsv (by simp [encode, operandsOf, hop, ha, hb, hc, hd])
  · obtain ⟨hop, hrsv, hd⟩ := hline.1 hw
    exact assembled hrsv (by simp [encode, operandsOf, hop, hd])
  · obtain ⟨hop, hrsv, hd⟩ := vline.1 hw
    exact assembled hrsv (by simp [encode, operandsOf, hop, hd])
  · obtain ⟨hop, hrsv⟩ := line.1 hw
    exact assembled hrsv (by simp [encode, operandsOf, hop])
  · obtain ⟨hop, hrsv⟩ := rect.1 hw
    exact assembled hrsv (by simp [encode, operandsOf, hop])
  · obtain ⟨hop, hrsv⟩ := fillrect.1 hw
    exact assembled hrsv (by simp [encode, operandsOf, hop])
  · obtain ⟨hop, hv, hrsv, hc, hd⟩ := scroll.1 hw
    exact assembled hrsv (by simp [encode, operandsOf, hop, hv, hc, hd])
  · obtain ⟨hop, hv, hrsv, hb, hc, hd⟩ := setrot.1 hw
    exact assembled hrsv (by simp [encode, operandsOf, hop, hv, hb, hc, hd])
  · obtain ⟨hop, hv, hrsv, hc, hd⟩ := rdrow.1 hw
    exact assembled hrsv (by simp [encode, operandsOf, hop, hv, hc, hd])

/-- Each register row builds the instruction of its own code, whatever the data byte is. -/
theorem encode_build_of_wireRow {r : WireRow} (hr : r ∈ wireRows) (d : Byte) :
    encode (r.build d) = .wire16 (wireWord (codeByte r.pattern) d) := by
  revert r
  simp only [wireRows, List.forall_mem_cons, List.not_mem_nil, false_imp_iff, implies_true, and_true]
  exact ⟨rfl, rfl, rfl, rfl, rfl, rfl, rfl, rfl, rfl, rfl, rfl, rfl, rfl, rfl⟩

theorem encode_of_wireRow {r : WireRow} (hr : r ∈ wireRows) {w : BitVec 16} (hw : w &&& r.mask = r.pattern) :
    encode (r.build (dataByte w)) = .wire16 w := by
  rw [encode_build_of_wireRow hr, ← codeByte_of_wireRow hr hw, wireWord_of]

theorem decode_cmd64_eq_ok {w : BitVec 64} {i : Instr} : decode (.cmd64 w) = .ok i ↔ decodeCommand w = some i := by
  simp only [decode]
  cases decodeCommand w <;> simp

theorem decode_wire16_eq_ok {w : BitVec 16} {i : Instr} : decode (.wire16 w) = .ok i ↔ decodeWire w = some i := by
  simp only [decode]
  cases decodeWire w <;> simp

/-- Settles O3: a word that decodes meets a row, which builds an instruction of that word. -/
theorem encodeOfDecode : Obligations.EncodeOfDecode := by
  intro e i h
  cases e with
  | cmd64 w =>
    obtain ⟨r, hr, hw, rfl⟩ := decodeCommand_eq_some (decode_cmd64_eq_ok.1 h)
    exact encode_of_commandRow hr hw
  | wire16 w =>
    obtain ⟨r, hr, hw, rfl⟩ := decodeWire_eq_some (decode_wire16_eq_ok.1 h)
    exact encode_of_wireRow hr hw

end Sys2Proof

namespace Sys2Proof.Machine

/-! ## Illegal command words -/

theorem op_cases (op : BitVec 6) :
    (op = 0x00#6 ∨ 0x0C ≤ op.toNat) ∨ op = 0x01#6 ∨ op = 0x02#6 ∨ op = 0x03#6 ∨ op = 0x04#6 ∨ op = 0x05#6 ∨ op = 0x06#6 ∨
      op = 0x07#6 ∨ op = 0x08#6 ∨ op = 0x09#6 ∨ op = 0x0A#6 ∨ op = 0x0B#6 := by
  revert op
  decide

/-- The rows say by match and mask what rules R63 to R66 say by field: a word is illegal exactly when it meets no row. -/
theorem illegalWord_iff (w : BitVec 64) : IllegalWord w ↔ ∀ r ∈ commandRows, w &&& r.mask ≠ r.pattern := by
  obtain hreserved | hop | hop | hop | hop | hop | hop | hop | hop | hop | hop | hop := op_cases (opField w)
  · have hcodes : ∀ r ∈ commandRows, opField r.pattern ≠ 0x00#6 ∧ (opField r.pattern).toNat < 0x0C := by decide
    refine iff_of_true (hreserved.elim .inl fun h => .inr (.inl h)) fun r hr hw => ?_
    obtain ⟨hzero, hlt⟩ := opField_of_commandRow hr hw ▸ hcodes r hr
    exact hreserved.elim hzero (by omega)
  -- With a known operation code one row is left on the right and its clause on the left: not all of the row's fields are zero.
  -- Where `v` is unused too, the two name it and `RSV` in another order.
  all_goals
    simp [IllegalWord, commandRows, row_tests w, hop, ← not_and_or, -not_and, -Bool.not_eq_false, ← Bool.not_eq_false]
      <;> exact not_congr and_left_comm

theorem decodeCommand_eq_none {w : BitVec 64} : decodeCommand w = none ↔ IllegalWord w := by
  simp [decodeCommand, illegalWord_iff]

theorem decode_of_illegalWord {w : BitVec 64} (h : IllegalWord w) : decode (.cmd64 w) = .rejected .illegalCommand := by
  simp only [decode, decodeCommand_eq_none.2 h]

theorem decode_of_not_illegalWord {w : BitVec 64} (h : ¬ IllegalWord w) : ∃ i, decode (.cmd64 w) = .ok i := by
  obtain ⟨i, hi⟩ := Option.ne_none_iff_exists'.1 (mt decodeCommand_eq_none.1 h)
  exact ⟨i, decode_cmd64_eq_ok.2 hi⟩

theorem runWord_of_illegalWord {w : BitVec 64} (h : IllegalWord w) (s : State) :
    runWord (.cmd64 w) s = raise .illegalCommand s := by
  simp only [runWord, decode_of_illegalWord h]

/-! ## No instruction is answered `ILLEGAL_COMMAND` -/

/-- Where the machine goes on, it has not answered `ILLEGAL_COMMAND`. -/
def NotIllegal (o : Host.Outcome State Fault Refusal) : Prop :=
  ∀ t d, o = .next t → t.reply ≠ some (.response .illegalCommand d)

theorem NotIllegal.withReply {r : Option Reply} (hr : ∀ d, r ≠ some (.response .illegalCommand d)) (s : State) :
    NotIllegal (.next (s.withReply r)) := by
  rintro _ d ⟨⟩
  exact hr d

theorem NotIllegal.respond (d : Byte) (s : State) : NotIllegal (respond d s) := .withReply (by simp) s

theorem NotIllegal.raise {st : Status} (hst : st ≠ .illegalCommand) (s : State) : NotIllegal (raise st s) :=
  .withReply (fun _ h => hst (by cases h; rfl)) s

theorem NotIllegal.registerWrite (code data : Byte) (s : State) : NotIllegal (registerWrite code data s) := by
  obtain ⟨-, t, r, -, ho⟩ | ⟨-, ho⟩ := registerWrite_cases code data s
  · rw [ho]
    exact .withReply (by cases r <;> nofun) t
  · rw [ho]
    nofun

theorem exec_notIllegal (i : Instr) (s : State) : NotIllegal (exec i s) := by
  obtain hi | ⟨p, hp⟩ := isCommand_or_pairOf i
  · cases i with
    | fill | hline | vline | line | rect | fillrect | scroll => exact .respond _ _
    | setpx x y v =>
      change NotIllegal (execSetpx x y v s)
      unfold execSetpx
      split
      · exact .respond _ _
      · exact .raise (by decide) s
    | getpx x y =>
      change NotIllegal (execGetpx x y s)
      unfold execGetpx
      split
      · split
        · exact .respond _ _
        · nofun
      · exact .raise (by decide) s
    | setrot deg =>
      change NotIllegal (execSetrot deg s)
      unfold execSetrot
      split
      · exact .raise (by decide) s
      split
      · exact .raise (by decide) s
      · exact .respond _ _
    | rdrow y m =>
      change NotIllegal (execRdrow y m s)
      unfold execRdrow
      split
      · exact .raise (by decide) s
      split
      · exact .respond _ _
      · nofun
    | _ => cases hi
  · rw [exec_of_pairOf hp]
    exact .registerWrite _ _ s

/-- Settles O6: an illegal word meets no row and is raised; any other word decodes, and no instruction is answered so. -/
theorem illegalWordsAnswered : Obligations.IllegalWordsAnswered := by
  intro s w rest hh hin
  have hstep : step s = runWord (.cmd64 w) (s.taken rest) := step_of_word hh hin
  refine ⟨fun hw => hstep.trans (runWord_of_illegalWord hw _), fun hw => ?_⟩
  obtain ⟨i, hi⟩ := decode_of_not_illegalWord hw
  refine ⟨⟨i, hi⟩, ?_⟩
  rw [hstep, runWord_of_decode hi]
  exact exec_notIllegal i (s.taken rest)

/-! ## The response word -/

/-- Settles O7: the response word is the status code before the data byte. -/
theorem responseWordFields : Obligations.ResponseWordFields := by
  have fields : ∀ (st : Status) (d : Byte),
      (respWord st d).extractLsb' 8 2 = st.code ∧ (respWord st d).extractLsb' 0 8 = d :=
    fun _ _ => ⟨BitVec.extractLsb'_append_eq_left, BitVec.extractLsb'_append_eq_right⟩
  exact ⟨fields, rfl, rfl, rfl, rfl⟩

end Sys2Proof.Machine
end

section
/-! PROOF. The pseudo-operations write the store and answer, and nothing else; READFRAME answers what RDROW answers (spec/30
R71, spec/43 R150 to R158). -/

namespace Sys2Proof.Machine

/-! ## The store and the reply -/

/-- `t` is `s` but for the store and the reply. -/
def StoreAndReplyOnly (s t : State) : Prop := t = (s.withFb t.fb).withReply t.reply

namespace StoreAndReplyOnly
variable {s t u : State}

theorem refl (s : State) : StoreAndReplyOnly s s := rfl

theorem eq (h : StoreAndReplyOnly s t) : t = (s.withFb t.fb).withReply t.reply := h

theorem trans (h : StoreAndReplyOnly s t) (h' : StoreAndReplyOnly t u) : StoreAndReplyOnly s u :=
  calc u = (t.withFb u.fb).withReply u.reply := h'.eq
    _ = (((s.withFb t.fb).withReply t.reply).withFb u.fb).withReply u.reply :=
      congrArg (fun v : State => (v.withFb u.fb).withReply u.reply) h.eq

theorem withReply (h : StoreAndReplyOnly s t) (r : Option Reply) : StoreAndReplyOnly s (t.withReply r) :=
  h.trans rfl

end StoreAndReplyOnly

/-- The commands the pseudo-operations expand to: every command of the block but SETROT. -/
def IsExpansionCommand (i : Instr) : Prop := i.isCommand = true ∧ ∀ deg, i ≠ .setrot deg

theorem exec_storeAndReplyOnly {i : Instr} (hi : IsExpansionCommand i) {s t : State} (ht : exec i s = .next t) :
    StoreAndReplyOnly s t := by
  have h := exec_command_outcome hi.1 s
  rw [ht] at h
  cases h with
  | draws | answers | errs => rfl
  | turns deg => exact absurd rfl (hi.2 deg)

theorem runExpansion_eq_next {cmds : List Instr} {answer : List (Option Reply) → Reply} {s t : State}
    (h : runExpansion cmds answer s = .next t) :
    ∃ u rs, runCommands cmds s = .next (u, rs) ∧ t = u.withReply (some (answer rs)) := by
  unfold runExpansion at h
  split at h
  · cases h
  · cases h
  next u rs hrun =>
    cases h
    exact ⟨u, rs, hrun, rfl⟩

theorem runExpansion_storeAndReplyOnly {cmds : List Instr} (hcmds : ∀ i ∈ cmds, IsExpansionCommand i)
    {answer : List (Option Reply) → Reply} {s t : State} (h : runExpansion cmds answer s = .next t) :
    StoreAndReplyOnly s t := by
  obtain ⟨u, rs, hrun, rfl⟩ := runExpansion_eq_next h
  have hu : StoreAndReplyOnly s u :=
    runCommands_keeps hrun (.refl s) fun i hi _ _ hs ht => hs.trans (exec_storeAndReplyOnly (hcmds i hi) ht)
  exact hu.withReply _

/-! ## The expansions -/

theorem isExpansionCommand_rowCommands {n r c : Nat} {cells : List GridCell} :
    ∀ i ∈ rowCommands n r c cells, IsExpansionCommand i := by
  induction cells generalizing c with
  | nil => nofun
  | cons cell cells ih =>
    unfold rowCommands
    split
    · exact List.forall_mem_cons.2 ⟨⟨rfl, nofun⟩, ih⟩
    · nofun

theorem isExpansionCommand_gridCommands {n r : Nat} {grid : List (List GridCell)} :
    ∀ i ∈ gridCommands n r grid, IsExpansionCommand i := by
  induction grid generalizing r with
  | nil => nofun
  | cons row rows ih =>
    unfold gridCommands
    split
    · exact List.forall_mem_append.2 ⟨isExpansionCommand_rowCommands, ih⟩
    · nofun

theorem isExpansionCommand_loadMatrixCommands (n : Nat) (grid : List (List GridCell)) :
    ∀ i ∈ loadMatrixCommands n grid, IsExpansionCommand i :=
  List.forall_mem_cons.2 ⟨⟨rfl, nofun⟩, isExpansionCommand_gridCommands⟩

theorem isExpansionCommand_dumpMatrixCommands (n : Nat) : ∀ i ∈ dumpMatrixCommands n, IsExpansionCommand i :=
  List.forall_mem_map.2 fun _ _ => ⟨rfl, nofun⟩

theorem mem_readFrameCommands {n : Nat} {i : Instr} :
    i ∈ readFrameCommands n ↔ ∃ y m : Nat, y < 8 ∧ m < n ∧ .rdrow (y : Int) (m : Int) = i := by
  simp only [readFrameCommands, List.mem_flatMap, List.mem_map, List.mem_range]
  exact ⟨fun ⟨y, hy, m, hm, hi⟩ => ⟨y, m, hy, hm, hi⟩, fun ⟨y, m, hy, hm, hi⟩ => ⟨y, hy, m, hm, hi⟩⟩

theorem isExpansionCommand_readFrameCommands (n : Nat) : ∀ i ∈ readFrameCommands n, IsExpansionCommand i := by
  intro i hi
  obtain ⟨y, m, -, -, rfl⟩ := mem_readFrameCommands.1 hi
  exact ⟨rfl, nofun⟩

/-! ## No state is added -/

theorem callLoadPattern_storeAndReplyOnly {text onChar : List Char} {s t : State}
    (h : callLoadPattern text onChar s = .next t) : StoreAndReplyOnly s t := by
  unfold callLoadPattern at h
  split at h
  · exact runExpansion_storeAndReplyOnly (isExpansionCommand_loadMatrixCommands _ _) h
  · cases h
    rfl

/-- `CLEAR` is `FILL 0`, answered as a call. -/
theorem callClear_eq (s : State) :
    callClear s = .next ((s.withFb (s.fb.fillAll s.modules 0x00#8)).withReply (some (.call .ok))) := rfl

/-- Settles O52: no expansion holds a SETROT, and every other command writes the store and the reply only. -/
theorem pseudoOperationsAddNoState : Obligations.PseudoOperationsAddNoState := by
  constructor
  · rintro c s t (rfl | ⟨grid, rfl⟩ | rfl | ⟨text, onChar, offChar, rfl⟩ | rfl) ht
    · cases (callClear_eq s).symm.trans ht
      rfl
    · exact runExpansion_storeAndReplyOnly (isExpansionCommand_loadMatrixCommands _ grid) ht
    · exact runExpansion_storeAndReplyOnly (isExpansionCommand_dumpMatrixCommands _) ht
    · exact callLoadPattern_storeAndReplyOnly ht
    · exact runExpansion_storeAndReplyOnly (isExpansionCommand_readFrameCommands _) ht
  · intro s hs
    refine ⟨s.fb.fillAll s.modules 0x00#8, callClear_eq s, Memory.wf_fillAll hs _, fun i hi => ?_⟩
    rw [Memory.read_fillAll hs, if_pos hi]

/-! ## An expansion of reads -/

/-- Lists related entry by entry have entries at the same places. -/
theorem exists_getElem?_of_forall₂ {α β : Type} {R : α → β → Prop} {l : List α} {l' : List β} (h : List.Forall₂ R l l')
    {k : Nat} {a : α} (ha : l[k]? = some a) : ∃ b, l'[k]? = some b ∧ R a b := by
  obtain ⟨hk, rfl⟩ := List.getElem?_eq_some_iff.1 ha
  exact ⟨_, List.getElem?_eq_getElem (h.length_eq ▸ hk), h.get hk (h.length_eq ▸ hk)⟩

/-- A command that reads the state `s` and answers `d`. -/
def Answers (s : State) (i : Instr) (d : Byte) : Prop := i.isCommand = true ∧ exec i s = respond d s

/-- Reads one after another each answer what they answer on their own, and change nothing but the reply. -/
theorem runCommands_of_answers {is : List Instr} {s : State} (h : ∀ i ∈ is, ∃ d, Answers s i d) :
    ∃ r ds, runCommands is s = .next (s.withReply r, ds.map fun d => some (.response .ok d)) ∧
      List.Forall₂ (Answers s) is ds := by
  suffices ∀ q, ∃ r ds, runCommands is (s.withReply q) = .next (s.withReply r, ds.map fun d => some (.response .ok d)) ∧
      List.Forall₂ (Answers s) is ds from this s.reply
  induction is with
  | nil => exact fun q => ⟨q, [], rfl, .nil⟩
  | cons i is ih =>
    obtain ⟨⟨d, hd⟩, his⟩ := List.forall_mem_cons.1 h
    intro q
    obtain ⟨r, ds, hrun, hds⟩ := ih his (some (.response .ok d))
    have hi : exec i (s.withReply q) = .next (s.withReply (some (.response .ok d))) :=
      (exec_withReply hd.1 s q).trans hd.2
    refine ⟨r, d :: ds, ?_, .cons hd hds⟩
    simp only [runCommands, hi, hrun, State.withReply_reply, List.map_cons]

/-! ## READFRAME -/

theorem answers_rdrow {s : State} (hs : s.Inv) {y m : Nat} (hy : y < 8) (hm : m < s.modules) :
    ∃ d, Answers s (.rdrow y m) d := by
  obtain ⟨-, -, hwf, hrot, -⟩ := hs
  obtain ⟨d, hd, -⟩ := Memory.rowByte?_of_readable (y := y) (k := m) hwf hrot (by omega) (by omega)
  refine ⟨d, rfl, ?_⟩
  change execRdrow y m s = _
  unfold execRdrow
  rw [if_neg (by omega), hd]

theorem length_rows {α : Type} (f : Nat → Nat → α) (n k : Nat) :
    ((List.range k).flatMap fun y => (List.range n).map (f y)).length = k * n := by
  simp

/-- Rows of `n` entries one after another: entry `m` of row `y` is at place `y * n + m`. -/
theorem getElem?_rows {α : Type} (f : Nat → Nat → α) {n k y m : Nat} (hy : y < k) (hm : m < n) :
    ((List.range k).flatMap fun y => (List.range n).map (f y))[y * n + m]? = some (f y m) := by
  induction k with
  | zero => omega
  | succ k ih =>
    rw [List.range_succ, List.flatMap_append, List.getElem?_append, length_rows]
    by_cases hyk : y < k
    · have hlt : y * n + m < k * n := by
        calc y * n + m < (y + 1) * n := by rw [Nat.succ_mul]; omega
          _ ≤ k * n := Nat.mul_le_mul_right n hyk
      rw [if_pos hlt, ih hyk]
    · obtain rfl : y = k := by omega
      simp [hm]

/-- Settles O58: READFRAME is one RDROW for each row and module, in order, and each answers on its own. -/
theorem readFrameReadsEveryRow : Obligations.ReadFrameReadsEveryRow := by
  intro s hs
  have hanswers : ∀ i ∈ readFrameCommands s.modules, ∃ d, Answers s i d := by
    intro i hi
    obtain ⟨y, m, hy, hm, rfl⟩ := mem_readFrameCommands.1 hi
    exact answers_rdrow hs hy hm
  obtain ⟨r, bytes, hrun, hbytes⟩ := runCommands_of_answers hanswers
  refine ⟨bytes, ?_, hbytes.length_eq.symm.trans (length_rows _ s.modules 8), fun y m hy hm => ?_⟩
  · have hdata : (bytes.map fun d => some (Reply.response .ok d)).map replyData = bytes := by
      simp [replyData, Function.comp_def]
    change runExpansion _ _ s = _
    simp only [runExpansion, hrun, hdata]
    rfl
  · have hplace := getElem?_rows (fun y m => Instr.rdrow (y : Int) (m : Int)) hy hm
    obtain ⟨d, hd, -, hrd⟩ := exists_getElem?_of_forall₂ hbytes hplace
    exact ⟨d, hd, hrd⟩

end Sys2Proof.Machine
end

section
/-! PROOF. The assembler: how a line is taken apart, what its operands read as, and the form of each command (spec/30 R70). -/

namespace Sys2Proof.Machine

/-! ## Characters of a mnemonic or an operand -/

/-- Above the blanks and the comma, and no semicolon: digits, letters and the minus sign are such characters. -/
abbrev IsTokenChar (c : Char) : Prop := 0x2C < c.toNat ∧ c.toNat ≠ 0x3B

theorem IsTokenChar.not_space {c : Char} (h : IsTokenChar c) : isPatternSpace c = false := by
  unfold IsTokenChar at h
  simp only [isPatternSpace, Bool.or_eq_false_iff, beq_eq_false_iff_ne]
  omega

theorem IsTokenChar.ne_semicolon {c : Char} (h : IsTokenChar c) : c ≠ ';' := by
  rintro rfl
  exact h.2 rfl

theorem isTokenChar_of_decDigit? {c : Char} (h : (decDigit? c).isSome) : IsTokenChar c := by
  unfold decDigit? at h
  unfold IsTokenChar
  split at h
  · omega
  · cases h

theorem isTokenChar_of_hexDigit? {c : Char} (h : (hexDigit? c).isSome) : IsTokenChar c := by
  unfold hexDigit? at h
  unfold IsTokenChar
  split_ifs at h
  · omega
  · omega
  · omega
  · cases h

/-! ## Operands -/

theorem parseDigits_eq_some {base : Nat} {digit? : Char → Option Nat} {cs : List Char} {n : Nat}
    (h : parseDigits base digit? cs = some n) : cs ≠ [] ∧ ∀ c ∈ cs, (digit? c).isSome := by
  have digits : ∀ (cs : List Char) (acc : Nat),
      cs.foldlM (fun acc c => (digit? c).map fun d => acc * base + d) acc = some n → ∀ c ∈ cs, (digit? c).isSome := by
    intro cs
    induction cs with
    | nil => nofun
    | cons c cs ih =>
      intro acc h
      rw [List.foldlM_cons] at h
      obtain ⟨acc', hc, hcs⟩ := Option.bind_eq_some_iff.1 h
      obtain ⟨d, hd, -⟩ := Option.map_eq_some_iff.1 hc
      exact List.forall_mem_cons.2 ⟨hd ▸ rfl, ih acc' hcs⟩
  cases cs with
  | nil => cases h
  | cons c cs => exact ⟨nofun, digits _ 0 h⟩

/-- An operand that can be read is a word of its own: no blank, comma or semicolon stands in it. -/
theorem parseOperand_eq_some {t : List Char} {z : Int} (h : parseOperand t = some z) :
    t ≠ [] ∧ ∀ c ∈ t, IsTokenChar c := by
  unfold parseOperand at h
  split at h
  all_goals
    obtain ⟨_, hcoe, -⟩ := Option.map_eq_some_iff.1 h
    obtain ⟨n, hn, -⟩ := Option.bind_eq_some_iff.1 hcoe
    obtain ⟨hne, hdigits⟩ := parseDigits_eq_some hn
  · exact ⟨nofun, List.forall_mem_cons.2 ⟨by decide, fun c hc => isTokenChar_of_decDigit? (hdigits c hc)⟩⟩
  · refine ⟨nofun, List.forall_mem_cons.2 ⟨by decide, List.forall_mem_cons.2 ⟨by decide, fun c hc => ?_⟩⟩⟩
    exact isTokenChar_of_hexDigit? (hdigits c hc)
  · exact ⟨hne, fun c hc => isTokenChar_of_decDigit? (hdigits c hc)⟩

/-- Decimal digits alone are neither a negative number nor a hexadecimal one. -/
theorem parseOperand_of_digits {cs : List Char} {n : Nat} (h : parseDigits 10 decDigit? cs = some n) :
    parseOperand cs = some (n : Int) := by
  obtain ⟨-, hdigits⟩ := parseDigits_eq_some h
  unfold parseOperand
  split
  · exact absurd (hdigits '-' (by simp)) (by decide)
  · exact absurd (hdigits 'x' (by simp)) (by decide)
  · rw [h]
    rfl

theorem parseOperand_decimal (z : Int) : parseOperand (decimal z) = some z := by
  have hz := parseDigits_toDigits (by decide) decDigit?_digitChar z.natAbs
  unfold decimal
  split
  · simp only [parseOperand, hz]
    exact congrArg some (by omega : -(z.natAbs : Int) = z)
  · rw [parseOperand_of_digits hz]
    exact congrArg some (by omega)

theorem parseOperand_of_spells {t : List Char} {z : Int} (h : Spells t z) : parseOperand t = some z := by
  obtain rfl | ⟨hz, rfl⟩ := h
  · exact parseOperand_decimal z
  · simp only [parseOperand, parseDigits_toDigits (by decide) hexDigit?_digitChar]
    exact congrArg some (by omega : (z.natAbs : Int) = z)

/-! ## Taking a line apart -/

theorem dropWhile_of_head? {α : Type} {p : α → Bool} {l : List α} (h : ∀ a, l.head? = some a → p a = false) :
    l.dropWhile p = l := by
  cases l with
  | nil => rfl
  | cons a l => exact List.dropWhile_cons_of_neg (by simp [h a rfl])

/-- Trim takes away the blanks before a text that begins and ends with none. -/
theorem trimLine_append {blanks l : List Char} (hblanks : ∀ c ∈ blanks, isPatternSpace c = true)
    (hhead : ∀ c, l.head? = some c → isPatternSpace c = false)
    (hlast : ∀ c, l.getLast? = some c → isPatternSpace c = false) : trimLine (blanks ++ l) = l := by
  unfold trimLine
  rw [List.dropWhile_append_of_pos hblanks, dropWhile_of_head? hhead,
    dropWhile_of_head? (l := l.reverse) fun c hc => hlast c (List.head?_reverse ▸ hc), List.reverse_reverse]

theorem trimLine_append_token {blanks t : List Char} (hblanks : ∀ c ∈ blanks, isPatternSpace c = true)
    (ht : ∀ c ∈ t, IsTokenChar c) : trimLine (blanks ++ t) = t :=
  trimLine_append hblanks (fun c hc => (ht c (List.mem_of_mem_head? hc)).not_space)
    fun c hc => (ht c (List.mem_of_getLast? hc)).not_space

theorem splitOnCode_of_not_mem {sep : Nat} {a : List Char} (ha : ∀ c ∈ a, c.toNat ≠ sep) : splitOnCode sep a = [a] := by
  induction a with
  | nil => rfl
  | cons c a ih =>
    obtain ⟨hc, ha⟩ := List.forall_mem_cons.1 ha
    simp [splitOnCode, hc, ih ha]

theorem splitOnCode_append_cons {sep : Nat} {a : List Char} (ha : ∀ c ∈ a, c.toNat ≠ sep) {s : Char} (hs : s.toNat = sep)
    (b : List Char) : splitOnCode sep (a ++ s :: b) = a :: splitOnCode sep b := by
  induction a with
  | nil => simp [splitOnCode, hs]
  | cons c a ih =>
    obtain ⟨hc, ha⟩ := List.forall_mem_cons.1 ha
    simp [splitOnCode, hc, ih ha]

/-- Operands written with a comma and a blank between them are cut apart at the commas. -/
theorem splitOnCode_intercalate {a t : List Char} {ts : List (List Char)} (ha : ∀ c ∈ a, c.toNat ≠ 0x2C)
    (hts : ∀ u ∈ t :: ts, ∀ c ∈ u, c.toNat ≠ 0x2C) :
    splitOnCode 0x2C (a ++ List.intercalate [',', ' '] (t :: ts)) = (a ++ t) :: ts.map ([' '] ++ ·) := by
  induction ts generalizing a t with
  | nil =>
    rw [List.intercalate_singleton]
    exact splitOnCode_of_not_mem (List.forall_mem_append.2 ⟨ha, hts t List.mem_cons_self⟩)
  | cons u ts ih =>
    obtain ⟨ht, hts⟩ := List.forall_mem_cons.1 hts
    have hblank : ∀ c ∈ [' '], c.toNat ≠ 0x2C := List.forall_mem_singleton.2 (by decide)
    have hline : a ++ List.intercalate [',', ' '] (t :: u :: ts) =
        (a ++ t) ++ ',' :: ([' '] ++ List.intercalate [',', ' '] (u :: ts)) := by
      simp [List.intercalate_cons_cons]
    rw [hline, splitOnCode_append_cons (List.forall_mem_append.2 ⟨ha, ht⟩) rfl, ih hblank hts]
    rfl

/-- The last character of operands written one after another is the last one's. -/
theorem getLast?_intercalate {a t sep : List Char} {ts : List (List Char)} (hts : ∀ u ∈ t :: ts, u ≠ []) {c : Char}
    (hc : (a ++ List.intercalate sep (t :: ts)).getLast? = some c) : ∃ u ∈ t :: ts, c ∈ u := by
  induction ts generalizing a t with
  | nil =>
    rw [List.intercalate_singleton, List.getLast?_append_of_ne_nil _ (hts t List.mem_cons_self)] at hc
    exact ⟨t, List.mem_cons_self, List.mem_of_getLast? hc⟩
  | cons u ts ih =>
    rw [List.intercalate_cons_cons, ← List.append_assoc] at hc
    obtain ⟨v, hv, hcv⟩ := ih (fun v hv => hts v (List.mem_cons_of_mem _ hv)) hc
    exact ⟨v, List.mem_cons_of_mem _ hv, hcv⟩

theorem mapM_eq_some_of_forall₂ {α β : Type} {f : α → Option β} {l : List α} {bs : List β}
    (h : List.Forall₂ (fun a b => f a = some b) l bs) : l.mapM f = some bs := by
  induction h with
  | nil => rfl
  | cons hab _ ih => simp [hab, ih]

/-! ## One line -/

/-- A line taken apart: its mnemonic, and what its operands read as. -/
structure LineReads (line mnemonic : List Char) (ops : List Int) : Prop where
  nonempty : trimLine (line.takeWhile fun c => c != ';') ≠ []
  mnemonic : ((trimLine (line.takeWhile fun c => c != ';')).takeWhile fun c => !isPatternSpace c) = mnemonic
  operands : ((splitOnCode 0x2C ((trimLine (line.takeWhile fun c => c != ';')).dropWhile fun c => !isPatternSpace c)).mapM
    fun op => parseOperand (trimLine op)) = some ops

/-- What a line is, by the command its mnemonic and operands name. -/
def asmOfCommand : Option Instr → AsmLine
  | none => .rejected
  | some i => if i.wf then .command i else .rejected

theorem LineReads.assembleLine_eq {line mnemonic : List Char} {ops : List Int} (h : LineReads line mnemonic ops) :
    assembleLine line = asmOfCommand (commandOf mnemonic ops) := by
  obtain ⟨hne, hm, hops⟩ := h
  unfold assembleLine
  generalize trimLine (line.takeWhile fun c => c != ';') = body at hne hm hops
  cases body with
  | nil => exact absurd rfl hne
  | cons c cs =>
    simp only [hm, hops]
    cases commandOf mnemonic ops <;> rfl

theorem assembleLine_eq_command {line : List Char} {i : Instr} (h : assembleLine line = .command i) :
    i.wf = true ∧ ∃ mnemonic ops, commandOf mnemonic ops = some i := by
  unfold assembleLine at h
  simp only at h
  split at h
  · cases h
  split at h
  · cases h
  split at h
  · cases h
  next hi =>
    split at h
    next hwf =>
      cases h
      exact ⟨hwf, _, _, hi⟩
    · cases h

theorem mem_intercalate {sep : List Char} {ts : List (List Char)} {c : Char} (hc : c ∈ List.intercalate sep ts) :
    c ∈ sep ∨ ∃ t ∈ ts, c ∈ t := by
  match ts with
  | [] => cases hc
  | [t] => exact .inr ⟨t, List.mem_cons_self, List.intercalate_singleton.subst (motive := (c ∈ ·)) hc⟩
  | t :: u :: ts =>
    rw [List.intercalate_cons_cons, List.mem_append, List.mem_append] at hc
    obtain (hc | hc) | hc := hc
    · exact .inr ⟨t, List.mem_cons_self, hc⟩
    · exact .inl hc
    · exact (mem_intercalate hc).imp_right fun ⟨v, hv, hcv⟩ => ⟨v, List.mem_cons_of_mem _ hv, hcv⟩

/-- The parts of a line as rule R70 writes one: a mnemonic, blanks, operands that read as `ops`, and a comment or nothing. -/
structure LineParts (mnemonic blanks comment : List Char) (texts : List (List Char)) (ops : List Int) : Prop where
  mnemonic_ne : mnemonic ≠ []
  mnemonic : ∀ c ∈ mnemonic, IsTokenChar c
  blanks_ne : blanks ≠ []
  blanks : ∀ c ∈ blanks, c = ' '
  comment : comment = [] ∨ ∃ r, comment = ';' :: r
  ops_ne : ops ≠ []
  texts : List.Forall₂ (fun t z => parseOperand t = some z) texts ops

section
variable {mnemonic blanks comment : List Char} {texts : List (List Char)} {ops : List Int}
  (h : LineParts mnemonic blanks comment texts ops)
include h

theorem LineParts.tokens : ∀ t ∈ texts, t ≠ [] ∧ ∀ c ∈ t, IsTokenChar c :=
  ((List.forall₂_and_left _ _).1 (h.texts.imp fun _ _ hz => ⟨parseOperand_eq_some hz, hz⟩)).1

theorem LineParts.exists_texts : ∃ t ts, texts = t :: ts := by
  cases h.texts with
  | nil => exact absurd rfl h.ops_ne
  | cons => exact ⟨_, _, rfl⟩

theorem LineParts.takeWhile_asmLine : ((asmLine mnemonic blanks texts comment).takeWhile fun c => c != ';') =
    mnemonic ++ (blanks ++ List.intercalate [',', ' '] texts) := by
  have hcomment : (comment.takeWhile fun c => c != ';') = [] := by
    obtain rfl | ⟨r, rfl⟩ := h.comment <;> rfl
  unfold asmLine
  rw [List.takeWhile_append_of_pos, hcomment, List.append_nil, List.append_assoc]
  intro c hc
  rw [bne_iff_ne]
  simp only [List.mem_append] at hc
  obtain (hc | hc) | hc := hc
  · exact (h.mnemonic c hc).ne_semicolon
  · exact h.blanks c hc ▸ by decide
  · obtain hc | ⟨t, ht, hc⟩ := mem_intercalate hc
    · rintro rfl
      exact absurd hc (by decide)
    · exact ((h.tokens t ht).2 c hc).ne_semicolon

theorem LineParts.trimLine_asmLine : trimLine ((asmLine mnemonic blanks texts comment).takeWhile fun c => c != ';') =
    mnemonic ++ (blanks ++ List.intercalate [',', ' '] texts) := by
  obtain ⟨m, ms, hm⟩ := List.exists_cons_of_ne_nil h.mnemonic_ne
  obtain ⟨t, ts, ht⟩ := h.exists_texts
  rw [h.takeWhile_asmLine]
  refine trimLine_append (blanks := []) (l := mnemonic ++ (blanks ++ _)) nofun (fun c hc => ?_) fun c hc => ?_
  · rw [hm] at hc
    cases hc
    exact (h.mnemonic m (hm ▸ List.mem_cons_self)).not_space
  · rw [← List.append_assoc, ht] at hc
    obtain ⟨u, hu, hcu⟩ := getLast?_intercalate (fun u hu => (h.tokens u (ht ▸ hu)).1) hc
    exact ((h.tokens u (ht ▸ hu)).2 c hcu).not_space

theorem LineParts.lineReads : LineReads (asmLine mnemonic blanks texts comment) mnemonic ops := by
  have hspaces : ∀ c ∈ blanks, isPatternSpace c = true := fun c hc => h.blanks c hc ▸ rfl
  have hmnemonic : ∀ c ∈ mnemonic, (!isPatternSpace c) = true := fun c hc => by simp [(h.mnemonic c hc).not_space]
  obtain ⟨b, bs, hb⟩ := List.exists_cons_of_ne_nil h.blanks_ne
  have hspace : (!isPatternSpace b) = false := by simp [hspaces b (hb ▸ List.mem_cons_self)]
  refine ⟨by simp [h.trimLine_asmLine, h.mnemonic_ne], ?_, ?_⟩
  · rw [h.trimLine_asmLine, List.takeWhile_append_of_pos hmnemonic, hb]
    simp [hspace]
  · have hrest : (blanks ++ List.intercalate [',', ' '] texts).dropWhile (fun c => !isPatternSpace c) =
        blanks ++ List.intercalate [',', ' '] texts := by
      rw [hb]
      exact List.dropWhile_cons_of_neg (by simp [hspace])
    rw [h.trimLine_asmLine, List.dropWhile_append_of_pos hmnemonic, hrest]
    obtain ⟨t, ts, rfl⟩ := h.exists_texts
    obtain ⟨z, zs, hz, hzs, rfl⟩ := List.forall₂_cons_left_iff.1 h.texts
    have hcommas : ∀ u ∈ t :: ts, ∀ c ∈ u, c.toNat ≠ 0x2C := fun u hu c hc => ((h.tokens u hu).2 c hc).1.ne'
    have hblanks : ∀ c ∈ blanks, c.toNat ≠ 0x2C := fun c hc => h.blanks c hc ▸ by decide
    rw [splitOnCode_intercalate hblanks hcommas]
    refine mapM_eq_some_of_forall₂ (.cons ?_ (List.forall₂_map_left_iff.2 (hzs.imp fun u y hy => ?_)))
    · rw [trimLine_append_token hspaces (parseOperand_eq_some hz).2, hz]
    · rw [trimLine_append_token (List.forall_mem_singleton.2 rfl) (parseOperand_eq_some hy).2, hy]

end

/-! ## The commands -/

/-- Nothing but a command of the block. -/
def OnlyCommand (o : Option Instr) : Prop := ∀ i, o = some i → i.isCommand = true

theorem OnlyCommand.none : OnlyCommand none := nofun

theorem OnlyCommand.some {i : Instr} (hi : i.isCommand = true) : OnlyCommand (some i) := by
  rintro _ ⟨⟩
  exact hi

theorem OnlyCommand.map {build : Bool → Instr} (hbuild : ∀ b, (build b).isCommand = true) (o : Option Bool) :
    OnlyCommand (o.map build) := by
  cases o with
  | none => exact .none
  | some b => exact .some (hbuild b)

theorem OnlyCommand.ite {p : Prop} [Decidable p] {o o' : Option Instr} (h : OnlyCommand o) (h' : OnlyCommand o') :
    OnlyCommand (if p then o else o') := by
  split
  · exact h
  · exact h'

theorem onlyCommand_commandOf (mnemonic : List Char) (ops : List Int) : OnlyCommand (commandOf mnemonic ops) := by
  unfold commandOf
  refine .ite ?setpx (.ite ?getpx (.ite ?fill (.ite ?hline (.ite ?vline (.ite ?line (.ite ?rect (.ite ?fillrect
    (.ite ?scroll (.ite ?setrot (.ite ?rdrow .none))))))))))
  case setpx | fill | hline | vline | line | rect | fillrect =>
    split
    · exact .map (fun _ => rfl) _
    · exact .none
  case getpx | scroll | setrot | rdrow =>
    split
    · exact .some rfl
    · exact .none

/-- The pixel value as an operand. -/
def pixelOperand (b : Bool) : Int := if b then 1 else 0

theorem pixelValue?_pixelOperand (b : Bool) : pixelValue? (pixelOperand b) = some b := by
  cases b <;> rfl

theorem spells_pixelOperand (b : Bool) : Spells [if b then '1' else '0'] (pixelOperand b) :=
  .inl (by cases b <;> rfl)

/-- What the form of a command fixes: a mnemonic, and the command that it names with its operands and no other pixel value. -/
structure IsForm (i : Instr) (mnemonic : List Char) (ops : List Int) (v : Option Bool) : Prop where
  mnemonic_ne : mnemonic ≠ []
  tokens : ∀ c ∈ mnemonic, IsTokenChar c
  operands_ne : ops ++ v.toList.map pixelOperand ≠ []
  names : commandOf mnemonic (ops ++ v.toList.map pixelOperand) = some i
  pixel : v ≠ none → ∀ z, z ≠ 0 → z ≠ 1 → commandOf mnemonic (ops ++ [z]) = none

theorem isTokenChar_of_all {cs : List Char} (h : (cs.all fun c => decide (IsTokenChar c)) = true) :
    ∀ c ∈ cs, IsTokenChar c :=
  fun c hc => of_decide_eq_true (List.all_eq_true.1 h c hc)

theorem isForm_of_pixel {mnemonic : List Char} {ops : List Int} {build : Bool → Instr} (hne : mnemonic ≠ [])
    (htokens : (mnemonic.all fun c => decide (IsTokenChar c)) = true)
    (hnames : ∀ z, commandOf mnemonic (ops ++ [z]) = (pixelValue? z).map build) (v : Bool) :
    IsForm (build v) mnemonic ops (some v) where
  mnemonic_ne := hne
  tokens := isTokenChar_of_all htokens
  operands_ne := by simp
  names := (hnames _).trans (by rw [pixelValue?_pixelOperand]; rfl)
  pixel _ z h0 h1 := (hnames z).trans (by rw [pixelValue?, if_neg h0, if_neg h1]; rfl)

theorem isForm_of_plain {i : Instr} {mnemonic : List Char} {ops : List Int} (hne : mnemonic ≠ [])
    (htokens : (mnemonic.all fun c => decide (IsTokenChar c)) = true) (hops : ops ≠ [])
    (hnames : commandOf mnemonic ops = some i) : IsForm i mnemonic ops none where
  mnemonic_ne := hne
  tokens := isTokenChar_of_all htokens
  operands_ne := by simpa using hops
  names := by simpa using hnames
  pixel hv := absurd rfl hv

theorem isForm_of_asmForm {i : Instr} {mnemonic : List Char} {ops : List Int} {v : Option Bool}
    (h : asmForm i = some (mnemonic, ops, v)) : IsForm i mnemonic ops v := by
  cases i <;> cases h
  case setpx x y v => exact isForm_of_pixel (build := .setpx x y) (by simp) rfl (fun _ => rfl) v
  case fill v => exact isForm_of_pixel (build := .fill) (by simp) rfl (fun _ => rfl) v
  case hline x y w v => exact isForm_of_pixel (build := .hline x y w) (by simp) rfl (fun _ => rfl) v
  case vline x y h v => exact isForm_of_pixel (build := .vline x y h) (by simp) rfl (fun _ => rfl) v
  case line x0 y0 x1 y1 v => exact isForm_of_pixel (build := .line x0 y0 x1 y1) (by simp) rfl (fun _ => rfl) v
  case rect x y w h v => exact isForm_of_pixel (build := .rect x y w h) (by simp) rfl (fun _ => rfl) v
  case fillrect x y w h v => exact isForm_of_pixel (build := .fillrect x y w h) (by simp) rfl (fun _ => rfl) v
  case getpx | scroll | setrot | rdrow => exact isForm_of_plain (by simp) rfl (by simp) rfl

/-- A line in the form of a command is the command that its operands name. -/
theorem IsForm.assembleLine_eq {i : Instr} {mnemonic : List Char} {ops : List Int} {v : Option Bool}
    (hi : IsForm i mnemonic ops v) {blanks comment : List Char} (hb : blanks ≠ []) (hblanks : ∀ c ∈ blanks, c = ' ')
    (hcomment : comment = [] ∨ ∃ r, comment = ';' :: r) {texts : List (List Char)} {zs : List Int} (hzs : zs ≠ [])
    (htexts : List.Forall₂ Spells texts zs) :
    assembleLine (asmLine mnemonic blanks texts comment) = asmOfCommand (commandOf mnemonic zs) :=
  LineReads.assembleLine_eq <| LineParts.lineReads
    ⟨hi.mnemonic_ne, hi.tokens, hb, hblanks, hcomment, hzs, htexts.imp fun _ _ => parseOperand_of_spells⟩

/-- Settles O59: a line is assembled only to a well-formed command; one in the form of a command is taken apart into that
command's own mnemonic and operands, which name it, or nothing when the pixel value is another number (log entry 16). -/
theorem assembledLinesEncode : Obligations.AssembledLinesEncode := by
  constructor
  · intro line i h
    obtain ⟨hwf, mnemonic, ops, hi⟩ := assembleLine_eq_command h
    exact ⟨onlyCommand_commandOf mnemonic ops i hi, decode_encode hwf⟩
  · intro i mnemonic blanks comment ops v texts hform htexts hb hblanks hcomment
    have hi := isForm_of_asmForm hform
    have hpixel : List.Forall₂ Spells (v.toList.map fun b => [if b then '1' else '0']) (v.toList.map pixelOperand) := by
      cases v with
      | none => exact .nil
      | some b => exact .cons (spells_pixelOperand b) .nil
    have hline := hi.assembleLine_eq hb hblanks hcomment hi.operands_ne (List.rel_append htexts hpixel)
    rw [hi.names] at hline
    refine ⟨fun hwf => hline.trans (if_pos hwf), fun hwf => hline.trans (if_neg (by simp [hwf])), fun hv z h0 h1 => ?_⟩
    rw [hi.assembleLine_eq hb hblanks hcomment (by simp) (List.rel_append htexts (.cons (.inl rfl) .nil)), hi.pixel hv z h0 h1]
    rfl

end Sys2Proof.Machine
end

section
/-! PROOF. The FrameBuffer commands: the words each is read from, what each does to the store, and that none of them knows the
orientation (spec/41 R100 to R106, R108 to R111). -/

namespace Sys2Proof.Machine

/-! ## The words of one operation code -/

/-- Of the words with a row's operation code, those that meet the row are what it builds and the others meet no row. -/
theorem selects_of_row {k : Nat} {r : CommandRow} (hr : commandRows[k]? = some r) :
    Selects (opField r.pattern) r.pattern r.mask r.build := by
  intro w hop
  have hmem := List.mem_of_getElem? hr
  constructor
  · exact fun hw => decode_cmd64_eq_ok.2 (decodeCommand_of_row hmem hw)
  · intro hw
    refine decode_of_illegalWord ((illegalWord_iff w).2 fun r' hr' hw' => hw ?_)
    have hkeys : (commandRows.map fun r => opField r.pattern).Nodup := by decide
    have hsame : r' = r :=
      List.inj_on_of_nodup_map hkeys hr' hmem ((opField_of_commandRow hr' hw').symm.trans hop)
    exact hsame ▸ hw'

/-- Settles O5: the words are fixed, so the decoder runs on each. -/
theorem handWrittenWordsDecode : Obligations.HandWrittenWordsDecode := by
  unfold Obligations.HandWrittenWordsDecode
  decide

/-! ## Drawing a figure -/

theorem drawn_plotAll {n : Nat} {m : Memory} (hm : m.wf n) {ps : List (Int × Int)} {figure : Int → Int → Prop}
    (hps : ∀ px py, figure px py ↔ (px, py) ∈ ps) (v : Bool) : Drawn n m (m.plotAll n ps v) figure v := by
  refine ⟨fun px py hin hfig => ?_, fun px py hfig => ?_, fun i hi => ?_, Memory.wf_plotAll ps v hm⟩
  · rw [Memory.pixel?_plotAll ps v hm, if_pos ⟨hin, (hps px py).1 hfig⟩]
  · rw [Memory.pixel?_plotAll ps v hm, if_neg fun h => hfig ((hps px py).2 h.2)]
  · exact Memory.read_plotAll_of_ne ps v m i fun p hp hin => hi p.1 p.2 hin ((hps p.1 p.2).2 hp)

/-- A command that plots a list of pixels answers OK and draws the figure that the list holds. -/
theorem DrawsBy.figure {i : Instr} {s : State} {ps : List (Int × Int)} {v : Bool}
    (hi : DrawsBy s.modules i fun m => m.plotAll s.modules ps v) (hs : Memory.wf s.modules s.fb)
    {figure : Int → Int → Prop} (hps : ∀ px py, figure px py ↔ (px, py) ∈ ps) :
    ∃ m : Memory, exec i s = .next { s with fb := m, reply := some (.response .ok 0x00#8) } ∧
      Drawn s.modules s.fb m figure v :=
  ⟨s.fb.plotAll s.modules ps v, hi s rfl, drawn_plotAll hs hps v⟩

theorem drawsBy_hline (n : Nat) (x y w : Int) (v : Bool) :
    DrawsBy n (.hline x y w v) fun m => m.plotAll n (rectPixels x y w 1) v := fun _ hs => hs ▸ rfl

theorem drawsBy_vline (n : Nat) (x y h : Int) (v : Bool) :
    DrawsBy n (.vline x y h v) fun m => m.plotAll n (rectPixels x y 1 h) v := fun _ hs => hs ▸ rfl

theorem drawsBy_line (n : Nat) (x0 y0 x1 y1 : Int) (v : Bool) :
    DrawsBy n (.line x0 y0 x1 y1 v) fun m => m.plotAll n (linePixels x0 y0 x1 y1) v := fun _ hs => hs ▸ rfl

theorem drawsBy_fillrect (n : Nat) (x y w h : Int) (v : Bool) :
    DrawsBy n (.fillrect x y w h v) fun m => m.plotAll n (rectPixels x y w h) v := fun _ hs => hs ▸ rfl

theorem drawsBy_scroll (n : Nat) (dx dy : Int) : DrawsBy n (.scroll dx dy) fun m => m.scroll n dx dy :=
  fun _ hs => hs ▸ rfl

/-- The outline is the pixels of the rectangle that lie in its first or last column or row. -/
theorem mem_outlinePixels (x y w h px py : Int) :
    (px, py) ∈ outlinePixels x y w h ↔
      x ≤ px ∧ px < x + w ∧ y ≤ py ∧ py < y + h ∧ (px = x ∨ px = x + w - 1 ∨ py = y ∨ py = y + h - 1) := by
  unfold outlinePixels
  split
  · simp only [List.mem_append, mem_rectPixels]
    omega
  · simp only [List.not_mem_nil, false_iff]
    omega

/-! ## The commands -/

theorem exec_setpx_of_not_inBounds {s : State} {x y : Int} (h : ¬ InBounds s.modules x y) (v : Bool) :
    exec (.setpx x y v) s = raise .outOfRange s := if_neg h

theorem exec_getpx_of_not_inBounds {s : State} {x y : Int} (h : ¬ InBounds s.modules x y) :
    exec (.getpx x y) s = raise .outOfRange s := if_neg h

theorem exec_getpx_of_pixel {s : State} {x y : Int} {b : Bool} (hb : s.fb.pixel? s.modules x y = some b) :
    exec (.getpx x y) s = respond (pixelData b) s := by
  have hin : InBounds s.modules x y := by
    by_contra h
    exact absurd ((Memory.pixel?_of_not_inBounds h s.fb).symm.trans hb) nofun
  simp only [exec, execGetpx, if_pos hin, hb]

theorem exec_getpx_of_no_byte {s : State} {x y : Int} (hin : InBounds s.modules x y)
    (hnone : s.fb.pixel? s.modules x y = none) : exec (.getpx x y) s = .fault .outsideStore := by
  simp only [exec, execGetpx, if_pos hin, hnone]

/-- Where a pixel is in a byte of the store (rule R42). -/
theorem Memory.pixel?_of_read {m : Memory} {n : Nat} {x y : Int} (hin : InBounds n x y) {b : Byte}
    (hb : m.read (byteIndex n x y) = some b) : m.pixel? n x y = some (b.getLsbD (bitIndex x)) := by
  rw [Memory.pixel?, if_pos hin, hb, Option.map_some]

/-- Settles O10: the figure is the one pixel. -/
theorem setpxWritesOnePixel : Obligations.SetpxWritesOnePixel := by
  refine ⟨selects_of_row (k := 0) rfl, fun s x y v hs => ⟨fun hin => ?_, fun hout => exec_setpx_of_not_inBounds hout v⟩⟩
  exact (drawsBy_setpx hin v).figure hs fun px py => by rw [List.mem_singleton, Prod.mk.injEq]

/-- Settles O11: the pixel's byte is in the store, and the pixel is the bit of it that rule R42 says. -/
theorem getpxAnswersPixel : Obligations.GetpxAnswersPixel := by
  refine ⟨selects_of_row (k := 1) rfl, fun s x y hs => ⟨fun hin => ?_, exec_getpx_of_not_inBounds⟩⟩
  obtain ⟨b, hb⟩ := Option.isSome_iff_exists.1 ((Memory.read_wf hs _).2 (byteIndex_lt hin))
  exact ⟨b, hb, exec_getpx_of_pixel (Memory.pixel?_of_read hin hb)⟩

/-- Settles O12: every index of the store is written with the fill byte. -/
theorem fillSetsEveryByte : Obligations.FillSetsEveryByte := by
  refine ⟨selects_of_row (k := 2) rfl, fun s v hs => ?_⟩
  refine ⟨_, drawsBy_fill s.modules v s rfl, Memory.wf_fillAll hs _, fun i hi => ?_⟩
  exact (Memory.read_fillAll hs _ i).trans (if_pos hi)

/-- Settles O13: FILLRECT plots the pixels of its rectangle. -/
theorem fillrectDrawsRectangle : Obligations.FillrectDrawsRectangle :=
  ⟨selects_of_row (k := 7) rfl, fun s x y w h v hs =>
    (drawsBy_fillrect s.modules x y w h v).figure hs fun px py => (mem_rectPixels x y w h px py).symm⟩

/-- Settles O14: HLINE plots a rectangle of height 1. -/
theorem hlineDrawsRow : Obligations.HlineDrawsRow := by
  refine ⟨selects_of_row (k := 3) rfl, fun s x y w v hs => (drawsBy_hline s.modules x y w v).figure hs fun px py => ?_⟩
  rw [mem_rectPixels]
  omega

/-- Settles O15: VLINE plots a rectangle of width 1. -/
theorem vlineDrawsColumn : Obligations.VlineDrawsColumn := by
  refine ⟨selects_of_row (k := 4) rfl, fun s x y h v hs => (drawsBy_vline s.modules x y h v).figure hs fun px py => ?_⟩
  rw [mem_rectPixels]
  omega

/-- Settles O17: LINE plots its sequence, whatever the sequence is. -/
theorem lineDrawsItsPixels : Obligations.LineDrawsItsPixels :=
  ⟨selects_of_row (k := 5) rfl, fun s x0 y0 x1 y1 v hs =>
    (drawsBy_line s.modules x0 y0 x1 y1 v).figure hs fun _ _ => Iff.rfl⟩

/-- Settles O18: the four edges are one figure, drawn at once. -/
theorem rectDrawsOutline : Obligations.RectDrawsOutline :=
  ⟨selects_of_row (k := 6) rfl, fun s x y w h v hs =>
    (drawsBy_rect s.modules x y w h v).figure hs fun px py => (mem_outlinePixels x y w h px py).symm⟩

/-- Settles O19: each pixel is read from the store before the command; it has a value exactly where it is in bounds. -/
theorem scrollShiftsImage : Obligations.ScrollShiftsImage := by
  refine ⟨selects_of_row (k := 8) rfl, fun s dx dy hs => ?_⟩
  refine ⟨s.fb.scroll s.modules dx dy, drawsBy_scroll s.modules dx dy s rfl, Memory.wf_scroll hs dx dy, fun x y hin => ?_⟩
  rw [Memory.pixel?_scroll hs, if_pos hin]
  constructor
  · intro hsource
    obtain ⟨b, hb⟩ := Memory.pixel?_of_inBounds hs hsource
    rw [hb, Option.getD_some]
  · intro hsource
    rw [Memory.pixel?_of_not_inBounds hsource, Option.getD_none]

/-! ## The orientation -/

/-- A command that draws reads nothing of the state but the store and its size. -/
theorem DrawsBy.withRot {i : Instr} {s t : State} {f : Memory → Memory} (hi : DrawsBy s.modules i f)
    (ht : exec i s = .next t) (r : BitVec 2) : exec i (s.withRot r) = .next (t.withRot r) := by
  cases (hi s rfl).symm.trans ht
  exact hi (s.withRot r) rfl

theorem exec_setpx_withRot {x y : Int} {v : Bool} {s t : State} (ht : exec (.setpx x y v) s = .next t) (r : BitVec 2) :
    exec (.setpx x y v) (s.withRot r) = .next (t.withRot r) := by
  by_cases hin : InBounds s.modules x y
  · exact (drawsBy_setpx hin v).withRot ht r
  · cases (exec_setpx_of_not_inBounds hin v).symm.trans ht
    exact exec_setpx_of_not_inBounds (s := s.withRot r) hin v

theorem exec_getpx_withRot {x y : Int} {s t : State} (ht : exec (.getpx x y) s = .next t) (r : BitVec 2) :
    exec (.getpx x y) (s.withRot r) = .next (t.withRot r) := by
  by_cases hin : InBounds s.modules x y
  · cases hb : s.fb.pixel? s.modules x y with
    | some b =>
      cases (exec_getpx_of_pixel hb).symm.trans ht
      exact exec_getpx_of_pixel (s := s.withRot r) hb
    | none => cases (exec_getpx_of_no_byte hin hb).symm.trans ht
  · cases (exec_getpx_of_not_inBounds hin).symm.trans ht
    exact exec_getpx_of_not_inBounds (s := s.withRot r) hin

theorem isCommand_of_isFrameBufferCommand {i : Instr} (hi : isFrameBufferCommand i = true) : i.isCommand = true := by
  cases i with
  | setrot | rdrow => rfl
  | _ => exact hi

theorem exec_withRot {i : Instr} (hi : isFrameBufferCommand i = true) {s t : State} (ht : exec i s = .next t)
    (r : BitVec 2) : exec i (s.withRot r) = .next (t.withRot r) := by
  cases i with
  | setpx => exact exec_setpx_withRot ht r
  | getpx => exact exec_getpx_withRot ht r
  | fill v => exact (drawsBy_fill s.modules v).withRot ht r
  | hline x y w v => exact (drawsBy_hline s.modules x y w v).withRot ht r
  | vline x y h v => exact (drawsBy_vline s.modules x y h v).withRot ht r
  | line x0 y0 x1 y1 v => exact (drawsBy_line s.modules x0 y0 x1 y1 v).withRot ht r
  | rect x y w h v => exact (drawsBy_rect s.modules x y w h v).withRot ht r
  | fillrect x y w h v => exact (drawsBy_fillrect s.modules x y w h v).withRot ht r
  | scroll dx dy => exact (drawsBy_scroll s.modules dx dy).withRot ht r
  | _ => cases hi

/-- Settles O20: no command but SETROT writes `ROT`, and none of the FrameBuffer commands reads it. -/
theorem drawingIgnoresRotation : Obligations.DrawingIgnoresRotation := by
  intro i s t r hi ht
  obtain ⟨-, -, hrot⟩ := commandsTouchOnlyTheBlock.1 i s t (isCommand_of_isFrameBufferCommand hi) ht
  refine ⟨hrot ?_, exec_withRot hi ht r⟩
  rintro deg rfl
  cases hi

end Sys2Proof.Machine
end

section
/-! PROOF. The pixels of a line are a run of one cursor, which crosses the longer axis one pixel a step and is on the end pixel
just then (spec/41 R107). -/

namespace Sys2Proof.Machine

/-- The loop variables of rule R107. -/
structure LineCursor where
  x : Int
  y : Int
  err : Int

/-- One pass of the loop of rule R107: `err` before the pass decides both moves. -/
def LineCursor.next (dx dy sx sy : Int) (c : LineCursor) : LineCursor where
  x := c.x + if 2 * c.err ≥ dy then sx else 0
  y := c.y + if 2 * c.err ≤ dx then sy else 0
  err := c.err + (if 2 * c.err ≥ dy then dy else 0) + (if 2 * c.err ≤ dx then dx else 0)

/-- The same cursor with the axes exchanged; the error term counts the other way. -/
def LineCursor.swap (c : LineCursor) : LineCursor := ⟨c.y, c.x, -c.err⟩

theorem LineCursor.next_swap (dx dy sx sy : Int) (c : LineCursor) :
    c.swap.next (-dy) (-dx) sy sx = (c.next dx dy sx sy).swap := by
  have hx : 2 * -c.err ≤ -dy ↔ 2 * c.err ≥ dy := by omega
  have hy : 2 * -c.err ≥ -dx ↔ 2 * c.err ≤ dx := by omega
  simp only [LineCursor.next, LineCursor.swap, hx, hy, LineCursor.mk.injEq, true_and]
  split <;> split <;> omega

/-- The step along an axis from `a` towards `b`. -/
def unitStep (a b : Int) : Int := if a < b then 1 else -1

/-- As many steps as the distance says lead from `a` to `b`. -/
theorem add_natAbs_mul_unitStep (a b : Int) : a + (b - a).natAbs * unitStep a b = b := by
  unfold unitStep
  split <;> omega

/-- Fewer steps do not. -/
theorem add_mul_unitStep_ne {a b : Int} {k : Nat} (hk : k < (b - a).natAbs) : a + k * unitStep a b ≠ b := by
  unfold unitStep
  split <;> omega

/-- The cursor after `k` passes on the line from `(x0, y0)` to `(x1, y1)`. -/
def lineCursor (x0 y0 x1 y1 : Int) : Nat → LineCursor
  | 0 => ⟨x0, y0, (x1 - x0).natAbs - (y1 - y0).natAbs⟩
  | k + 1 => (lineCursor x0 y0 x1 y1 k).next (x1 - x0).natAbs (-(y1 - y0).natAbs) (unitStep x0 x1) (unitStep y0 y1)

theorem lineCursor_swap (x0 y0 x1 y1 : Int) (k : Nat) :
    lineCursor y0 x0 y1 x1 k = (lineCursor x0 y0 x1 y1 k).swap := by
  induction k with
  | zero => simp only [lineCursor, LineCursor.swap, Int.neg_sub]
  | succ k ih => rw [lineCursor, ih, lineCursor, ← LineCursor.next_swap, Int.neg_neg]

/-! ## The list is a run of the cursor -/

theorem lineFrom_succ (x1 y1 dx dy sx sy : Int) (fuel : Nat) (c : LineCursor) :
    lineFrom x1 y1 dx dy sx sy (fuel + 1) c.x c.y c.err =
      (c.x, c.y) :: if c.x = x1 ∧ c.y = y1 then [] else
        lineFrom x1 y1 dx dy sx sy fuel (c.next dx dy sx sy).x (c.next dx dy sx sy).y (c.next dx dy sx sy).err := by
  simp only [lineFrom, LineCursor.next, add_ite, add_zero]

/-- The loop that does not stop early lists the cursor pass by pass, one pixel for each unit of fuel. -/
theorem lineFrom_lineCursor {x0 y0 x1 y1 : Int} {fuel k : Nat}
    (h : ∀ j < k + fuel, ¬ ((lineCursor x0 y0 x1 y1 j).x = x1 ∧ (lineCursor x0 y0 x1 y1 j).y = y1)) :
    lineFrom x1 y1 (x1 - x0).natAbs (-(y1 - y0).natAbs) (unitStep x0 x1) (unitStep y0 y1) (fuel + 1)
        (lineCursor x0 y0 x1 y1 k).x (lineCursor x0 y0 x1 y1 k).y (lineCursor x0 y0 x1 y1 k).err =
      (List.range' k (fuel + 1)).map fun j => ((lineCursor x0 y0 x1 y1 j).x, (lineCursor x0 y0 x1 y1 j).y) := by
  induction fuel generalizing k with
  | zero => rw [lineFrom_succ]; simp [lineFrom]
  | succ fuel ih =>
    rw [lineFrom_succ, if_neg (h k (by omega)), List.range'_succ, List.map_cons]
    exact congrArg (_ :: ·) (ih (k := k + 1) fun j hj => h j (by omega))

/-! ## Where the cursor is -/

/-- Where `x` is the longer axis, after `k` passes: `x` has moved every time, `y` some `j` of them, and the error term, which
counts both, is in the band in which `x` moves again. -/
theorem lineCursor_of_xMajor {x0 y0 x1 y1 : Int} (hmajor : (y1 - y0).natAbs ≤ (x1 - x0).natAbs) (k : Nat) :
    (lineCursor x0 y0 x1 y1 k).x = x0 + k * unitStep x0 x1 ∧
    (∃ j : Nat, j ≤ k ∧ (lineCursor x0 y0 x1 y1 k).y = y0 + j * unitStep y0 y1 ∧
      (lineCursor x0 y0 x1 y1 k).err = (j + 1) * (x1 - x0).natAbs - (k + 1) * (y1 - y0).natAbs) ∧
    -((y1 - y0).natAbs : Int) ≤ 2 * (lineCursor x0 y0 x1 y1 k).err ∧
    2 * (lineCursor x0 y0 x1 y1 k).err ≤ 3 * (x1 - x0).natAbs - 2 * (y1 - y0).natAbs := by
  induction k with
  | zero =>
    simp only [lineCursor]
    exact ⟨by simp, ⟨0, le_rfl, by simp, by simp⟩, by omega, by omega⟩
  | succ k ih =>
    obtain ⟨hx, ⟨j, hj, hy, herr⟩, hlow, hhigh⟩ := ih
    simp only [lineCursor, LineCursor.next, if_pos hlow]
    by_cases hmove : 2 * (lineCursor x0 y0 x1 y1 k).err ≤ (x1 - x0).natAbs
    · simp only [if_pos hmove]
      refine ⟨?_, ⟨j + 1, by omega, ?_, ?_⟩, by omega, by omega⟩
      · rw [hx]; push_cast; ring
      · rw [hy]; push_cast; ring
      · rw [herr]; push_cast; ring
    · simp only [if_neg hmove]
      refine ⟨?_, ⟨j, by omega, ?_, ?_⟩, by omega, by omega⟩
      · rw [hx]; push_cast; ring
      · rw [hy, Int.add_zero]
      · rw [herr]; push_cast; ring

/-- The band of the error term leaves one value for the moves along the shorter axis at the end of the longer one. -/
theorem moves_eq_of_band {DX DY j : Nat} (hj : j ≤ DX) (hlow : -(DY : Int) ≤ 2 * ((j + 1) * DX - (DX + 1) * DY))
    (hhigh : 2 * ((j + 1) * DX - (DX + 1) * DY) ≤ 3 * (DX : Int) - 2 * DY) :
    j = DY := by
  rcases lt_trichotomy j DY with hlt | heq | hgt
  · have : ((j : Int) + 1) * DX ≤ DY * DX := mul_le_mul_of_nonneg_right (by omega) (by omega)
    linarith
  · exact heq
  · have : ((DY : Int) + 2) * DX ≤ (j + 1) * DX := mul_le_mul_of_nonneg_right (by omega) (by omega)
    linarith

theorem lineCursor_not_end_of_xMajor {x0 y0 x1 y1 : Int} (hmajor : (y1 - y0).natAbs ≤ (x1 - x0).natAbs) {k : Nat}
    (hk : k < (x1 - x0).natAbs) : (lineCursor x0 y0 x1 y1 k).x ≠ x1 := by
  obtain ⟨hx, -⟩ := lineCursor_of_xMajor hmajor k
  exact hx ▸ add_mul_unitStep_ne hk

theorem lineCursor_end_of_xMajor {x0 y0 x1 y1 : Int} (hmajor : (y1 - y0).natAbs ≤ (x1 - x0).natAbs) :
    (lineCursor x0 y0 x1 y1 (x1 - x0).natAbs).x = x1 ∧ (lineCursor x0 y0 x1 y1 (x1 - x0).natAbs).y = y1 := by
  obtain ⟨hx, ⟨j, hj, hy, herr⟩, hlow, hhigh⟩ := lineCursor_of_xMajor hmajor (x1 - x0).natAbs
  rw [herr] at hlow hhigh
  rw [hx, hy, moves_eq_of_band hj hlow hhigh]
  exact ⟨add_natAbs_mul_unitStep x0 x1, add_natAbs_mul_unitStep y0 y1⟩

/-- Along the longer axis the cursor moves every time. -/
theorem lineCursor_moves_of_xMajor {x0 y0 x1 y1 : Int} (hmajor : (y1 - y0).natAbs ≤ (x1 - x0).natAbs) (k : Nat) :
    (lineCursor x0 y0 x1 y1 (k + 1)).x = (lineCursor x0 y0 x1 y1 k).x + unitStep x0 x1 := by
  obtain ⟨-, -, hlow, -⟩ := lineCursor_of_xMajor hmajor k
  exact congrArg (_ + ·) (if_pos hlow)

/-! ## Both axes -/

theorem lineCursor_not_end {x0 y0 x1 y1 : Int} {k : Nat} (hk : k < max (x1 - x0).natAbs (y1 - y0).natAbs) :
    ¬ ((lineCursor x0 y0 x1 y1 k).x = x1 ∧ (lineCursor x0 y0 x1 y1 k).y = y1) := by
  rintro ⟨hx, hy⟩
  rcases le_total (y1 - y0).natAbs (x1 - x0).natAbs with hmajor | hmajor
  · exact lineCursor_not_end_of_xMajor hmajor (max_eq_left hmajor ▸ hk) hx
  · refine lineCursor_not_end_of_xMajor hmajor (max_eq_right hmajor ▸ hk) ?_
    rw [lineCursor_swap]
    exact hy

theorem lineCursor_end (x0 y0 x1 y1 : Int) :
    (lineCursor x0 y0 x1 y1 (max (x1 - x0).natAbs (y1 - y0).natAbs)).x = x1 ∧
    (lineCursor x0 y0 x1 y1 (max (x1 - x0).natAbs (y1 - y0).natAbs)).y = y1 := by
  rcases le_total (y1 - y0).natAbs (x1 - x0).natAbs with hmajor | hmajor
  · rw [max_eq_left hmajor]
    exact lineCursor_end_of_xMajor hmajor
  · rw [max_eq_right hmajor]
    have h := lineCursor_end_of_xMajor hmajor
    rw [lineCursor_swap] at h
    exact h.symm

theorem lineCursor_moves_of_yMajor {x0 y0 x1 y1 : Int} (hmajor : (x1 - x0).natAbs ≤ (y1 - y0).natAbs) (k : Nat) :
    (lineCursor x0 y0 x1 y1 (k + 1)).y = (lineCursor x0 y0 x1 y1 k).y + unitStep y0 y1 := by
  have h := lineCursor_moves_of_xMajor hmajor k
  rw [lineCursor_swap, lineCursor_swap x0] at h
  exact h

theorem linePixels_eq (x0 y0 x1 y1 : Int) :
    linePixels x0 y0 x1 y1 = (List.range (max (x1 - x0).natAbs (y1 - y0).natAbs + 1)).map fun k =>
      ((lineCursor x0 y0 x1 y1 k).x, (lineCursor x0 y0 x1 y1 k).y) := by
  rw [List.range_eq_range']
  exact lineFrom_lineCursor (k := 0) fun j hj => lineCursor_not_end (by omega)

theorem getElem?_linePixels {x0 y0 x1 y1 : Int} {k : Nat} {p : Int × Int} (h : (linePixels x0 y0 x1 y1)[k]? = some p) :
    p = ((lineCursor x0 y0 x1 y1 k).x, (lineCursor x0 y0 x1 y1 k).y) := by
  rw [linePixels_eq, List.getElem?_map] at h
  obtain ⟨j, hj, hp⟩ := Option.map_eq_some_iff.1 h
  obtain ⟨_, rfl⟩ := List.getElem?_eq_some_iff.1 hj
  rw [← hp, List.getElem_range]

/-- Settles O16: the sequence is a run of the cursor as long as the longer axis, and the cursor's error term is the rule's. -/
theorem linePixelsShape : Obligations.LinePixelsShape := by
  intro x0 y0 x1 y1
  refine ⟨by rw [linePixels_eq, List.length_map, List.length_range], ?_, ?_, ?_, ?_⟩
  · rw [linePixels_eq, List.range_succ_eq_map]
    rfl
  · obtain ⟨hx, hy⟩ := lineCursor_end x0 y0 x1 y1
    rw [linePixels_eq, List.range_succ, List.map_append, List.map_singleton, List.getLast?_concat, hx, hy]
  · intro k p q hp hq
    rw [getElem?_linePixels hp, getElem?_linePixels hq]
    refine ⟨fun hmajor => ⟨lineCursor_moves_of_xMajor hmajor k, ?_⟩, fun hmajor => ⟨lineCursor_moves_of_yMajor hmajor k, ?_⟩⟩
    · simp only [lineCursor, LineCursor.next, unitStep]
      split <;> simp
    · simp only [lineCursor, LineCursor.next, unitStep]
      split <;> simp
  · refine ⟨fun k => (lineCursor x0 y0 x1 y1 k).err, rfl, fun _ => rfl, fun k p q hp hq => ?_⟩
    rw [getElem?_linePixels hp, getElem?_linePixels hq]
    exact ⟨rfl, rfl⟩

end Sys2Proof.Machine
end

section
/-! PROOF. The rotation multiplexer: the laws and domains of the transforms, SETROT, the row byte RDROW answers, and the
source's painting (spec/42 R130 to R141). -/

namespace Sys2Proof.Machine

/-! ## The transforms, orientation by orientation (rules R130 and R137) -/

@[simp] theorem rotate_0 (n : Nat) (x y : Int) : rotate n 0#2 x y = (x, y) := rfl
@[simp] theorem rotate_90 (n : Nat) (x y : Int) : rotate n 1#2 x y = (8 - 1 - y, x) := rfl
@[simp] theorem rotate_180 (n : Nat) (x y : Int) : rotate n 2#2 x y = (8 * (n : Int) - 1 - x, 8 - 1 - y) := rfl
@[simp] theorem rotate_270 (n : Nat) (x y : Int) : rotate n 3#2 x y = (y, 8 * (n : Int) - 1 - x) := rfl

@[simp] theorem unrotate_0 (n : Nat) (u v : Int) : unrotate n 0#2 u v = (u, v) := rfl
@[simp] theorem unrotate_90 (n : Nat) (u v : Int) : unrotate n 1#2 u v = (v, 8 - 1 - u) := rfl
@[simp] theorem unrotate_180 (n : Nat) (u v : Int) : unrotate n 2#2 u v = (8 * (n : Int) - 1 - u, 8 - 1 - v) := rfl
@[simp] theorem unrotate_270 (n : Nat) (u v : Int) : unrotate n 3#2 u v = (8 * (n : Int) - 1 - v, u) := rfl

/-- For one module the inverse of a turn is the turn that is left of a whole one. -/
theorem unrotate_one_module (r : BitVec 2) (u v : Int) : unrotate 1 r u v = rotate 1 (-r) u v := by
  obtain rfl | rfl | rfl | rfl := rot_cases r <;> rfl

/-- For one module a quarter turn more is the next orientation. -/
theorem rotate_90_rotate (r : BitVec 2) (x y : Int) :
    rotate 1 1#2 (rotate 1 r x y).1 (rotate 1 r x y).2 = rotate 1 (r + 1#2) x y := by
  obtain rfl | rfl | rfl | rfl := rot_cases r <;> simp

/-- Two quarter turns are the point reflection of the first eight columns, whatever the width. -/
theorem rotate_90_twice (n : Nat) (x y : Int) :
    rotate n 1#2 (rotate n 1#2 x y).1 (rotate n 1#2 x y).2 = (8 - 1 - x, 8 - 1 - y) := rfl

/-- Settles O21: two quarter turns are a point reflection, which undoes itself; for one module the inverse of `T_r` is
`T_{-r}`. -/
theorem quarterTurnLaws : Obligations.QuarterTurnLaws := by
  refine ⟨fun n x y => ?_, fun x y r _ => rotate_90_rotate r x y, fun x y => ⟨?_, ?_, ?_⟩⟩
  · simp only [rotate_90_twice, sub_sub_cancel]
  · exact (unrotate_one_module 3#2 _ _).symm.trans (unrotate_rotate 1 3#2 x y)
  · exact (unrotate_one_module 1#2 _ _).symm.trans (unrotate_rotate 1 1#2 x y)
  · exact (unrotate_one_module 2#2 _ _).symm.trans (unrotate_rotate 1 2#2 x y)

/-! ## Their domains (rule R131) -/

/-- The coordinates that `T_r` maps the store onto: the store itself, or for a quarter turn the store with width and height
swapped. -/
def InImage (n : Nat) (r : BitVec 2) (u v : Int) : Prop :=
  ((r = 0#2 ∨ r = 2#2) ∧ InBounds n u v) ∨
    ((r = 1#2 ∨ r = 3#2) ∧ 0 ≤ u ∧ u < 8 ∧ 0 ≤ v ∧ v < 8 * (n : Int))

theorem inImage_rotate {n : Nat} {r : BitVec 2} {x y : Int} (h : InBounds n x y) :
    InImage n r (rotate n r x y).1 (rotate n r x y).2 := by
  obtain rfl | rfl | rfl | rfl := rot_cases r
  · exact .inl ⟨.inl rfl, h⟩
  · refine .inr ⟨.inl rfl, ?_⟩
    rw [rotate_90]
    omega
  · refine .inl ⟨.inr rfl, ?_⟩
    rw [rotate_180]
    omega
  · refine .inr ⟨.inr rfl, ?_⟩
    rw [rotate_270]
    omega

theorem inBounds_unrotate {n : Nat} {r : BitVec 2} {u v : Int} (h : InImage n r u v) :
    InBounds n (unrotate n r u v).1 (unrotate n r u v).2 := by
  obtain ⟨rfl | rfl, hin⟩ | ⟨rfl | rfl, hin⟩ := h
  · exact hin
  · rw [unrotate_180]
    omega
  · rw [unrotate_90]
    omega
  · rw [unrotate_270]
    omega

/-- Every coordinate of the image comes from one pixel of the store, the one the inverse transform gives. -/
theorem existsUnique_rotate_eq {n : Nat} {r : BitVec 2} {u v : Int} (h : InImage n r u v) :
    ∃ x y, InBounds n x y ∧ rotate n r x y = (u, v) ∧
      ∀ x' y', InBounds n x' y' → rotate n r x' y' = (u, v) → x' = x ∧ y' = y := by
  refine ⟨_, _, inBounds_unrotate h, rotate_unrotate n r u v, fun x' y' _ hxy => ?_⟩
  have hback := unrotate_rotate n r x' y'
  rw [hxy] at hback
  rw [hback]
  exact ⟨rfl, rfl⟩

/-- A quarter turn takes some pixel to row `W - 1`, which is a row of the store only when `W = 8`. -/
theorem quarterTurn_inBounds_iff {n : Nat} (hn : 1 ≤ n) {r : BitVec 2} (hr : r = 1#2 ∨ r = 3#2) :
    (∀ x y, InBounds n x y → InBounds n (rotate n r x y).1 (rotate n r x y).2) ↔ n = 1 := by
  constructor
  · intro h
    have hlast : InImage n r 0 (8 * (n : Int) - 1) := .inr ⟨hr, by omega⟩
    have hin := h _ _ (inBounds_unrotate hlast)
    rw [rotate_unrotate] at hin
    omega
  · rintro rfl x y h
    exact rotate_inBounds (fun hgt => absurd hgt (lt_irrefl 1)) h

theorem not_quarter_of_half {r : BitVec 2} (hr : r = 0#2 ∨ r = 2#2) : ¬ (r = 1#2 ∨ r = 3#2) := by
  revert r; decide

/-- Settles O22: the inverse transform gives the one pixel behind each coordinate of the image. -/
theorem rotationDomain : Obligations.RotationDomain := by
  refine fun n r hn => ⟨fun x y h => ?_, fun u v h => existsUnique_rotate_eq h,
    quarterTurn_inBounds_iff hn (.inl rfl), quarterTurn_inBounds_iff hn (.inr rfl)⟩
  obtain ⟨hr, hin⟩ | ⟨hr, hin⟩ := inImage_rotate (r := r) h
  · exact ⟨fun _ => hin, fun hquarter => absurd hquarter (not_quarter_of_half hr)⟩
  · exact ⟨fun hhalf => absurd hr (not_quarter_of_half hhalf), fun _ => hin⟩

/-! ## SETROT -/

/-- The four orientations in degrees are accepted as such, and each is kept as its code (rules R134 and R136). -/
theorem orientation_of_code (r : BitVec 2) :
    IsOrientation (90 * (r.toNat : Int)) ∧ orientationCode (90 * (r.toNat : Int)) = r := by
  revert r; decide

theorem not_isQuarterTurn_of_code {r : BitVec 2} (hr : r = 0#2 ∨ r = 2#2) : ¬ IsQuarterTurn (90 * (r.toNat : Int)) := by
  revert r; decide

theorem execSetrot_refused {deg : Int} {s : State}
    (h : ¬ IsOrientation deg ∨ (s.modules > 1 ∧ IsQuarterTurn deg)) :
    execSetrot deg s = raise .invalidConfiguration s := by
  unfold execSetrot
  split
  · rfl
  next hdeg => rw [if_pos (h.resolve_left hdeg)]

/-- Settles O23: the accepted degrees are `90 * r` for the four codes `r`; SETROT accepts or refuses. -/
theorem setrotWritesOrientation : Obligations.SetrotWritesOrientation := by
  refine ⟨selects_of_row (k := 9) rfl, fun s deg => ⟨?_, fun hbad => execSetrot_refused (by omega)⟩⟩
  rintro r rfl hquarter
  obtain ⟨hdeg, hcode⟩ := orientation_of_code r
  have haccepted := execSetrot_accepted hdeg fun hn => not_isQuarterTurn_of_code (hquarter hn)
  rwa [hcode] at haccepted

/-! ## RDROW -/

theorem exec_rdrow_of_not_inRange {s : State} {y m : Int} (h : y < 0 ∨ y ≥ 8 ∨ m < 0 ∨ m ≥ s.modules) :
    exec (.rdrow y m) s = raise .outOfRange s := if_pos h

theorem exec_rdrow_of_rowByte {s : State} {y m : Int} (h : 0 ≤ y ∧ y < 8 ∧ 0 ≤ m ∧ m < s.modules) {d : Byte}
    (hd : s.fb.rowByte? s.modules s.rot y m = some d) : exec (.rdrow y m) s = respond d s := by
  change execRdrow y m s = _
  unfold execRdrow
  rw [if_neg (by omega), hd]

/-- The transmitted image, orientation by orientation (rule R137). -/
theorem Memory.image?_eq (m : Memory) (n : Nat) (r : BitVec 2) (u v : Int) :
    m.image? n r u v =
      if r = 0#2 then m.pixel? n u v
      else if r = 1#2 then m.pixel? n v (8 - 1 - u)
      else if r = 2#2 then m.pixel? n (8 * n - 1 - u) (8 - 1 - v)
      else m.pixel? n (8 * n - 1 - v) u := by
  rw [Memory.image?]
  obtain rfl | rfl | rfl | rfl := rot_cases r <;> simp

/-- Settles O24: in range the row byte holds eight pixels of the image, and the image reads the store at the inverse
transform. -/
theorem rdrowAnswersImageRow : Obligations.RdrowAnswersImageRow := by
  refine ⟨selects_of_row (k := 10) rfl, fun s y m hs => ⟨fun hin => ?_, exec_rdrow_of_not_inRange⟩⟩
  obtain ⟨-, -, hwf, hrot, -⟩ := hs
  obtain ⟨hy0, hy8, hm0, hmn⟩ := hin
  obtain ⟨d, hd, hbits⟩ := Memory.rowByte?_of_readable hwf hrot ⟨hy0, hy8⟩ ⟨hm0, hmn⟩
  refine ⟨d, exec_rdrow_of_rowByte ⟨hy0, hy8, hm0, hmn⟩ hd, fun i hi => ?_⟩
  rw [← hbits i hi, Memory.image?_eq]

/-! ## RDROW at 0° (rule R140) -/

/-- The eight pixels of row `y` in module `k` are in one byte (rule R43). -/
theorem byteIndex_of_row (n y k : Nat) {i : Nat} (hi : i < 8) : byteIndex n (8 * (k : Int) + i) y = y * n + k := by
  have hx : (8 * (k : Int) + i).toNat / 8 = k := by omega
  rw [byteIndex, Int.toNat_natCast, hx]

theorem bitIndex_of_row (k : Nat) {i : Nat} (hi : i < 8) : bitIndex (8 * (k : Int) + i) = 7 - i := by
  have hx : (8 * (k : Int) + i).toNat % 8 = i := by omega
  rw [bitIndex, hx]

/-- Byte `y * n + k` of the store holds pixels `8k` to `8k + 7` of row `y`, the first in its highest bit (rule R42). -/
theorem Memory.pixel?_of_row {m : Memory} {n y k : Nat} (hy : y < 8) (hk : k < n) {b : Byte}
    (hb : m.read (y * n + k) = some b) {i : Nat} (hi : i < 8) :
    m.pixel? n (8 * (k : Int) + i) y = some (b.getLsbD (7 - i)) := by
  have hin : InBounds n (8 * (k : Int) + i) y := by omega
  rw [← byteIndex_of_row n y k hi] at hb
  rw [Memory.pixel?_of_read hin hb, bitIndex_of_row k hi]

/-- Unrotated, the row byte is the stored byte. -/
theorem Memory.rowByte?_0 {m : Memory} {n y k : Nat} (hy : y < 8) (hk : k < n) {b : Byte}
    (hb : m.read (y * n + k) = some b) : m.rowByte? n 0#2 y k = some b := by
  have himage : ∀ i : Nat, i < 8 → m.image? n 0#2 (8 * (k : Int) + i) y = some (b.getLsbD (7 - i)) :=
    fun i hi => Memory.pixel?_of_row hy hk hb hi
  obtain ⟨d, hd, hbits⟩ := Memory.rowByte?_of fun i hi => Option.isSome_of_eq_some (himage i hi)
  have hbit : ∀ i < 8, d.getLsbD i = b.getLsbD i := fun i hi => by
    have h := (hbits (7 - i) (by omega)).symm.trans (himage (7 - i) (by omega))
    rwa [Option.some.injEq, Nat.sub_sub_self (by omega)] at h
  rw [hd, BitVec.eq_of_getLsbD_eq hbit]

/-- Settles O25: the row byte at 0° is the stored byte, pixel by pixel. -/
theorem rdrowBaselineIsStoredByte : Obligations.RdrowBaselineIsStoredByte := by
  intro s y m ⟨_, _, hwf, _⟩ hrot hy hm
  have hin : InBounds s.modules (8 * (m : Int) + (0 : Nat)) y := by omega
  have hlt := byteIndex_lt hin
  rw [byteIndex_of_row s.modules y m (Nat.zero_lt_succ 7)] at hlt
  obtain ⟨b, hb⟩ := Option.isSome_iff_exists.1 ((Memory.read_wf hwf _).2 hlt)
  have hrow := Memory.rowByte?_0 hy hm hb
  rw [← hrot] at hrow
  exact ⟨b, hb, exec_rdrow_of_rowByte (by omega) hrow⟩

/-! ## The source's painting (rule R141) -/

/-- Where every pixel is painted, in the order of the store. -/
def paintedPixels (n : Nat) (r : BitVec 2) : List (Int × Int) := (storePixels n).map fun p => rotate n r p.1 p.2

/-- In a readable orientation the store is painted onto itself. -/
theorem mem_paintedPixels {n : Nat} {r : BitVec 2} (hr : Readable n r) (u v : Int) :
    (u, v) ∈ paintedPixels n r ↔ InBounds n u v := by
  constructor
  · intro h
    obtain ⟨p, hp, hpuv⟩ := List.mem_map.1 h
    have hin := rotate_inBounds hr ((mem_storePixels n p.1 p.2).1 hp)
    rwa [hpuv] at hin
  · intro h
    exact List.mem_map.2 ⟨_, (mem_storePixels n _ _).2 (unrotate_inBounds hr h), rotate_unrotate n r u v⟩

/-- Painting sets each painted pixel to the image there: no pixel is clipped, and the forward transform is undone by the
inverse one. -/
theorem Memory.paint_eq {n : Nat} {r : BitVec 2} (hr : Readable n r) (m scratch : Memory) :
    m.paint n r scratch =
      (paintedPixels n r).foldl (fun sc q => sc.setPixel n q.1 q.2 ((m.image? n r q.1 q.2).getD false)) scratch := by
  rw [paintedPixels, List.foldl_map, Memory.paint]
  refine List.foldl_ext _ _ _ fun sc p hp => ?_
  rw [Memory.plot, if_pos (rotate_inBounds hr ((mem_storePixels n p.1 p.2).1 hp)), Memory.image?, unrotate_rotate]

/-- Settles O26: the painted pixels are those of the store, each painted with the image, so nothing of the scratch store
shows. -/
theorem paintedScratchIsImage : Obligations.PaintedScratchIsImage := by
  intro s scratch ⟨_, _, hwf, hrot, _⟩ hscratch
  obtain ⟨hpaint, hpixel⟩ := Memory.foldl_setPixel (fun u v => (s.fb.image? s.modules s.rot u v).getD false)
    (paintedPixels s.modules s.rot) hscratch fun p hp => (mem_paintedPixels hrot p.1 p.2).1 hp
  rw [Memory.paint_eq hrot]
  refine ⟨hpaint, fun u v hin => ?_⟩
  obtain ⟨b, hb⟩ : ∃ b, s.fb.image? s.modules s.rot u v = some b :=
    Memory.pixel?_of_inBounds hwf (unrotate_inBounds hrot hin)
  refine ⟨⟨b, hb⟩, ?_⟩
  rw [hpixel, if_pos ((mem_paintedPixels hrot u v).2 hin), hb, Option.getD_some]

end Sys2Proof.Machine
end

section
/-! PROOF. The pattern codec: LOADMATRIX, DUMPMATRIX and LOADPATTERN by pixel, and the text rules SplitLines and Trim (spec/43
R151 to R158). -/

namespace Sys2Proof.Machine

/-! ## The cells of a grid -/

theorem gridCell_of_getElem? {grid : List (List GridCell)} {x y : Nat} {row : List GridCell} {cell : GridCell}
    (hrow : grid[y]? = some row) (hcell : row[x]? = some cell) : gridCell grid x y = truthy cell := by
  simp only [gridCell, hrow, hcell]

/-- A grid lights a pixel only through a cell it has there. -/
theorem gridCell_eq_true {grid : List (List GridCell)} {x y : Nat} :
    gridCell grid x y = true ↔ ∃ row cell, grid[y]? = some row ∧ row[x]? = some cell ∧ truthy cell = true := by
  constructor
  · intro h
    unfold gridCell at h
    split at h
    · cases h
    next row hrow =>
      split at h
      · cases h
      next cell hcell => exact ⟨row, cell, hrow, hcell, h⟩
  · rintro ⟨row, cell, hrow, hcell, htrue⟩
    exact (gridCell_of_getElem? hrow hcell).trans htrue

/-! ## The commands of a grid (rule R151) -/

/-- A row is one SETPX for each of its cells left of column `W`. -/
theorem mem_rowCommands {n r c : Nat} {cells : List GridCell} {i : Instr} :
    i ∈ rowCommands n r c cells ↔
      ∃ k cell, cells[k]? = some cell ∧ c + k < 8 * n ∧ i = .setpx ((c + k : Nat) : Int) r (truthy cell) := by
  induction cells generalizing c with
  | nil => simp [rowCommands]
  | cons cell cells ih =>
    unfold rowCommands
    split
    next hc =>
      rw [List.mem_cons, ih]
      conv_rhs => rw [← Nat.or_exists_add_one]
      simp [hc, Nat.add_assoc, Nat.add_comm 1]
    next hc =>
      refine iff_of_false List.not_mem_nil ?_
      rintro ⟨k, _, _, hk, _⟩
      omega

/-- A grid is the rows above row 8 one after another. -/
theorem mem_gridCommands {n r : Nat} {grid : List (List GridCell)} {i : Instr} :
    i ∈ gridCommands n r grid ↔ ∃ j row, grid[j]? = some row ∧ r + j < 8 ∧ i ∈ rowCommands n (r + j) 0 row := by
  induction grid generalizing r with
  | nil => simp [gridCommands]
  | cons row rows ih =>
    unfold gridCommands
    split
    next hr =>
      rw [List.mem_append, ih]
      conv_rhs => rw [← Nat.or_exists_add_one]
      simp [hr, Nat.add_assoc, Nat.add_comm 1]
    next hr =>
      refine iff_of_false List.not_mem_nil ?_
      rintro ⟨j, _, _, hj, _⟩
      omega

/-- The SETPX that a grid gives pixel `(x, y)`. -/
def cellCommand (grid : List (List GridCell)) (x y : Nat) : Instr := .setpx x y (gridCell grid x y)

theorem cellCommand_of_mem {n : Nat} {grid : List (List GridCell)} {i : Instr} (hi : i ∈ gridCommands n 0 grid) :
    ∃ x y, x < 8 * n ∧ y < 8 ∧ i = cellCommand grid x y := by
  obtain ⟨y, row, hrow, hy, hi⟩ := mem_gridCommands.1 hi
  obtain ⟨x, cell, hcell, hx, rfl⟩ := mem_rowCommands.1 hi
  rw [Nat.zero_add] at hx hy
  refine ⟨x, y, hx, hy, ?_⟩
  rw [cellCommand, gridCell_of_getElem? hrow hcell, Nat.zero_add, Nat.zero_add]

/-- Every pixel that the grid lights has its SETPX. -/
theorem cellCommand_mem {n : Nat} {grid : List (List GridCell)} {x y : Nat} (hx : x < 8 * n) (hy : y < 8)
    (hlit : gridCell grid x y = true) : cellCommand grid x y ∈ gridCommands n 0 grid := by
  obtain ⟨row, cell, hrow, hcell, -⟩ := gridCell_eq_true.1 hlit
  refine mem_gridCommands.2 ⟨y, row, hrow, by omega, mem_rowCommands.2 ⟨x, cell, hcell, by omega, ?_⟩⟩
  rw [cellCommand, gridCell_of_getElem? hrow hcell, Nat.zero_add, Nat.zero_add]

/-! ## LOADMATRIX -/

theorem inBounds_natCast {n x y : Nat} (hx : x < 8 * n) (hy : y < 8) : InBounds n x y := by omega

theorem exec_cellCommand {grid : List (List GridCell)} {s : State} {x y : Nat} (hx : x < 8 * s.modules) (hy : y < 8) :
    exec (cellCommand grid x y) s =
      respond 0x00#8 (s.withFb (s.fb.setPixel s.modules x y (gridCell grid x y))) := if_pos (inBounds_natCast hx hy)

theorem cellCommand_inj {grid : List (List GridCell)} {x y x' y' : Nat} :
    cellCommand grid x y = cellCommand grid x' y' ↔ x = x' ∧ y = y' := by
  constructor
  · intro h
    simp only [cellCommand, Instr.setpx.injEq, Int.natCast_inj] at h
    obtain ⟨hx, hy, -⟩ := h
    exact ⟨hx, hy⟩
  · rintro ⟨rfl, rfl⟩
    rfl

/-- Commands of a grid, run one after another, each write their own pixel: a pixel with a command holds the grid's cell, any
other is as before. -/
theorem runCommands_of_cellCommands {grid : List (List GridCell)} {is : List Instr} {s : State}
    (hs : Memory.wf s.modules s.fb) (his : ∀ i ∈ is, ∃ x y, x < 8 * s.modules ∧ y < 8 ∧ i = cellCommand grid x y) :
    ∃ (m : Memory) (r : Option Reply) (rs : List (Option Reply)),
      runCommands is s = .next ((s.withFb m).withReply r, rs) ∧ m.wf s.modules ∧
      ∀ x y : Nat, m.pixel? s.modules x y =
        if cellCommand grid x y ∈ is then some (gridCell grid x y) else s.fb.pixel? s.modules x y := by
  induction is generalizing s with
  | nil => exact ⟨s.fb, s.reply, [], rfl, hs, fun x y => (if_neg List.not_mem_nil).symm⟩
  | cons i is ih =>
    obtain ⟨⟨x₀, y₀, hx₀, hy₀, rfl⟩, hrest⟩ := List.forall_mem_cons.1 his
    obtain ⟨m, r, rs, hrun, hm, hpixel⟩ := ih
      (s := (s.withFb (s.fb.setPixel s.modules x₀ y₀ (gridCell grid x₀ y₀))).withReply (some (.response .ok 0x00#8)))
      (Memory.wf_setPixel hs _ _ _) hrest
    refine ⟨m, r, some (.response .ok 0x00#8) :: rs, ?_, hm, fun x y => ?_⟩
    · simp only [runCommands, exec_cellCommand hx₀ hy₀, respond_eq, hrun]
      rfl
    · have hset := Memory.pixel?_setPixel hs (inBounds_natCast hx₀ hy₀) (gridCell grid x₀ y₀) x y
      refine (hpixel x y).trans ?_
      simp only [State.withReply_fb, State.withFb_fb, State.withReply_modules, State.withFb_modules, hset, List.mem_cons,
        cellCommand_inj, Int.natCast_inj]
      by_cases hxy : x = x₀ ∧ y = y₀
      · simp [hxy]
      · simp [hxy]

/-- What LOADMATRIX leaves in the store, pixel by pixel, and that it changes nothing else. -/
theorem callLoadMatrix_eq (grid : List (List GridCell)) {s : State} (hs : Memory.wf s.modules s.fb) :
    ∃ m : Memory, callLoadMatrix grid s = .next ((s.withFb m).withReply (some (.call .ok))) ∧ m.wf s.modules ∧
      ∀ x y : Nat, x < 8 * s.modules → y < 8 → m.pixel? s.modules x y = some (gridCell grid x y) := by
  obtain ⟨m, r, rs, hrun, hm, hpixel⟩ := runCommands_of_cellCommands (grid := grid) (is := gridCommands s.modules 0 grid)
    (s := (s.withFb (s.fb.fillAll s.modules (fillByte false))).withReply (some (.response .ok 0x00#8)))
    (Memory.wf_fillAll hs _) fun i hi => cellCommand_of_mem hi
  refine ⟨m, ?_, hm, fun x y hx hy => (hpixel x y).trans ?_⟩
  · simp only [callLoadMatrix, runExpansion, loadMatrixCommands, runCommands, drawsBy_fill s.modules false s rfl,
      respond_eq, hrun]
    rfl
  · split
    · rfl
    next hno =>
      have hdark : gridCell grid x y = false := Bool.eq_false_iff.2 fun hlit => hno (cellCommand_mem hx hy hlit)
      rw [hdark]
      exact (Memory.pixel?_fillAll hs false x y).trans (if_pos (inBounds_natCast hx hy))

/-- Settles O53: FILL 0 turns every pixel off, and then each cell of the grid inside the store sets its own pixel. -/
theorem loadMatrixWritesTheGrid : Obligations.LoadMatrixWritesTheGrid :=
  fun _ grid hs => callLoadMatrix_eq grid hs

/-! ## DUMPMATRIX -/

/-- Reads whose answers are known, run one after another. -/
theorem runCommands_map_of_answers {α : Type} {as : List α} {cmd : α → Instr} {d : α → Byte} {s : State}
    (h : ∀ a ∈ as, Answers s (cmd a) (d a)) :
    ∃ r, runCommands (as.map cmd) s = .next (s.withReply r, as.map fun a => some (.response .ok (d a))) := by
  obtain ⟨r, ds, hrun, hds⟩ := runCommands_of_answers (List.forall_mem_map.2 fun a ha => ⟨d a, h a ha⟩)
  have hunique : Relator.RightUnique (Answers s) := fun i b c hb hc =>
    congrArg (fun t : State => replyData t.reply) (Host.Outcome.next.inj (hb.2.symm.trans hc.2))
  have hd : List.Forall₂ (Answers s) (as.map cmd) (as.map d) :=
    List.forall₂_map_left_iff.2 (List.forall₂_map_right_iff.2 (List.forall₂_same.2 h))
  obtain rfl := List.right_unique_forall₂' hunique hds hd
  exact ⟨r, by rw [hrun, List.map_map]; rfl⟩

/-- Rows of `w` responses one after another are taken apart into those rows. -/
theorem gridOf_flatten {w : Nat} {rows : List (List (Option Reply))} (h : ∀ row ∈ rows, row.length = w) :
    gridOf w rows.length rows.flatten = rows.map fun row => row.map fun r => (replyData r).getLsbD 0 := by
  induction rows with
  | nil => rfl
  | cons row rows ih =>
    obtain ⟨hrow, hrows⟩ := List.forall_mem_cons.1 h
    rw [List.flatten_cons, List.length_cons, gridOf, List.take_left' hrow, List.drop_left' hrow, ih hrows, List.map_cons]

/-- One response for each pixel of a store, in its order, makes the grid of those pixels. -/
theorem gridOf_storePixels (n : Nat) (g : Int × Int → Option Reply) :
    gridOf (8 * n) 8 ((storePixels n).map g) =
      (List.range 8).map fun (y : Nat) => (List.range (8 * n)).map fun (x : Nat) => (replyData (g (x, y))).getLsbD 0 := by
  have hw : (8 * (n : Int)).toNat = 8 * n := by omega
  have hrows : (storePixels n).map g =
      ((List.range 8).map fun (y : Nat) => (List.range (8 * n)).map fun (x : Nat) => g (x, y)).flatten := by
    simp [storePixels, rectPixels, List.flatMap, hw, Function.comp_def]
  rw [hrows]
  have h := gridOf_flatten (w := 8 * n)
    (rows := (List.range 8).map fun (y : Nat) => (List.range (8 * n)).map fun (x : Nat) => g (x, y)) (by simp)
  simpa [Function.comp_def] using h

/-- DUMPMATRIX answers the pixels of the store, whatever function of the coordinates gives them. -/
theorem callDumpMatrix_eq {s : State} {f : Nat → Nat → Bool}
    (hf : ∀ x y : Nat, x < 8 * s.modules → y < 8 → s.fb.pixel? s.modules x y = some (f x y)) :
    callDumpMatrix s = .next (s.withReply
      (some (.grid ((List.range 8).map fun y => (List.range (8 * s.modules)).map fun x => f x y)))) := by
  have hget : ∀ p ∈ storePixels s.modules, Answers s (.getpx p.1 p.2) (pixelData (f p.1.toNat p.2.toNat)) := by
    rintro ⟨x, y⟩ hp
    obtain ⟨hx0, hx, hy0, hy⟩ := (mem_storePixels _ _ _).1 hp
    lift x to Nat using hx0
    lift y to Nat using hy0
    exact ⟨rfl, exec_getpx_of_pixel (hf x y (by omega) (by omega))⟩
  obtain ⟨r, hrun⟩ := runCommands_map_of_answers hget
  have hbit : ∀ b, (pixelData b).getLsbD 0 = b := by decide
  simp only [callDumpMatrix, runExpansion, dumpMatrixCommands, hrun, gridOf_storePixels, replyData, Int.toNat_natCast, hbit]
  rfl

/-- Settles O54: each GETPX answers its pixel, and the answers are read row by row. -/
theorem dumpMatrixReadsEveryPixel : Obligations.DumpMatrixReadsEveryPixel := by
  intro s hs
  let f : Nat → Nat → Bool := fun x y => (s.fb.pixel? s.modules x y).getD false
  have hf : ∀ x y : Nat, x < 8 * s.modules → y < 8 → s.fb.pixel? s.modules x y = some (f x y) := by
    intro x y hx hy
    obtain ⟨b, hb⟩ := Memory.pixel?_of_inBounds hs (inBounds_natCast hx hy)
    simp only [f, hb, Option.getD_some]
  refine ⟨_, callDumpMatrix_eq hf, by simp, fun y hy => ⟨(List.range (8 * s.modules)).map fun x => f x y, ?_, ?_, ?_⟩⟩
  · simp [hy]
  · simp
  · intro x hx
    simp [hx, hf x y hx hy]

/-! ## DUMPMATRIX after LOADMATRIX -/

/-- Whatever pixels LOADMATRIX leaves, DUMPMATRIX reads those. -/
theorem dump_after_load (grid : List (List GridCell)) {s : State} (hs : Memory.wf s.modules s.fb) :
    ∃ t u, runCall (.loadMatrix grid) s = .next t ∧ runCall .dumpMatrix t = .next u ∧
      u.reply = some (.grid (fittedGrid (8 * s.modules) grid)) := by
  obtain ⟨m, hload, -, hpixel⟩ := callLoadMatrix_eq grid hs
  exact ⟨_, _, hload, callDumpMatrix_eq (s := (s.withFb m).withReply _) hpixel, rfl⟩

/-- A grid of the store's size is cut and padded nowhere. -/
theorem fittedGrid_map_bool {w : Nat} {g : List (List Bool)} (hrows : g.length = 8) (hcells : ∀ row ∈ g, row.length = w) :
    fittedGrid w (g.map fun row => row.map GridCell.bool) = g := by
  refine List.ext_getElem (by simp [fittedGrid, hrows]) fun y _ hy => ?_
  have hrow := hcells g[y] (List.getElem_mem hy)
  refine List.ext_getElem (by simp [fittedGrid, hrow]) fun x _ hx => ?_
  simp [fittedGrid, gridCell, truthy, hy, hx]

/-- Settles O55: the dump is the grid fitted to the store, and a grid of the store's size is fitted as it is. -/
theorem dumpAfterLoadRoundTrip : Obligations.DumpAfterLoadRoundTrip := by
  refine ⟨fun s grid hs => dump_after_load grid hs, fun s g hs hrows hcells => ?_⟩
  have h := dump_after_load (g.map fun row => row.map GridCell.bool) hs
  rwa [fittedGrid_map_bool hrows hcells] at h

/-! ## LOADPATTERN -/

/-- The pattern's grid is lit exactly where its lines hold the character. -/
theorem gridCell_patternGrid_eq_true {text : List Char} {c : Char} {x y : Nat} :
    gridCell (patternGrid text c) x y = true ↔
      ∃ kept, (((splitLines text).map trimLine).filter fun l => !l.isEmpty)[y]? = some kept ∧ kept[x]? = some c := by
  rw [gridCell_eq_true]
  simp [patternGrid, truthy]

/-- Settles O56: with one character LOADPATTERN is LOADMATRIX of the pattern's grid. -/
theorem loadPatternLightsOnChars : Obligations.LoadPatternLightsOnChars := by
  constructor
  · intro s text _ c hs
    obtain ⟨m, hload, hm, hpixel⟩ := callLoadMatrix_eq (patternGrid text c) hs
    refine ⟨m, hload, hm, fun x y hx hy => ?_⟩
    rw [hpixel x y hx hy, Option.some.injEq, gridCell_patternGrid_eq_true]
  · intro s text onChar _ hlength
    match onChar with
    | [] | _ :: _ :: _ => rfl
    | [_] => exact absurd rfl hlength

/-! ## SplitLines and Trim (rule R157) -/

/-- The model's cut, at the code of a character, is the library's. -/
theorem splitOnCode_eq_splitOn (s : Char) (text : List Char) : splitOnCode s.toNat text = text.splitOn s := by
  induction text with
  | nil => rfl
  | cons c cs ih =>
    simp only [splitOnCode, List.splitOn_cons_eq_if_modifyHead, ih, beq_iff_eq, Char.toNat_inj]
    split
    · rfl
    · match h : cs.splitOn s with
      | [] => exact absurd h (List.splitOn_ne_nil s cs)
      | _ :: _ => rfl

theorem not_mem_of_mem_splitOn {s : Char} {text : List Char} : ∀ l ∈ text.splitOn s, s ∉ l := by
  induction text with
  | nil => simp
  | cons c cs ih =>
    rw [List.splitOn_cons_eq_if_modifyHead]
    split
    · exact List.forall_mem_cons.2 ⟨List.not_mem_nil, ih⟩
    next hc =>
      cases h : cs.splitOn s with
      | nil => nofun
      | cons l ls =>
        rw [h] at ih
        obtain ⟨hl, hls⟩ := List.forall_mem_cons.1 ih
        exact List.forall_mem_cons.2
          ⟨List.not_mem_cons_of_ne_of_not_mem (fun hs => hc (beq_iff_eq.2 hs.symm)) hl, hls⟩

theorem splitLines_eq_splitOn (text : List Char) : splitLines text = text.splitOn (Char.ofNat 0x0A) :=
  splitOnCode_eq_splitOn (Char.ofNat 0x0A) text

theorem isPatternSpace_iff (c : Char) :
    isPatternSpace c = true ↔ c = Char.ofNat 0x20 ∨ c = Char.ofNat 0x09 ∨ c = Char.ofNat 0x0A ∨ c = Char.ofNat 0x0B ∨
      c = Char.ofNat 0x0C ∨ c = Char.ofNat 0x0D := by
  simp only [isPatternSpace, Bool.or_eq_true, beq_iff_eq, or_assoc, ← Char.toNat_inj]
  rfl

/-- Trim drops the blanks at the front, then those at the back. -/
theorem trimLine_eq (l : List Char) : trimLine l = (l.dropWhile isPatternSpace).rdropWhile isPatternSpace := rfl

theorem trimLine_takes_blanks (l : List Char) :
    l = l.takeWhile isPatternSpace ++ trimLine l ++ (l.dropWhile isPatternSpace).rtakeWhile isPatternSpace := by
  rw [trimLine_eq, List.append_assoc, List.rdropWhile_append_rtakeWhile, List.takeWhile_append_dropWhile]

theorem head?_dropWhile {α : Type} {p : α → Bool} {l : List α} {a : α} (ha : (l.dropWhile p).head? = some a) :
    p a = false := by
  have h := List.head?_dropWhile_not p l
  rwa [ha] at h

theorem head?_trimLine {l : List Char} {c : Char} (hc : (trimLine l).head? = some c) : isPatternSpace c = false := by
  refine head?_dropWhile (l := l) ?_
  rw [← List.rdropWhile_append_rtakeWhile (p := isPatternSpace) (l := l.dropWhile isPatternSpace), ← trimLine_eq,
    List.head?_append, hc, Option.some_or]

theorem getLast?_trimLine {l : List Char} {c : Char} (hc : (trimLine l).getLast? = some c) : isPatternSpace c = false :=
  head?_dropWhile (List.getLast?_reverse.symm.trans hc)

/-- Settles O57: the cut by induction on the text, and the ends of a trimmed line by what the two drops leave. -/
theorem splitAndTrimLines : Obligations.SplitAndTrimLines := by
  refine ⟨fun text => ?_, isPatternSpace_iff, fun l => ⟨_, _, trimLine_takes_blanks l, ?_, ?_, ?_, ?_⟩⟩
  · rw [splitLines_eq_splitOn]
    exact ⟨List.intercalate_splitOn _, not_mem_of_mem_splitOn⟩
  · exact fun c hc => List.mem_takeWhile_imp hc
  · exact fun c hc => List.mem_rtakeWhile_imp hc
  · exact fun c => head?_trimLine
  · exact fun c => getLast?_trimLine

end Sys2Proof.Machine
end

section
/-! PROOF. The driver chips: a chip is known by its registers, and what each module holds after a window (spec/44 R172, R173 and
R177). -/

namespace Sys2Proof.Machine

/-! ## Registers of a chip -/

/-- A chip is its registers. -/
theorem Chip.ext_read {c c' : Chip} (h : ∀ r, c.read r = c'.read r) : c = c' := by
  have h0 : c.digit0 = c'.digit0 := Option.some.inj (h (regDigit 0))
  have h1 : c.digit1 = c'.digit1 := Option.some.inj (h (regDigit 1))
  have h2 : c.digit2 = c'.digit2 := Option.some.inj (h (regDigit 2))
  have h3 : c.digit3 = c'.digit3 := Option.some.inj (h (regDigit 3))
  have h4 : c.digit4 = c'.digit4 := Option.some.inj (h (regDigit 4))
  have h5 : c.digit5 = c'.digit5 := Option.some.inj (h (regDigit 5))
  have h6 : c.digit6 = c'.digit6 := Option.some.inj (h (regDigit 6))
  have h7 : c.digit7 = c'.digit7 := Option.some.inj (h (regDigit 7))
  have hd : c.decodeMode = c'.decodeMode := Option.some.inj (h regDecodeMode)
  have hi : c.intensity = c'.intensity := Option.some.inj (h regIntensity)
  have hl : c.scanLimit = c'.scanLimit := Option.some.inj (h regScanLimit)
  have hs : c.shutdown = c'.shutdown := Option.some.inj (h regShutdown)
  have ht : c.displayTest = c'.displayTest := Option.some.inj (h regDisplayTest)
  cases c
  cases c'
  simp_all only

/-- A pair the sequencer may send: a register of the table other than No-op, and data the table lists for it (rule R175). -/
abbrev WirePair.Listed (p : WirePair) : Prop := p.code ≠ 0x00#8 ∧ validData p.code p.data = true

/-- The codes a pair may be sent with (rule R73). -/
theorem WirePair.Listed.code_cases {p : WirePair} (hp : p.Listed) :
    (∃ y < 8, p.code = regDigit y) ∨ p.code = regDecodeMode ∨ p.code = regIntensity ∨ p.code = regScanLimit ∨
      p.code = regShutdown ∨ p.code = regDisplayTest := by
  obtain ⟨hcode, hdata⟩ := hp
  have digits : ∀ code : Byte, code ≠ 0x00#8 → code.toNat ≤ 8 → ∃ y < 8, code = regDigit y := by decide
  unfold validData at hdata
  split_ifs at hdata with hnoop hdigit hdecode hintensity hscan hshutdown htest
  · exact absurd hnoop hcode
  · exact .inl (digits _ hcode hdigit)
  · exact .inr (.inl hdecode)
  · exact .inr (.inr (.inl hintensity))
  · exact .inr (.inr (.inr (.inl hscan)))
  · exact .inr (.inr (.inr (.inr (.inl hshutdown))))
  · exact .inr (.inr (.inr (.inr (.inr htest))))

/-- A register that may be written is one the chip has. -/
theorem Chip.read_of_listed (c : Chip) {p : WirePair} (hp : p.Listed) : ∃ v, c.read p.code = some v := by
  obtain ⟨y, hy, h⟩ | h | h | h | h | h := hp.code_cases <;> rw [h]
  · interval_cases y <;> exact ⟨_, rfl⟩
  all_goals exact ⟨_, rfl⟩

theorem regDigit_inj {y z : Nat} (hy : y < 8) (hz : z < 8) (h : regDigit y = regDigit z) : y = z := by
  have hinj : ∀ y < 8, ∀ z < 8, regDigit y = regDigit z → y = z := by decide
  exact hinj y hy z hz h

/-- Any row pattern may be written to a digit register. -/
theorem listed_digit {y : Nat} (hy : y < 8) (d : Byte) : (⟨regDigit y, d⟩ : WirePair).Listed := by
  have hcode : ∀ y < 8, regDigit y ≠ regNoop ∧ (regDigit y).toNat ≤ 8 := by decide
  obtain ⟨hnoop, hdigit⟩ := hcode y hy
  refine ⟨hnoop, ?_⟩
  unfold validData
  rw [if_neg hnoop, if_pos hdigit]

/-- The chips are known by their registers. -/
theorem chips_ext {cs cs' : List Chip} (hl : cs.length = cs'.length)
    (h : ∀ j < cs.length, ∀ r, (cs[j]?.bind fun c => c.read r) = cs'[j]?.bind fun c => c.read r) : cs = cs' := by
  refine List.ext_getElem hl fun j hj hj' => Chip.ext_read fun r => ?_
  simpa [hj, hj'] using h j hj r

/-- Each module writes the pair `CHAIN_ORDER` gives it, and no other. -/
theorem read_latch {order : List Nat} {ps : List WirePair} (hn : order.Nodup) (hl : order.length ≤ ps.length)
    {k j : Nat} {q : WirePair} (hj : order[k]? = some j) (hq : ps[k]? = some q) (chips : List Chip) (r : Byte) :
    ((latch order ps chips)[j]?.bind fun c => c.read r) =
      if r = q.code then (chips[j]?.bind fun c => c.read r).map fun _ => q.data else chips[j]?.bind fun c => c.read r := by
  obtain ⟨hk, rfl⟩ := List.getElem?_eq_some_iff.1 hj
  obtain ⟨_, rfl⟩ := List.getElem?_eq_some_iff.1 hq
  rw [getElem?_latch order ps chips hn hl k hk]
  cases chips[order[k]]? with
  | none => simp
  | some c => exact Chip.read_write c _ _ r

/-! ## The registers of the modules -/

/-- The part of the invariant the chips rest on: `CHAIN_ORDER` names each module once, and each has its chip. -/
structure Wired (s : State) : Prop where
  order : s.chainOrder.Perm (List.range s.modules)
  chips : s.chips.length = s.modules

theorem State.Inv.wired {s : State} : s.Inv → Wired s := fun ⟨_, horder, _, _, hchips, _⟩ => ⟨horder, hchips⟩

theorem Wired.nodup {s : State} (h : Wired s) : s.chainOrder.Nodup := h.order.nodup_iff.2 List.nodup_range

theorem Wired.length {s : State} (h : Wired s) : s.chainOrder.length = s.modules := h.order.length_eq.trans List.length_range

/-- A place in the chain is that of a module. -/
theorem Wired.lt {s : State} (h : Wired s) {m j : Nat} (hm : s.chainOrder[m]? = some j) : m < s.modules ∧ j < s.modules := by
  refine ⟨?_, List.mem_range.1 (h.order.mem_iff.1 (List.mem_of_getElem? hm))⟩
  rw [← h.length]
  exact (List.getElem?_eq_some_iff.1 hm).1

/-- Each module has its place in the chain. -/
theorem Wired.exists_place {s : State} (h : Wired s) {j : Nat} (hj : j < s.modules) : ∃ m : Nat, s.chainOrder[m]? = some j :=
  List.getElem?_of_mem (h.order.mem_iff.2 (List.mem_range.2 hj))

theorem Wired.chipRegister_of_listed {s : State} (h : Wired s) {j : Nat} (hj : j < s.modules) {p : WirePair}
    (hp : p.Listed) : ∃ v, s.chipRegister j p.code = some v := by
  have hc : s.chips[j]? = some (s.chips[j]'(h.chips ▸ hj)) := List.getElem?_eq_getElem _
  simp only [State.chipRegister, hc, Option.bind_some]
  exact Chip.read_of_listed _ hp

/-- Where there is no module there is no register. -/
theorem Wired.chipRegister_eq_none {s : State} (h : Wired s) {j : Nat} (hj : ¬ j < s.modules) (r : Byte) :
    s.chipRegister j r = none := by
  rw [State.chipRegister, List.getElem?_eq_none (by rw [h.chips]; omega), Option.bind_none]

/-- The No-op code is no register. -/
theorem chipRegister_noop (s : State) (j : Nat) : s.chipRegister j 0x00#8 = none := by
  unfold State.chipRegister
  cases s.chips[j]? <;> rfl

/-! ## The pairs among events -/

theorem sentPairs_append (es es' : List WireEvent) : sentPairs (es ++ es') = sentPairs es ++ sentPairs es' :=
  List.filterMap_append

@[simp] theorem sentPairs_map_pair (ps : List WirePair) : sentPairs (ps.map .pair) = ps :=
  (List.filterMap_map ..).trans List.filterMap_some

@[simp] theorem sentPairs_selectLow : sentPairs [.selectLow] = [] := rfl
@[simp] theorem sentPairs_selectHigh : sentPairs [.selectHigh] = [] := rfl

@[simp] theorem sentPairs_windowEvents (ps : List WirePair) : sentPairs (windowEvents ps) = ps := by
  have hevents : windowEvents ps = [.selectLow] ++ ps.map .pair ++ [.selectHigh] := rfl
  rw [hevents, sentPairs_append, sentPairs_append, sentPairs_selectLow, sentPairs_map_pair, sentPairs_selectHigh,
    List.nil_append, List.append_nil]

end Sys2Proof.Machine
end

section
/-! PROOF. A pair presented on its own: it joins the open window, completes it, fails or never returns (spec/44 R171 to R175, R189
and R190; log entries 12 to 15). -/

namespace Sys2Proof.Machine

/-! ## The window a pair finds -/

/-- The window a pair presented on its own finds open, or opens. -/
def State.opened (s : State) : State := if s.window = [] then s.openWindow else s

theorem opened_frame (s : State) : BusFrame s s.opened := by
  unfold State.opened
  split
  · exact openWindow_frame s
  · exact .refl s

/-- Opening a window drives chip-select low, and does nothing else. -/
theorem State.opened_eq {s : State} (hs : s.window ≠ [] → s.select = .low) :
    s.opened = { s with select := .low, sent := s.sent ++ if s.window = [] then [.selectLow] else [] } := by
  unfold State.opened
  split
  next hw => simp only [State.openWindow, hw]
  next hw => simp only [List.append_nil, ← hs hw]

@[simp] theorem State.opened_window (s : State) : s.opened.window = s.window := by
  unfold State.opened
  split
  next hw => exact hw.symm
  · rfl

@[simp] theorem State.opened_chips (s : State) : s.opened.chips = s.chips := by
  unfold State.opened
  split <;> rfl

@[simp] theorem State.opened_bus (s : State) : s.opened.bus = s.bus := by
  unfold State.opened
  split <;> rfl

@[simp] theorem State.opened_hung (s : State) : s.opened.hung = s.hung := by
  unfold State.opened
  split <;> rfl

@[simp] theorem sentPairs_opened (s : State) : sentPairs s.opened.sent = sentPairs s.sent := by
  unfold State.opened
  split
  · rw [State.openWindow_sent, sentPairs_append, sentPairs_selectLow, List.append_nil]
  · rfl

/-! ## One pair -/

/-- A pair has been sent into the window that was open, or that it opened. -/
def State.joined (s : State) (p : WirePair) : State :=
  { s with
    select := .low, window := s.window ++ [p], bus := s.bus.drop 1,
    sent := s.sent ++ (if s.window = [] then [.selectLow] else []) ++ [.pair p] }

theorem wirePair_completes {p : WirePair} {s : State} (hs : s.window ≠ [] → s.select = .low) (hbus : BusCompletes 1 s) :
    wirePair p s = (if s.modules ≤ s.window.length + 1 then (s.joined p).closeWindow else s.joined p, .done) := by
  have hwrite : wireWrite p s.opened = (s.joined p, .done) := by
    rw [wireWrite_completes p (by simpa only [BusCompletes, State.opened_bus] using hbus), State.opened_eq hs]
    rfl
  have hlength : (s.joined p).window.length = s.window.length + 1 := List.length_append
  unfold wirePair
  rw [← State.opened, hwrite]
  simp only [hlength]
  rfl

theorem wireWrite_fails {p : WirePair} {s : State} {rest : List BusOutcome} (hbus : s.bus = .fails :: rest) :
    wireWrite p s = (({ s with bus := rest } : State).failPair p, .failed) := by
  simp only [wireWrite, hbus]

theorem wireWrite_blocks {p : WirePair} {s : State} {rest : List BusOutcome} (hbus : s.bus = .blocks :: rest) :
    wireWrite p s = ({ s with hung := true }, .blocked) := by
  simp only [wireWrite, hbus]

theorem wirePair_fails {p : WirePair} {s : State} {rest : List BusOutcome} (hbus : s.bus = .fails :: rest) :
    wirePair p s = (({ s.opened with bus := rest } : State).failPair p, .failed) := by
  unfold wirePair
  rw [← State.opened, wireWrite_fails ((State.opened_bus s).trans hbus)]

theorem wirePair_blocks {p : WirePair} {s : State} {rest : List BusOutcome} (hbus : s.bus = .blocks :: rest) :
    wirePair p s = ({ s.opened with hung := true }, .blocked) := by
  unfold wirePair
  rw [← State.opened, wireWrite_blocks ((State.opened_bus s).trans hbus)]

/-- A well-formed driver register write is its pair on the bus. -/
theorem exec_of_wf {i : Instr} {p : WirePair} (hp : pairOf i = some p) (hi : i.wf = true) {s t : State} {r : BusResult}
    (ht : wirePair p s = (t, r)) : exec i s = .next (t.withReply r.reply) := by
  rw [exec_of_pairOf hp, registerWrite, if_pos ((wf_of_pairOf hp).symm.trans hi), ht]

/-- Settles O36: the window is short of `N` pairs after this one, so it stays open. -/
theorem wirePairJoinsWindow : Obligations.WirePairJoinsWindow := by
  intro i p s hp hi hs hbus hshort
  have hpair := wirePair_completes (p := p) hs.busGood.select hbus
  rw [if_neg (by omega)] at hpair
  rw [exec_of_wf hp hi hpair]
  have hsent : (s.joined p).sent = s.sent ++ if s.window = [] then [.selectLow, .pair p] else [.pair p] := by
    unfold State.joined
    split <;> simp
  rw [← hsent]
  rfl

/-- Settles O37: the window is closed with its pairs, and each module writes its own. -/
theorem wirePairCompletesWindow : Obligations.WirePairCompletesWindow := by
  intro i p s hp hi hs hbus hfull
  have hwired := hs.wired
  have hpair := wirePair_completes (p := p) hs.busGood.select hbus
  rw [if_pos hfull.ge] at hpair
  refine ⟨latch s.chainOrder (s.window ++ [p]) s.chips, ?_, length_latch _ _ _, fun k j q hj hq r => ?_⟩
  · rw [exec_of_wf hp hi hpair]
    simp [State.joined, State.closeWindow, State.withReply, BusResult.reply]
  · exact read_latch hwired.nodup (by rw [hwired.length, List.length_append]; exact hfull.ge) hj hq s.chips r

/-- Settles O38: with one module the window is one pair, and the chain is that module. -/
theorem singleModuleRegisterWrite : Obligations.SingleModuleRegisterWrite := by
  intro i p s hp hi hs hone hbus
  have hwired := hs.wired
  have hwindow : s.window = [] := by
    have hshort := hs.busGood.window
    exact List.length_eq_zero_iff.1 (by omega)
  obtain ⟨cs, hexec, hlength, hregs⟩ := wirePairCompletesWindow i p s hp hi hs hbus (by simp [hwindow, hone])
  have hchain : s.chainOrder[0]? = some 0 := by
    obtain ⟨m, hm⟩ := hwired.exists_place (j := 0) (by omega)
    obtain rfl : m = 0 := by have := hwired.lt hm; omega
    exact hm
  have hreg := hregs 0 0 p hchain (by simp [hwindow])
  have hdata : validData p.code p.data = true := (wf_of_pairOf hp).symm.trans hi
  refine ⟨_, hexec, rfl, fun hcode => ?_, fun r hr => (hreg r).trans (if_neg hr), fun hcode => ?_,
    rfl, rfl, rfl, rfl, rfl, rfl, rfl, rfl⟩
  · obtain ⟨v, hv⟩ := hwired.chipRegister_of_listed (j := 0) (by omega) (p := p) ⟨hcode, hdata⟩
    exact (hreg p.code).trans (by rw [if_pos rfl, hv, Option.map_some])
  · refine chips_ext hlength fun j hj r => ?_
    obtain rfl : j = 0 := by
      have hj : j < cs.length := hj
      have hchips := hwired.chips
      omega
    refine (hreg r).trans ?_
    by_cases hr : r = p.code
    · rw [if_pos hr, hr, hcode, chipRegister_noop]
      exact (chipRegister_noop s 0).symm
    · rw [if_neg hr]
      rfl

/-- Settles O40: the failing pair is not sent, and the registers named in its window are the only ones lost. -/
theorem failedBusWrite : Obligations.FailedBusWrite := by
  intro i p s rest hp hi hbus
  obtain ⟨hmodules, horder, hfb, hrot, hctrl, hbrightness, -, -⟩ := opened_frame s
  refine ⟨_, exec_of_wf hp hi (wirePair_fails hbus), rfl, rfl, rfl, sentPairs_opened s, hfb, hrot, hctrl, hbrightness,
    hmodules, horder, State.opened_hung s, fun j r hr hwindow => ?_⟩
  have hkept := read_scrambleAll s.opened.freeDraws (s.window.map WirePair.code ++ [p.code]) s.chips j r (by
    intro code hcode
    obtain hcode | hcode := List.mem_append.1 hcode
    · obtain ⟨q, hq, rfl⟩ := List.mem_map.1 hcode
      exact hwindow q hq
    · rwa [List.mem_singleton.1 hcode])
  simpa [State.chipRegister] using hkept

/-- A register write that never returns. -/
theorem exec_of_blocked {i : Instr} {p : WirePair} {s : State} {rest : List BusOutcome} (hp : pairOf i = some p)
    (hi : i.wf = true) (hbus : s.bus = .blocks :: rest) :
    ∃ t, exec i s = .next t ∧ t.reply = none ∧ t.hung = true ∧ step t = .next t ∧ t.fb = s.fb ∧ t.rot = s.rot ∧
      t.chips = s.chips ∧ t.ctrl = s.ctrl ∧ t.brightness = s.brightness ∧ sentPairs t.sent = sentPairs s.sent := by
  obtain ⟨-, -, hfb, hrot, hctrl, hbrightness, -, -⟩ := opened_frame s
  exact ⟨_, exec_of_wf hp hi (wirePair_blocks hbus), rfl, rfl, step_of_hung rfl, hfb, hrot, State.opened_chips s, hctrl,
    hbrightness, sentPairs_opened s⟩

/-! ## Pairs that are never sent -/

theorem decodeWire_eq_none {w : BitVec 16} (h : ∀ r ∈ wireRows, codeByte w ≠ codeByte r.pattern) : decodeWire w = none := by
  refine Option.eq_none_iff_forall_not_mem.2 fun i hi => ?_
  obtain ⟨r, hr, hw, -⟩ := decodeWire_eq_some hi
  exact h r hr (codeByte_of_wireRow hr hw)

/-- Settles O39: the data is checked before the write, and a code of no row decodes to nothing. -/
theorem neverSentIsRefused : Obligations.NeverSentIsRefused := by
  constructor
  · intro i p s hp hdata
    rw [exec_of_pairOf hp, registerWrite, if_neg (by rw [hdata]; decide)]
  · intro s code data rest hh hi hcode
    have unlisted : ∀ code : Byte, code = 13#8 ∨ code = 14#8 ∨ 16 ≤ code.toNat →
        ∀ r ∈ wireRows, code ≠ codeByte r.pattern := by decide
    have hnone : decodeWire (wireWord code data) = none :=
      decodeWire_eq_none (by simpa using unlisted code hcode)
    rw [step_of_word hh hi]
    change runWord (.wire16 (wireWord code data)) _ = _
    simp only [runWord, decode, hnone]

end Sys2Proof.Machine
end

section
/-! PROOF. Windows one after another: what they leave in the registers when every write completes, and what has gone out when a
write does not (spec/44 R171, R173, R174, R177, R189 and R190). -/

namespace Sys2Proof.Machine

/-! ## Completed windows -/

/-- The state after a window whose writes all completed. -/
def State.afterWindow (s : State) (ps : List WirePair) : State :=
  { s with
    select := .high, window := [], chips := latch s.chainOrder ps s.chips, sent := s.sent ++ windowEvents ps,
    bus := s.bus.drop ps.length }

/-- The same after windows one after another. -/
def State.afterWindows (s : State) (pss : List (List WirePair)) : State := pss.foldl State.afterWindow s

theorem State.afterWindows_cons (s : State) (ps : List WirePair) (pss : List (List WirePair)) :
    s.afterWindows (ps :: pss) = (s.afterWindow ps).afterWindows pss := rfl

theorem sendWindow_eq_afterWindow (ps : List WirePair) {s : State} (h : BusCompletes ps.length s) :
    sendWindow ps s = (s.afterWindow ps, .done) := sendWindow_completes ps h

theorem sendWindows_eq_afterWindows (pss : List (List WirePair)) {s : State} (h : BusCompletes pss.flatten.length s) :
    sendWindows pss s = (s.afterWindows pss, .done) := sendWindows_completes pss (List.length_flatten ▸ h)

theorem State.afterWindows_bus (pss : List (List WirePair)) (s : State) :
    (s.afterWindows pss).bus = s.bus.drop pss.flatten.length := by
  induction pss generalizing s with
  | nil => rfl
  | cons ps pss ih =>
    rw [State.afterWindows_cons, ih, List.flatten_cons, List.length_append]
    exact List.drop_drop

theorem State.afterWindows_sent (pss : List (List WirePair)) (s : State) :
    (s.afterWindows pss).sent = s.sent ++ pss.flatMap windowEvents := by
  induction pss generalizing s with
  | nil => exact (List.append_nil _).symm
  | cons ps pss ih =>
    rw [State.afterWindows_cons, ih, List.flatMap_cons, ← List.append_assoc]
    rfl

/-- From `s` to `t` exactly the pairs `ps` have gone out, and nothing has changed that the bus does not write. -/
structure Sends (ps : List WirePair) (s t : State) : Prop extends BusFrame s t where
  hung : t.hung = s.hung
  sent : sentPairs t.sent = sentPairs s.sent ++ ps

theorem Sends.trans {ps qs : List WirePair} {s t u : State} (h : Sends ps s t) (h' : Sends qs t u) :
    Sends (ps ++ qs) s u where
  toBusFrame := h.toBusFrame.trans h'.toBusFrame
  hung := h'.hung.trans h.hung
  sent := by rw [h'.sent, h.sent, List.append_assoc]

theorem sends_afterWindow (s : State) (ps : List WirePair) : Sends ps s (s.afterWindow ps) where
  toBusFrame := ⟨rfl, rfl, rfl, rfl, rfl, rfl, rfl, rfl⟩
  hung := rfl
  sent := (sentPairs_append _ _).trans (by rw [sentPairs_windowEvents])

theorem sends_afterWindows (pss : List (List WirePair)) (s : State) : Sends pss.flatten s (s.afterWindows pss) := by
  induction pss generalizing s with
  | nil => exact ⟨.refl s, rfl, (List.append_nil _).symm⟩
  | cons ps pss ih => exact (sends_afterWindow s ps).trans (ih _)

/-! ## Registers after windows -/

/-- A window that writes one register: module `m` of the chain takes `data m`. -/
def registerWindow (n : Nat) (code : Byte) (data : Nat → Byte) : List WirePair :=
  (List.range n).map fun m => ⟨code, data m⟩

@[simp] theorem length_registerWindow (n : Nat) (code : Byte) (data : Nat → Byte) :
    (registerWindow n code data).length = n := by simp [registerWindow]

theorem code_of_mem_registerWindow {n : Nat} {code : Byte} {data : Nat → Byte} {p : WirePair}
    (hp : p ∈ registerWindow n code data) : p.code = code := by
  obtain ⟨m, -, rfl⟩ := List.mem_map.1 hp
  rfl

theorem configWindow_eq (n : Nat) (code d : Byte) : configWindow n code d = registerWindow n code fun _ => d := by
  simp [configWindow, registerWindow, List.map_const']

theorem Wired.afterWindow {s : State} (h : Wired s) (ps : List WirePair) : Wired (s.afterWindow ps) :=
  ⟨h.order, (length_latch _ _ _).trans h.chips⟩

theorem Wired.afterWindows {s : State} (h : Wired s) (pss : List (List WirePair)) : Wired (s.afterWindows pss) := by
  induction pss generalizing s with
  | nil => exact h
  | cons ps pss ih => exact ih (h.afterWindow ps)

section Registers
variable {s : State} {m j : Nat}

theorem chipRegister_afterWindow (hs : Wired s) (hm : s.chainOrder[m]? = some j) (code : Byte) (data : Nat → Byte)
    (r : Byte) : (s.afterWindow (registerWindow s.modules code data)).chipRegister j r =
      if r = code then (s.chipRegister j r).map fun _ => data m else s.chipRegister j r := by
  have hpair : (registerWindow s.modules code data)[m]? = some ⟨code, data m⟩ := by
    simp [registerWindow, (hs.lt hm).1]
  exact read_latch hs.nodup (by rw [hs.length, length_registerWindow]) hm hpair s.chips r

theorem chipRegister_afterWindow_self (hs : Wired s) (hm : s.chainOrder[m]? = some j) {code : Byte} {data : Nat → Byte}
    (hp : (⟨code, data m⟩ : WirePair).Listed) :
    (s.afterWindow (registerWindow s.modules code data)).chipRegister j code = some (data m) := by
  obtain ⟨v, hv⟩ := hs.chipRegister_of_listed (hs.lt hm).2 hp
  rw [chipRegister_afterWindow hs hm, if_pos rfl, hv, Option.map_some]

variable {α : Type} {code : α → Byte} {data : α → Nat → Byte} {r : Byte}

/-- Windows that name other registers leave a register as it was. -/
theorem chipRegister_afterWindows_of_ne (hs : Wired s) (hm : s.chainOrder[m]? = some j) {as : List α}
    (hr : ∀ a ∈ as, r ≠ code a) :
    (s.afterWindows (as.map fun a => registerWindow s.modules (code a) (data a))).chipRegister j r =
      s.chipRegister j r := by
  induction as generalizing s with
  | nil => rfl
  | cons a as ih =>
    obtain ⟨ha, has⟩ := List.forall_mem_cons.1 hr
    have hrest := ih (s := s.afterWindow (registerWindow s.modules (code a) (data a))) (hs.afterWindow _) hm has
    exact hrest.trans ((chipRegister_afterWindow hs hm _ _ r).trans (if_neg ha))

/-- A register holds what the last window that names it wrote. -/
theorem chipRegister_afterWindows_last (hs : Wired s) (hm : s.chainOrder[m]? = some j) {before after : List α} {a : α}
    (hp : (⟨code a, data a m⟩ : WirePair).Listed) (hlast : ∀ b ∈ after, code a ≠ code b) :
    (s.afterWindows ((before ++ a :: after).map fun a => registerWindow s.modules (code a) (data a))).chipRegister j
      (code a) = some (data a m) := by
  induction before generalizing s with
  | nil =>
    have hrest := chipRegister_afterWindows_of_ne (data := data)
      (s := s.afterWindow (registerWindow s.modules (code a) (data a))) (hs.afterWindow _) hm hlast
    exact hrest.trans (chipRegister_afterWindow_self hs hm hp)
  | cons b before ih => exact ih (s := s.afterWindow (registerWindow s.modules (code b) (data b))) (hs.afterWindow _) hm

end Registers

/-! ## The write that does not complete -/

theorem BusCompletes.of_le {k l : Nat} {s : State} (h : BusCompletes l s) (hkl : k ≤ l) : BusCompletes k s :=
  fun o ho => h o (List.take_subset_take_left _ hkl ho)

/-- Once `k` writes are done, the writes that follow are those of the rest of the bus. -/
theorem BusCompletes.rest {k l : Nat} {s t : State} (h : BusCompletes (k + l) s) (ht : t.bus = s.bus.drop k) :
    BusCompletes l t := by
  intro o ho
  refine h o (List.mem_of_mem_drop (i := k) ?_)
  rwa [List.drop_take, Nat.add_sub_cancel_left, ← ht]

/-- Bus writes before number `k` complete, and write `k` ends as `o` says. -/
structure StopsAt (k : Nat) (o : BusOutcome) (s : State) : Prop where
  completes : BusCompletes k s
  outcome : s.bus[k]? = some o

theorem StopsAt.rest {k l : Nat} {o : BusOutcome} {s t : State} (h : StopsAt (k + l) o s) (ht : t.bus = s.bus.drop k) :
    StopsAt l o t :=
  ⟨h.completes.rest ht, by rw [ht, List.getElem?_drop, h.outcome]⟩

theorem StopsAt.bus_eq {o : BusOutcome} {s : State} (h : StopsAt 0 o s) : ∃ rest, s.bus = o :: rest := by
  have ho := h.outcome
  match hbus : s.bus with
  | [] => simp [hbus] at ho
  | _ :: rest => exact ⟨rest, by simpa [hbus] using ho⟩

/-- Pairs have been sent into the window that is open. -/
def State.pushPairs (s : State) (ps : List WirePair) : State :=
  { s with window := s.window ++ ps, sent := s.sent ++ ps.map .pair, bus := s.bus.drop ps.length }

theorem State.pushPairs_nil (s : State) : s.pushPairs [] = s := by simp [State.pushPairs]

theorem sends_pushPairs (s : State) (ps : List WirePair) : Sends ps s (s.openWindow.pushPairs ps) where
  toBusFrame := ⟨rfl, rfl, rfl, rfl, rfl, rfl, rfl, rfl⟩
  hung := rfl
  sent := by
    change sentPairs (s.sent ++ [.selectLow] ++ ps.map .pair) = _
    rw [sentPairs_append, sentPairs_append, sentPairs_selectLow, List.append_nil, sentPairs_map_pair]

/-- The pairs before the one that does not complete go out, and it is the last. -/
theorem sendPairs_stops {ps : List WirePair} {k : Nat} {o : BusOutcome} {s : State} (hstop : StopsAt k o s)
    (ho : o ≠ .completes) (hk : k < ps.length) : sendPairs ps s = wireWrite ps[k] (s.pushPairs (ps.take k)) := by
  induction ps generalizing k s with
  | nil => cases hk
  | cons p ps ih =>
    cases k with
    | zero =>
      obtain ⟨rest, hbus⟩ := hstop.bus_eq
      obtain ⟨u, hdone, -⟩ | ⟨-, hwrite⟩ := sendPairs_cons_cases (s := s) (p := p) (ps := ps) rfl
      · obtain ⟨-, hbus' | ⟨_, hbus'⟩, -⟩ | ⟨h, -⟩ | ⟨h, -⟩ := wireWrite_cases hdone
        · cases hbus.symm.trans hbus'
        · cases hbus.symm.trans hbus'
          exact absurd rfl ho
        · cases h
        · cases h
      · rw [List.take_zero, State.pushPairs_nil]
        exact hwrite.symm
    | succ k =>
      have hfirst : BusCompletes 1 s := hstop.completes.of_le (Nat.le_add_left 1 k)
      unfold sendPairs
      rw [wireWrite_completes p hfirst]
      simp only
      rw [ih (StopsAt.rest (Nat.add_comm k 1 ▸ hstop) rfl) (Nat.lt_of_succ_lt_succ hk)]
      simp [State.pushPairs, State.pushPair]

theorem sendWindow_stops {ps : List WirePair} {k : Nat} {o : BusOutcome} {s : State} (hstop : StopsAt k o s)
    (ho : o ≠ .completes) (hk : k < ps.length) :
    sendWindow ps s = wireWrite ps[k] (s.openWindow.pushPairs (ps.take k)) ∧
      ∃ rest, (s.openWindow.pushPairs (ps.take k)).bus = o :: rest := by
  have hopen : StopsAt k o s.openWindow := ⟨hstop.completes, hstop.outcome⟩
  refine ⟨sendPairs_stops hopen ho hk, (StopsAt.rest (l := 0) hopen ?_).bus_eq⟩
  simp [State.pushPairs, hk.le]

/-- A window whose write `k` fails: the registers it does not name are as before. -/
theorem sendWindow_fails {ps : List WirePair} {k : Nat} {s : State} (hstop : StopsAt k .fails s) (hk : k < ps.length) :
    ∃ t, sendWindow ps s = (t, .failed) ∧ Sends (ps.take k) s t ∧
      ∀ j r, (∀ p ∈ ps, r ≠ p.code) → t.chipRegister j r = s.chipRegister j r := by
  obtain ⟨hsend, rest, hbus⟩ := sendWindow_stops hstop nofun hk
  have hsends := sends_pushPairs s (ps.take k)
  rw [wireWrite_fails hbus] at hsend
  refine ⟨_, hsend, ⟨hsends.toBusFrame.trans ⟨rfl, rfl, rfl, rfl, rfl, rfl, rfl, rfl⟩, hsends.hung, hsends.sent⟩,
    fun j r hr => read_scrambleAll _ _ s.chips j r fun code hcode => ?_⟩
  obtain hcode | hcode := List.mem_append.1 hcode
  · obtain ⟨q, hq, rfl⟩ := List.mem_map.1 hcode
    exact hr q (List.mem_of_mem_take hq)
  · rw [List.mem_singleton.1 hcode]
    exact hr _ (List.getElem_mem hk)

/-- A window whose write `k` never returns. -/
theorem sendWindow_blocks {ps : List WirePair} {k : Nat} {s : State} (hstop : StopsAt k .blocks s) (hk : k < ps.length) :
    ∃ u, sendWindow ps s = ({ u with hung := true }, .blocked) ∧ Sends (ps.take k) s u := by
  obtain ⟨hsend, rest, hbus⟩ := sendWindow_stops hstop nofun hk
  rw [wireWrite_blocks hbus] at hsend
  exact ⟨_, hsend, sends_pushPairs s (ps.take k)⟩

/-! ## The window it falls in -/

/-- Bus write `k` of the windows that `f` gives for `as` is write `j` of the window of `a`. -/
structure WriteAt {α : Type} (f : α → List WirePair) (as : List α) (k : Nat) (before : List α) (a : α) (after : List α)
    (j : Nat) : Prop where
  split : as = before ++ a :: after
  place : (before.map f).flatten.length + j = k
  lt : j < (f a).length

section WriteAt
variable {α : Type} {f : α → List WirePair} {as before after : List α} {a : α} {k j : Nat}

theorem exists_writeAt (hk : k < (as.map f).flatten.length) : ∃ before a after j, WriteAt f as k before a after j := by
  induction as generalizing k with
  | nil => cases hk
  | cons a as ih =>
    by_cases hfirst : k < (f a).length
    · exact ⟨[], a, as, k, rfl, Nat.zero_add k, hfirst⟩
    · rw [List.map_cons, List.flatten_cons, List.length_append] at hk
      obtain ⟨before, b, after, j, hsplit, hplace, hlt⟩ := ih (k := k - (f a).length) (by omega)
      refine ⟨a :: before, b, after, j, congrArg (a :: ·) hsplit, ?_, hlt⟩
      rw [List.map_cons, List.flatten_cons, List.length_append]
      omega

theorem WriteAt.take_flatten (h : WriteAt f as k before a after j) :
    (as.map f).flatten.take k = (before.map f).flatten ++ (f a).take j := by
  obtain ⟨rfl, rfl, hlt⟩ := h
  rw [List.map_append, List.flatten_append, List.take_length_add_append, List.map_cons, List.flatten_cons,
    List.take_append_of_le_length hlt.le]

theorem WriteAt.sends {s t : State} (h : WriteAt f as k before a after j)
    (ht : Sends ((f a).take j) (s.afterWindows (before.map f)) t) : Sends ((as.map f).flatten.take k) s t := by
  rw [h.take_flatten]
  exact (sends_afterWindows _ s).trans ht

theorem WriteAt.completes {o : BusOutcome} {s : State} (h : WriteAt f as k before a after j) (hstop : StopsAt k o s) :
    sendWindows (before.map f) s = (s.afterWindows (before.map f), .done) :=
  sendWindows_eq_afterWindows _ (hstop.completes.of_le (by rw [← h.place]; omega))

theorem WriteAt.stops {o : BusOutcome} {s : State} (h : WriteAt f as k before a after j) (hstop : StopsAt k o s) :
    StopsAt j o (s.afterWindows (before.map f)) :=
  StopsAt.rest (h.place ▸ hstop) (State.afterWindows_bus _ s)

end WriteAt

theorem sendWindows_append {pss qss : List (List WirePair)} {s t : State} (h : sendWindows pss s = (t, .done)) :
    sendWindows (pss ++ qss) s = sendWindows qss t := by
  induction pss generalizing s with
  | nil =>
    obtain ⟨rfl, -⟩ := Prod.mk.injEq .. ▸ h
    rfl
  | cons ps pss ih =>
    obtain ⟨u, hfirst, hrest⟩ | ⟨hr, -⟩ := sendWindows_cons_cases h
    · rw [List.cons_append, sendWindows, hfirst]
      exact ih hrest
    · exact absurd rfl hr

/-- Windows whose write `k` fails. -/
theorem sendWindows_fails {pss : List (List WirePair)} {k : Nat} {s : State} (hstop : StopsAt k .fails s)
    (hk : k < pss.flatten.length) : ∃ t, sendWindows pss s = (t, .failed) ∧ Sends (pss.flatten.take k) s t := by
  rw [← List.map_id pss] at hk ⊢
  obtain ⟨before, ps, after, j, h⟩ := exists_writeAt hk
  obtain ⟨t, hsend, ht, -⟩ := sendWindow_fails (h.stops hstop) h.lt
  refine ⟨t, ?_, h.sends ht⟩
  rw [h.split, List.map_append, sendWindows_append (h.completes hstop), List.map_cons, sendWindows, hsend]

/-- Windows whose write `k` never returns. -/
theorem sendWindows_blocks {pss : List (List WirePair)} {k : Nat} {s : State} (hstop : StopsAt k .blocks s)
    (hk : k < pss.flatten.length) :
    ∃ u, sendWindows pss s = ({ u with hung := true }, .blocked) ∧ Sends (pss.flatten.take k) s u := by
  rw [← List.map_id pss] at hk ⊢
  obtain ⟨before, ps, after, j, h⟩ := exists_writeAt hk
  obtain ⟨u, hsend, hu⟩ := sendWindow_blocks (h.stops hstop) h.lt
  refine ⟨u, ?_, h.sends hu⟩
  rw [h.split, List.map_append, sendWindows_append (h.completes hstop), List.map_cons, sendWindows, hsend]

end Sys2Proof.Machine
end

section
/-! PROOF. The configuration calls of the sequencer: the five windows of initialisation, the brightness, the orientation (spec/44
R179 to R183 and R189). -/

namespace Sys2Proof.Machine

/-! ## Initialisation -/

/-- The registers the five windows write and what to, in the order of rule R179. -/
def initializeSettings : List WirePair :=
  [⟨0x0C#8, 0x00#8⟩, ⟨0x0F#8, 0x00#8⟩, ⟨0x0B#8, 0x07#8⟩, ⟨0x09#8, 0x00#8⟩, ⟨0x0C#8, 0x01#8⟩]

theorem initializeWindows_eq (n : Nat) :
    initializeWindows n = initializeSettings.map fun p => registerWindow n p.code fun _ => p.data := by
  simp only [initializeWindows, configWindow_eq]
  rfl

theorem flatten_initializeWindows (n : Nat) :
    (initializeWindows n).flatten =
      List.replicate n ⟨0x0C#8, 0x00#8⟩ ++ List.replicate n ⟨0x0F#8, 0x00#8⟩ ++ List.replicate n ⟨0x0B#8, 0x07#8⟩ ++
        List.replicate n ⟨0x09#8, 0x00#8⟩ ++ List.replicate n ⟨0x0C#8, 0x01#8⟩ := by
  simp [initializeWindows, configWindow, regShutdown, regDisplayTest, regScanLimit, regDecodeMode]

theorem length_flatten_initializeWindows (n : Nat) : (initializeWindows n).flatten.length = 5 * n := by
  simp [initializeWindows, configWindow]
  omega

theorem listed_initializeSettings : ∀ p ∈ initializeSettings, p.Listed := by decide

/-! The three ways the call can end. -/

theorem callInitialize_of_done {s t : State} (h : sendWindows (initializeWindows s.modules) s = (t, .done)) :
    callInitialize s = (t.withCtrl t.ctrl.afterInitialize).withReply (some (.call .ok)) := by
  simp only [callInitialize, h]

theorem callInitialize_of_failed {s t : State} (h : sendWindows (initializeWindows s.modules) s = (t, .failed)) :
    callInitialize s = (t.withCtrl .uninitialized).withReply (some (.call .transportFailure)) := by
  simp only [callInitialize, h]

theorem callInitialize_of_blocked {s t : State} (h : sendWindows (initializeWindows s.modules) s = (t, .blocked)) :
    callInitialize s = t := by
  simp only [callInitialize, h]

/-- Settles O42: the shutdown register is written last, and each of the other three once. -/
theorem initializeSendsFiveWindows : Obligations.InitializeSendsFiveWindows := by
  intro s hs hbus
  have hwired := hs.wired
  have hsend := sendWindows_eq_afterWindows (initializeWindows s.modules)
    (by rwa [length_flatten_initializeWindows] : BusCompletes (initializeWindows s.modules).flatten.length s)
  have hframe := (sends_afterWindows (initializeWindows s.modules) s).toBusFrame
  refine ⟨_, congrArg Host.Outcome.next (callInitialize_of_done hsend), rfl, rfl, ?_, hframe.fb, hframe.rot,
    hframe.brightness, rfl, fun j hj => ?_⟩
  · change Controller.afterInitialize s.ctrl = _
    cases s.ctrl <;> rfl
  · obtain ⟨m, hm⟩ := hwired.exists_place hj
    have written : ∀ {before after : List WirePair} {p : WirePair}, initializeSettings = before ++ p :: after →
        (∀ q ∈ after, p.code ≠ q.code) →
        (s.afterWindows (initializeWindows s.modules)).chipRegister j p.code = some p.data := by
      intro before after p hsplit hlast
      rw [initializeWindows_eq, hsplit]
      exact chipRegister_afterWindows_last (code := WirePair.code) (data := fun p _ => p.data) hwired hm
        (listed_initializeSettings p (by rw [hsplit]; simp)) hlast
    refine ⟨written (p := ⟨0x0C#8, 0x01#8⟩) (before := initializeSettings.take 4) rfl nofun,
      written (p := ⟨0x0F#8, 0x00#8⟩) (before := initializeSettings.take 1) rfl (by decide),
      written (p := ⟨0x0B#8, 0x07#8⟩) (before := initializeSettings.take 2) rfl (by decide),
      written (p := ⟨0x09#8, 0x00#8⟩) (before := initializeSettings.take 3) rfl (by decide),
      fun r hshutdown htest hscan hdecode => ?_⟩
    change (s.afterWindows (initializeWindows s.modules)).chipRegister j r = _
    rw [initializeWindows_eq]
    refine chipRegister_afterWindows_of_ne (code := WirePair.code) hwired hm ?_
    simp [initializeSettings, hshutdown, htest, hscan, hdecode]

/-- Settles O43: the windows stop at the failing pair. -/
theorem failedInitializeUninitializes : Obligations.FailedInitializeUninitializes := by
  intro s k hk hbus hfail
  obtain ⟨t, hsend, ht⟩ := sendWindows_fails (pss := initializeWindows s.modules) ⟨hbus, hfail⟩
    (by rwa [length_flatten_initializeWindows])
  refine ⟨_, congrArg Host.Outcome.next (callInitialize_of_failed hsend), rfl, rfl, ht.fb, ht.rot, ?_⟩
  rw [← flatten_initializeWindows]
  exact ht.sent

/-! ## Brightness -/

theorem listed_intensity {level : Int} (h : 0 ≤ level ∧ level ≤ 15) :
    (⟨regIntensity, BitVec.ofInt 8 level⟩ : WirePair).Listed := by
  obtain ⟨h0, h15⟩ := h
  interval_cases level <;> decide

theorem callSetBrightness_of_not_inRange {level : Int} (h : level < 0 ∨ level > 15) (s : State) :
    callSetBrightness level s = s.withReply (some (.call .outOfRange)) := if_pos h

theorem callSetBrightness_of_uninitialized {level : Int} (h : 0 ≤ level ∧ level ≤ 15) {s : State}
    (hctrl : s.ctrl = .uninitialized) : callSetBrightness level s = s.withReply (some (.call .notInitialized)) := by
  rw [callSetBrightness, if_neg (by omega), if_pos hctrl]

/-- The one window of the call: the level to every intensity register. -/
def intensityWindow (n : Nat) (level : Int) : List WirePair := registerWindow n regIntensity fun _ => BitVec.ofInt 8 level

theorem intensityWindow_eq (n : Nat) (level : Int) :
    intensityWindow n level = List.replicate n ⟨0x0A#8, BitVec.ofInt 8 level⟩ := (configWindow_eq ..).symm

@[simp] theorem length_intensityWindow (n : Nat) (level : Int) : (intensityWindow n level).length = n :=
  length_registerWindow ..

section SetBrightness
variable {level : Int} {s t : State} (h : 0 ≤ level ∧ level ≤ 15) (hctrl : s.ctrl ≠ .uninitialized)
include h hctrl

/-! The three ways it can end once it writes to the bus. -/

theorem callSetBrightness_of_done (hsend : sendWindow (intensityWindow s.modules level) s = (t, .done)) :
    callSetBrightness level s = (t.withBrightness (brightnessOf level)).withReply (some (.call .ok)) := by
  rw [callSetBrightness, if_neg (by omega), if_neg hctrl, configWindow_eq, ← intensityWindow, hsend]

theorem callSetBrightness_of_failed (hsend : sendWindow (intensityWindow s.modules level) s = (t, .failed)) :
    callSetBrightness level s = t.withReply (some (.call .transportFailure)) := by
  rw [callSetBrightness, if_neg (by omega), if_neg hctrl, configWindow_eq, ← intensityWindow, hsend]

theorem callSetBrightness_of_blocked (hsend : sendWindow (intensityWindow s.modules level) s = (t, .blocked)) :
    callSetBrightness level s = t := by
  rw [callSetBrightness, if_neg (by omega), if_neg hctrl, configWindow_eq, ← intensityWindow, hsend]

end SetBrightness

theorem brightnessOf_eq {level : Int} (h : 0 ≤ level ∧ level ≤ 15) : ((brightnessOf level : Nat) : Int) = level := by
  simp only [brightnessOf, Fin.val_ofNat]
  omega

/-- Settles O44: the one window completes, or fails at its write `k`. -/
theorem setBrightnessWritesIntensity : Obligations.SetBrightnessWritesIntensity := by
  intro s level
  refine ⟨fun h => congrArg Host.Outcome.next (callSetBrightness_of_not_inRange h s),
    fun h hctrl => congrArg Host.Outcome.next (callSetBrightness_of_uninitialized h hctrl), fun h hctrl hs hbus => ?_,
    fun h hctrl _ k hk hbus hfail => ?_⟩
  · have hsend := sendWindow_eq_afterWindow (intensityWindow s.modules level)
      (by rwa [length_intensityWindow] : BusCompletes _ s)
    refine ⟨_, congrArg Host.Outcome.next (callSetBrightness_of_done h hctrl hsend), rfl, brightnessOf_eq h,
      congrArg (s.sent ++ windowEvents ·) (intensityWindow_eq _ _), rfl, rfl, rfl, fun j hj => ?_⟩
    obtain ⟨m, hm⟩ := hs.wired.exists_place hj
    exact ⟨chipRegister_afterWindow_self (data := fun _ => _) hs.wired hm (listed_intensity h), fun r hr =>
      (chipRegister_afterWindow hs.wired hm _ _ r).trans (if_neg hr)⟩
  · obtain ⟨t, hsend, ht, hregs⟩ := sendWindow_fails (ps := intensityWindow s.modules level) ⟨hbus, hfail⟩
      (by rwa [length_intensityWindow])
    refine ⟨_, congrArg Host.Outcome.next (callSetBrightness_of_failed h hctrl hsend), rfl, ht.brightness, ht.ctrl, ht.fb,
      ht.rot, ht.hung, ?_, fun j r hr => hregs j r fun p hp => ?_⟩
    · refine ht.sent.trans ?_
      rw [intensityWindow_eq, List.take_replicate, Nat.min_eq_left hk.le]
    · rwa [code_of_mem_registerWindow hp]

/-! ## Orientation -/

theorem callSetRotation_eq {degrees : Int} {s t : State} (h : execSetrot degrees s = .next t) :
    callSetRotation degrees s = .next (t.withReply (t.reply.map Reply.toCall)) := by
  simp only [callSetRotation, h]

/-- Settles O45: SETROT answers every integer, and its status is the call's result. -/
theorem setRotationDelegates : Obligations.SetRotationDelegates := by
  refine fun s degrees => ⟨?_, fun hbad => callSetRotation_eq (execSetrot_refused (by omega))⟩
  rintro r rfl hquarter
  obtain ⟨hdeg, hcode⟩ := orientation_of_code r
  have haccepted := execSetrot_accepted hdeg fun hn => not_isQuarterTurn_of_code (hquarter hn)
  rw [hcode] at haccepted
  exact callSetRotation_eq haccepted

end Sys2Proof.Machine
end

section
/-! PROOF. `show`: the frame of the bytes RDROW answers, sent row by row, and what is left of it when a write fails (spec/44 R177,
R181, R184, R186 and R189). -/

namespace Sys2Proof.Machine

/-! ## The frame -/

/-- The byte RDROW reads for row `y` and module `m`, where it reads one. -/
def State.rowByte (s : State) (y m : Nat) : Byte := (s.fb.rowByte? s.modules s.rot y m).getD 0x00#8

/-- The window of row `y`. -/
def State.rowPairs (s : State) (y : Nat) : List WirePair := registerWindow s.modules (regDigit y) (s.rowByte y)

/-- The eight windows of a frame. -/
def State.frameWindows (s : State) : List (List WirePair) := (List.range 8).map s.rowPairs

@[simp] theorem length_rowPairs (s : State) (y : Nat) : (s.rowPairs y).length = s.modules := length_registerWindow ..

theorem length_flatten_map_rowPairs (ys : List Nat) (s : State) :
    (ys.map s.rowPairs).flatten.length = ys.length * s.modules := by
  simp [List.length_flatten, Function.comp_def]

theorem length_flatten_frameWindows (s : State) : s.frameWindows.flatten.length = 8 * s.modules := by
  rw [State.frameWindows, length_flatten_map_rowPairs, List.length_range]

theorem State.Inv.rowByte?_eq {s : State} (hs : s.Inv) {y m : Nat} (hy : y < 8) (hm : m < s.modules) :
    s.fb.rowByte? s.modules s.rot y m = some (s.rowByte y m) := by
  obtain ⟨-, -, hwf, hrot, -⟩ := hs
  obtain ⟨d, hd, -⟩ := Memory.rowByte?_of_readable (y := y) (k := m) hwf hrot (by omega) (by omega)
  rw [State.rowByte, hd, Option.getD_some]

theorem State.Inv.exec_rdrow {s : State} (hs : s.Inv) {y m : Nat} (hy : y < 8) (hm : m < s.modules) :
    exec (.rdrow y m) s = .next { s with reply := some (.response .ok (s.rowByte y m)) } :=
  exec_rdrow_of_rowByte (by omega) (hs.rowByte?_eq hy hm)

/-- The window of a row asks for the modules in order. -/
theorem rowWindow?_eq_mapM (y : Nat) (s : State) :
    rowWindow? y s = ((List.range s.modules).map fun (m : Nat) => (m : Int)).mapM fun m =>
      (s.fb.rowByte? s.modules s.rot (y : Int) m).map fun d => ⟨regDigit y, d⟩ := by
  rw [List.map_eq_flatMap]
  rfl

theorem State.Inv.rowWindow?_eq {s : State} (hs : s.Inv) {y : Nat} (hy : y < 8) : rowWindow? y s = some (s.rowPairs y) := by
  rw [rowWindow?_eq_mapM]
  refine mapM_eq_some_of_forall₂ (List.forall₂_map_left_iff.2 (List.forall₂_map_right_iff.2
    (List.forall₂_same.2 fun m hm => ?_)))
  rw [hs.rowByte?_eq hy (List.mem_range.1 hm), Option.map_some]

/-- The block is the same: the store, the orientation and the module count. -/
structure SameBlock (s t : State) : Prop where
  modules : t.modules = s.modules
  fb : t.fb = s.fb
  rot : t.rot = s.rot

theorem BusFrame.sameBlock {s t : State} (h : BusFrame s t) : SameBlock s t := ⟨h.modules, h.fb, h.rot⟩

theorem SameBlock.rowWindow? {s t : State} (h : SameBlock s t) (y : Nat) : rowWindow? y t = rowWindow? y s := by
  simp only [Sys2Proof.Machine.rowWindow?, h.modules, h.fb, h.rot]

/-- The frame is of the block alone. -/
theorem SameBlock.rowPairs {s t : State} (h : SameBlock s t) : t.rowPairs = s.rowPairs := by
  funext y
  simp only [State.rowPairs, registerWindow, State.rowByte, h.modules, h.fb, h.rot]

theorem SameBlock.frameWindows {s t : State} (h : SameBlock s t) : t.frameWindows = s.frameWindows := by
  rw [State.frameWindows, h.rowPairs, State.frameWindows]

/-! ## The row loop -/

theorem showRows_cons_of_done {y : Nat} {ys : List Nat} {ps : List WirePair} {s t : State} (hrow : rowWindow? y s = some ps)
    (hsend : sendWindow ps s = (t, .done)) : showRows (y :: ys) s = showRows ys t := by
  rw [showRows, hrow]
  simp only [hsend]

theorem showRows_cons_of_failed {y : Nat} {ys : List Nat} {ps : List WirePair} {s t : State} (hrow : rowWindow? y s = some ps)
    (hsend : sendWindow ps s = (t, .failed)) :
    showRows (y :: ys) s = .next ((scrambleRows ys t).withReply (some (.call .transportFailure))) := by
  rw [showRows, hrow]
  simp only [hsend]

theorem showRows_cons_of_blocked {y : Nat} {ys : List Nat} {ps : List WirePair} {s t : State}
    (hrow : rowWindow? y s = some ps) (hsend : sendWindow ps s = (t, .blocked)) : showRows (y :: ys) s = .next t := by
  rw [showRows, hrow]
  simp only [hsend]

/-- Rows whose windows complete are those windows, and the loop goes on. -/
theorem showRows_append {frame : Nat → List WirePair} {ys zs : List Nat} {s t : State}
    (hrows : ∀ y ∈ ys, rowWindow? y s = some (frame y)) (h : sendWindows (ys.map frame) s = (t, .done)) :
    showRows (ys ++ zs) s = showRows zs t := by
  induction ys generalizing s with
  | nil =>
    obtain ⟨rfl, -⟩ := Prod.mk.injEq .. ▸ h
    rfl
  | cons y ys ih =>
    obtain ⟨hrow, hrest⟩ := List.forall_mem_cons.1 hrows
    obtain ⟨u, hsend, hsends⟩ | ⟨hr, -⟩ := sendWindows_cons_cases h
    · have hblock := (sendWindow_frame hsend).sameBlock
      rw [List.cons_append, showRows_cons_of_done hrow hsend]
      exact ih (fun z hz => (hblock.rowWindow? z).trans (hrest z hz)) hsends
    · exact absurd rfl hr

theorem callShow_of_uninitialized {s : State} (h : s.ctrl = .uninitialized) :
    callShow s = .next (s.withReply (some (.call .notInitialized))) := if_pos h

/-- The row in which bus write `k` of a `show` falls. -/
theorem exists_row {s : State} {k : Nat} (hk : k < 8 * s.modules) :
    ∃ before y after j, WriteAt s.rowPairs (List.range 8) k before y after j :=
  exists_writeAt (by rwa [← State.frameWindows, length_flatten_frameWindows])

/-- A `show` goes on to the row in which a bus write does not complete. -/
theorem callShow_of_stops {s : State} (hs : s.Inv) (hctrl : s.ctrl ≠ .uninitialized) {k : Nat} {o : BusOutcome}
    (hstop : StopsAt k o s) {before after : List Nat} {y j : Nat} (h : WriteAt s.rowPairs (List.range 8) k before y after j) :
    callShow s = showRows (y :: after) (s.afterWindows (before.map s.rowPairs)) ∧
      rowWindow? y (s.afterWindows (before.map s.rowPairs)) = some (s.rowPairs y) := by
  have hrow : ∀ z ∈ before ++ y :: after, rowWindow? z s = some (s.rowPairs z) := by
    rw [← h.split]
    exact fun z hz => hs.rowWindow?_eq (List.mem_range.1 hz)
  have hblock := (sends_afterWindows (before.map s.rowPairs) s).toBusFrame.sameBlock
  constructor
  · rw [callShow, if_neg hctrl, h.split]
    exact showRows_append (fun z hz => hrow z (List.mem_append_left _ hz)) (h.completes hstop)
  · exact (hblock.rowWindow? y).trans (hrow y (by simp))

/-! ## What the modules hold -/

/-- Rows whose windows are complete stand in the digit registers. -/
theorem chipRegister_rows {s : State} (hs : Wired s) {m j : Nat} (hm : s.chainOrder[m]? = some j) {ys : List Nat}
    (hnodup : ys.Nodup) (hlt : ∀ y ∈ ys, y < 8) {y : Nat} (hy : y ∈ ys) :
    (s.afterWindows (ys.map s.rowPairs)).chipRegister j (regDigit y) = some (s.rowByte y m) := by
  obtain ⟨before, after, rfl⟩ := List.append_of_mem hy
  have hafter : y ∉ after := (List.nodup_cons.1 (List.nodup_append.1 hnodup).2.1).1
  refine chipRegister_afterWindows_last (code := regDigit) (data := s.rowByte) hs hm (listed_digit (hlt y hy) _)
    fun z hz heq => hafter ?_
  rwa [regDigit_inj (hlt y hy) (hlt z (by simp [hz])) heq]

theorem chipRegister_frame {s : State} (hs : Wired s) {m j : Nat} (hm : s.chainOrder[m]? = some j) {y : Nat} (hy : y < 8) :
    (s.afterWindows s.frameWindows).chipRegister j (regDigit y) = some (s.rowByte y m) :=
  chipRegister_rows hs hm List.nodup_range (fun _ hz => List.mem_range.1 hz) (List.mem_range.2 hy)

theorem chipRegister_frame_of_ne {s : State} (hs : Wired s) {m j : Nat} (hm : s.chainOrder[m]? = some j) {r : Byte}
    (hr : ∀ y < 8, r ≠ regDigit y) : (s.afterWindows s.frameWindows).chipRegister j r = s.chipRegister j r :=
  chipRegister_afterWindows_of_ne (code := regDigit) (data := s.rowByte) hs hm fun y hy => hr y (List.mem_range.1 hy)

/-- `t` is `s` after a `show` whose writes have all completed. -/
structure Shown (s t : State) : Prop extends SameBlock s t where
  brightness : t.brightness = s.brightness
  inputs : t.inputs = s.inputs
  hung : t.hung = s.hung
  ctrl : t.ctrl = .active
  reply : t.reply = some (.call .ok)
  bus : t.bus = s.bus.drop (8 * s.modules)
  events : t.sent = s.sent ++ s.frameWindows.flatMap windowEvents
  sent : sentPairs t.sent = sentPairs s.sent ++ s.frameWindows.flatten
  wired : Wired t
  digits : ∀ m j : Nat, s.chainOrder[m]? = some j → ∀ y < 8, t.chipRegister j (regDigit y) = some (s.rowByte y m)
  others : ∀ m j : Nat, s.chainOrder[m]? = some j → ∀ r, (∀ y < 8, r ≠ regDigit y) →
    t.chipRegister j r = s.chipRegister j r

theorem callShow_eq_afterWindows {s : State} (hs : s.Inv) (hctrl : s.ctrl ≠ .uninitialized)
    (hbus : BusCompletes (8 * s.modules) s) :
    callShow s = .next (((s.afterWindows s.frameWindows).withCtrl .active).withReply (some (.call .ok))) := by
  have hsend := sendWindows_eq_afterWindows s.frameWindows (by rwa [length_flatten_frameWindows] : BusCompletes _ s)
  have hrows := showRows_append (zs := []) (fun y hy => hs.rowWindow?_eq (List.mem_range.1 hy)) hsend
  rw [List.append_nil] at hrows
  rw [callShow, if_neg hctrl, hrows, showRows]

/-- The frame has gone out and is in the registers; what is left of the call is its end. -/
theorem Sends.shown {s u : State} (hu : Sends s.frameWindows.flatten s u) (hbus : u.bus = s.bus.drop (8 * s.modules))
    (hevents : u.sent = s.sent ++ s.frameWindows.flatMap windowEvents) (hwired : Wired u)
    (hdigits : ∀ m j : Nat, s.chainOrder[m]? = some j → ∀ y < 8, u.chipRegister j (regDigit y) = some (s.rowByte y m))
    (hothers : ∀ m j : Nat, s.chainOrder[m]? = some j → ∀ r, (∀ y < 8, r ≠ regDigit y) →
      u.chipRegister j r = s.chipRegister j r) : Shown s ((u.withCtrl .active).withReply (some (.call .ok))) :=
  ⟨⟨hu.modules, hu.fb, hu.rot⟩, hu.brightness, hu.inputs, hu.hung, rfl, rfl, hbus, hevents, hu.sent,
    ⟨hwired.order, hwired.chips⟩, hdigits, hothers⟩

/-- A `show` whose writes all complete. -/
theorem callShow_of_completes {s : State} (hs : s.Inv) (hctrl : s.ctrl ≠ .uninitialized)
    (hbus : BusCompletes (8 * s.modules) s) : ∃ t, Shown s t ∧ callShow s = .next t := by
  have hrest : (s.afterWindows s.frameWindows).bus = s.bus.drop (8 * s.modules) := by
    rw [State.afterWindows_bus, length_flatten_frameWindows]
  have hshown := (sends_afterWindows s.frameWindows s).shown hrest (State.afterWindows_sent s.frameWindows s)
    (hs.wired.afterWindows s.frameWindows) (fun _ _ hm _ hy => chipRegister_frame hs.wired hm hy)
    (fun _ _ hm _ hr => chipRegister_frame_of_ne hs.wired hm hr)
  exact ⟨_, hshown, callShow_eq_afterWindows hs hctrl hbus⟩

/-- Settles O46: `show` looks at the controller before it reads a row. -/
theorem showBeforeInitializeFails : Obligations.ShowBeforeInitializeFails := fun _ h => callShow_of_uninitialized h

/-- Settles O47: the frame is read from the block, which no window changes. -/
theorem showTransmitsTheImage : Obligations.ShowTransmitsTheImage := by
  refine fun s => ⟨callShow_of_uninitialized, fun hs hctrl hbus => ?_⟩
  obtain ⟨t, ht, hshow⟩ := callShow_of_completes hs hctrl hbus
  refine ⟨s.rowByte, t, fun y m hy hm => hs.exec_rdrow hy hm, hshow, ht.reply, ?_, ht.ctrl, ht.fb, ht.rot, ht.brightness,
    fun y m j hy hm => ht.digits m j hm y hy⟩
  refine ht.events.trans ?_
  rw [State.frameWindows, List.flatMap_map]
  rfl

/-! ## A failed frame -/

theorem sends_scrambleRows (ys : List Nat) (s : State) : Sends [] s (scrambleRows ys s) := by
  induction ys generalizing s with
  | nil => exact ⟨.refl s, rfl, (List.append_nil _).symm⟩
  | cons y ys ih =>
    have hy : Sends [] s (scrambleRows [y] s) := ⟨⟨rfl, rfl, rfl, rfl, rfl, rfl, rfl, rfl⟩, rfl, (List.append_nil _).symm⟩
    exact hy.trans (ih _)

/-- The rows not written leave the other registers alone. -/
theorem chipRegister_scrambleRows {ys : List Nat} {r : Byte} (hr : ∀ y ∈ ys, r ≠ regDigit y) (s : State) (j : Nat) :
    (scrambleRows ys s).chipRegister j r = s.chipRegister j r := by
  induction ys generalizing s with
  | nil => rfl
  | cons y ys ih =>
    obtain ⟨hy, hys⟩ := List.forall_mem_cons.1 hr
    exact (ih hys _).trans (read_scrambleAll s.freeDraws [regDigit y] s.chips j r (by simpa using hy))

/-- A row whose window ends at bus write `k` or before is a row before that of write `k`. -/
theorem WriteAt.mem_before {s : State} {k : Nat} {before after : List Nat} {y j : Nat}
    (h : WriteAt s.rowPairs (List.range 8) k before y after j) {z : Nat} (hz : (z + 1) * s.modules ≤ k) : z ∈ before := by
  obtain ⟨hsplit, hplace, hlt⟩ := h
  rw [length_flatten_map_rowPairs] at hplace
  rw [length_rowPairs] at hlt
  have hzlt : z < before.length := by
    have hmul : (z + 1) * s.modules < (before.length + 1) * s.modules := by
      rw [Nat.succ_mul before.length]
      omega
    exact Nat.lt_of_succ_lt_succ (Nat.lt_of_mul_lt_mul_right hmul)
  have hlength : before.length < 8 := by
    have := congrArg List.length hsplit
    simp only [List.length_range, List.length_append, List.length_cons] at this
    omega
  have hget : before[z]? = some z := by
    rw [← List.getElem?_append_left (l₂ := y :: after) hzlt, ← hsplit]
    simp only [List.getElem?_range (hzlt.trans hlength)]
  exact List.mem_of_getElem? hget

/-- Settles O49: the row of the failing write and the later ones are lost, the rows before it stand. -/
theorem failedShowKeepsWhatWasSent : Obligations.FailedShowKeepsWhatWasSent := by
  intro s k hs hctrl hk hbus hfail
  have hstop : StopsAt k .fails s := ⟨hbus, hfail⟩
  obtain ⟨before, y, after, j, h⟩ := exists_row hk
  obtain ⟨hshow, hrow⟩ := callShow_of_stops hs hctrl hstop h
  obtain ⟨t, hsend, ht, hregs⟩ := sendWindow_fails (h.stops hstop) h.lt
  have hsent := (h.sends ht).trans (sends_scrambleRows after t)
  rw [List.append_nil] at hsent
  refine ⟨s.rowByte, _, fun z m hz hm => hs.exec_rdrow hz hm, hshow.trans (showRows_cons_of_failed hrow hsend), rfl,
    hsent.sent, hsent.ctrl, hsent.brightness, hsent.fb, hsent.rot, fun z m i hz hm => ?_⟩
  have hnodup : (before ++ y :: after).Nodup := h.split ▸ List.nodup_range
  have hlt : ∀ x ∈ before ++ y :: after, x < 8 := by
    rw [← h.split]
    exact fun x hx => List.mem_range.1 hx
  have hzbefore := h.mem_before hz
  have hother : ∀ x ∈ y :: after, regDigit z ≠ regDigit x := fun x hx heq => by
    have hzx := regDigit_inj (hlt z (List.mem_append_left _ hzbefore)) (hlt x (List.mem_append_right _ hx)) heq
    exact List.disjoint_of_nodup_append hnodup hzbefore (hzx ▸ hx)
  calc (scrambleRows after t).chipRegister i (regDigit z)
    _ = t.chipRegister i (regDigit z) := chipRegister_scrambleRows (fun x hx => hother x (List.mem_cons_of_mem _ hx)) t i
    _ = (s.afterWindows (before.map s.rowPairs)).chipRegister i (regDigit z) := hregs i _ fun p hp => by
      rw [code_of_mem_registerWindow hp]
      exact hother y List.mem_cons_self
    _ = some (s.rowByte z m) := chipRegister_rows hs.wired hm (List.nodup_append.1 hnodup).1
      (fun x hx => hlt x (List.mem_append_left _ hx)) hzbefore

end Sys2Proof.Machine
end

section
/-! PROOF. What leaves the block as it is, however the bus answers, and the calls that never return (spec/44 R179, R182, R184,
R189 and R190). -/

namespace Sys2Proof.Machine

/-! ## What leaves the block as it is -/

theorem SameBlock.trans {s t u : State} (h : SameBlock s t) (h' : SameBlock t u) : SameBlock s u :=
  ⟨h'.modules.trans h.modules, h'.fb.trans h.fb, h'.rot.trans h.rot⟩

/-- The block is the same, and so are the inputs still waiting. -/
structure Quiet (s t : State) : Prop extends SameBlock s t where
  inputs : t.inputs = s.inputs

theorem BusFrame.quiet {s t : State} (h : BusFrame s t) : Quiet s t := ⟨h.sameBlock, h.inputs⟩

theorem Quiet.refl (s : State) : Quiet s s := (BusFrame.refl s).quiet

theorem Quiet.trans {s t u : State} (h : Quiet s t) (h' : Quiet t u) : Quiet s u :=
  ⟨h.toSameBlock.trans h'.toSameBlock, h'.inputs.trans h.inputs⟩

/-! `Quiet` does not speak of the fields these updates write. -/

theorem Quiet.withReply {s t : State} (h : Quiet s t) (r : Option Reply) : Quiet s (t.withReply r) :=
  h.trans ⟨⟨rfl, rfl, rfl⟩, rfl⟩
theorem Quiet.withCtrl {s t : State} (h : Quiet s t) (c : Controller) : Quiet s (t.withCtrl c) :=
  h.trans ⟨⟨rfl, rfl, rfl⟩, rfl⟩
theorem Quiet.withBrightness {s t : State} (h : Quiet s t) (b : Fin 16) : Quiet s (t.withBrightness b) :=
  h.trans ⟨⟨rfl, rfl, rfl⟩, rfl⟩

theorem exec_quiet {i : Instr} (hi : i.isCommand = true → isRead i = true) {s t : State} (ht : exec i s = .next t) :
    Quiet s t := by
  obtain hcommand | ⟨p, hp⟩ := isCommand_or_pairOf i
  · rw [exec_read_writes_reply hcommand (hi hcommand) ht]
    exact (Quiet.refl s).withReply _
  · rw [exec_of_pairOf hp] at ht
    obtain ⟨-, u, r, hu, ho⟩ | ⟨-, ho⟩ := registerWrite_cases p.code p.data s
    · cases ho.symm.trans ht
      exact (wirePair_frame hu).quiet.withReply _
    · cases ho.symm.trans ht

theorem runExpansion_quiet {cmds : List Instr} (hcmds : ∀ i ∈ cmds, isRead i = true) {answer : List (Option Reply) → Reply}
    {s t : State} (h : runExpansion cmds answer s = .next t) : Quiet s t := by
  obtain ⟨u, rs, hrun, rfl⟩ := runExpansion_eq_next h
  have hu : Quiet s u := runCommands_keeps hrun (.refl s) fun i hi _ _ hs ht => hs.trans (exec_quiet (fun _ => hcmds i hi) ht)
  exact hu.withReply _

theorem callInitialize_quiet (s : State) : Quiet s (callInitialize s) := by
  cases h : sendWindows (initializeWindows s.modules) s with
  | mk t r =>
    have ht := (sendWindows_frame h).quiet
    cases r with
    | done => exact callInitialize_of_done h ▸ (ht.withCtrl _).withReply _
    | failed => exact callInitialize_of_failed h ▸ (ht.withCtrl _).withReply _
    | blocked => exact callInitialize_of_blocked h ▸ ht

theorem callSetBrightness_quiet (level : Int) (s : State) : Quiet s (callSetBrightness level s) := by
  by_cases hlevel : level < 0 ∨ level > 15
  · exact callSetBrightness_of_not_inRange hlevel s ▸ (Quiet.refl s).withReply _
  · replace hlevel : 0 ≤ level ∧ level ≤ 15 := by omega
    by_cases hctrl : s.ctrl = .uninitialized
    · exact callSetBrightness_of_uninitialized hlevel hctrl ▸ (Quiet.refl s).withReply _
    · cases h : sendWindow (intensityWindow s.modules level) s with
      | mk t r =>
        have ht := (sendWindow_frame h).quiet
        cases r with
        | done => exact callSetBrightness_of_done hlevel hctrl h ▸ (ht.withBrightness _).withReply _
        | failed => exact callSetBrightness_of_failed hlevel hctrl h ▸ ht.withReply _
        | blocked => exact callSetBrightness_of_blocked hlevel hctrl h ▸ ht

/-- How the row loop of `show` can end: all rows are sent, or the first row is, and the others go on from there, or it is the
last. -/
theorem showRows_cases {y : Nat} {ys : List Nat} {s t : State} (h : showRows (y :: ys) s = .next t) :
    ∃ ps u, rowWindow? y s = some ps ∧
      ((sendWindow ps s = (u, .done) ∧ showRows ys u = .next t) ∨
        (sendWindow ps s = (u, .failed) ∧ t = (scrambleRows ys u).withReply (some (.call .transportFailure))) ∨
        (sendWindow ps s = (u, .blocked) ∧ t = u)) := by
  cases hrow : rowWindow? y s with
  | none =>
    rw [showRows, hrow] at h
    cases h
  | some ps =>
    refine ⟨ps, (sendWindow ps s).1, rfl, ?_⟩
    cases hsend : sendWindow ps s with
    | mk u r =>
      cases r with
      | done => exact .inl ⟨rfl, (showRows_cons_of_done hrow hsend).symm.trans h⟩
      | failed => exact .inr (.inl ⟨rfl, Host.Outcome.next.inj (h.symm.trans (showRows_cons_of_failed hrow hsend))⟩)
      | blocked => exact .inr (.inr ⟨rfl, Host.Outcome.next.inj (h.symm.trans (showRows_cons_of_blocked hrow hsend))⟩)

theorem showRows_quiet {ys : List Nat} {s t : State} (h : showRows ys s = .next t) : Quiet s t := by
  induction ys generalizing s with
  | nil =>
    cases h
    exact ((Quiet.refl s).withCtrl _).withReply _
  | cons y ys ih =>
    obtain ⟨ps, u, -, ⟨hsend, hrest⟩ | ⟨hsend, rfl⟩ | ⟨hsend, rfl⟩⟩ := showRows_cases h
    · exact (sendWindow_frame hsend).quiet.trans (ih hrest)
    · exact ((sendWindow_frame hsend).quiet.trans (sends_scrambleRows ys u).toBusFrame.quiet).withReply _
    · exact (sendWindow_frame hsend).quiet

theorem callShow_quiet {s t : State} (h : callShow s = .next t) : Quiet s t := by
  unfold callShow at h
  split at h
  · cases h
    exact (Quiet.refl s).withReply _
  · exact showRows_quiet h

theorem runCall_quiet {c : HostCall} (hc : mayWriteBlock (.call c) = false) {s t : State} (h : runCall c s = .next t) :
    Quiet s t := by
  cases c with
  | clear | loadMatrix | loadPattern | setRotation => cases hc
  | dumpMatrix => exact runExpansion_quiet (List.forall_mem_map.2 fun _ _ => rfl) h
  | readFrame =>
    refine runExpansion_quiet (fun i hi => ?_) h
    obtain ⟨y, m, -, -, rfl⟩ := mem_readFrameCommands.1 hi
    rfl
  | initialise => exact Host.Outcome.next.inj h ▸ callInitialize_quiet s
  | setBrightness level => exact Host.Outcome.next.inj h ▸ callSetBrightness_quiet level s
  | showFrame => exact callShow_quiet h

theorem runWord_quiet {e : Encoded} (he : mayWriteBlock (.word e) = false) {s t : State} (h : runWord e s = .next t) :
    Quiet s t := by
  obtain ⟨i, hi, ho⟩ | ⟨-, ho⟩ | ho := runWord_cases e s
  · simp only [mayWriteBlock, hi] at he
    exact exec_quiet (by simpa using he) (ho ▸ h)
  · cases ho.symm.trans h
    exact (Quiet.refl s).withReply _
  · cases ho.symm.trans h

/-- A step on an input that does not write the block takes that input and leaves the block. -/
theorem step_quiet {s t : State} {x : Input} {rest : List Input} (hh : s.hung = false) (hi : s.inputs = x :: rest)
    (hx : mayWriteBlock x = false) (h : step s = .next t) : SameBlock s t ∧ t.inputs = rest := by
  have ht : Quiet (s.taken rest) t := by
    cases x with
    | word e => exact runWord_quiet hx (step_of_word hh hi ▸ h)
    | call c => exact runCall_quiet hx (step_of_call hh hi ▸ h)
  exact ⟨⟨ht.modules, ht.fb, ht.rot⟩, ht.inputs⟩

/-- Settles O51: none of the three is an input that may write the block. -/
theorem sequencerLeavesTheBlock : Obligations.SequencerLeavesTheBlock := by
  rintro c s t (rfl | ⟨l, rfl⟩ | rfl) h
  all_goals
    have hquiet := runCall_quiet rfl h
    exact ⟨hquiet.fb, hquiet.rot⟩

/-! ## A call that never returns -/

/-- The pairs of a call that writes to the bus, in order. -/
def callPairs (s : State) : HostCall → List WirePair
  | .initialise => (initializeWindows s.modules).flatten
  | .setBrightness level => intensityWindow s.modules level
  | .showFrame => s.frameWindows.flatten
  | .clear | .loadMatrix _ | .dumpMatrix | .loadPattern _ _ _ | .readFrame | .setRotation _ => []

/-- What a call that makes a bus write asks of the state, and that the write is one of its pairs. -/
theorem lt_busWrites {k : Nat} {s : State} {c : HostCall} (hk : k < busWrites s c) :
    k < (callPairs s c).length ∧ (∀ level, c = .setBrightness level → 0 ≤ level ∧ level ≤ 15) ∧
      (c ≠ .initialise → s.ctrl ≠ .uninitialized) := by
  cases c with
  | clear | loadMatrix | dumpMatrix | loadPattern | readFrame | setRotation => cases hk
  | initialise => exact ⟨(length_flatten_initializeWindows _).symm ▸ hk, nofun, fun h => absurd rfl h⟩
  | setBrightness level =>
    by_cases h : 0 ≤ level ∧ level ≤ 15 ∧ s.ctrl ≠ .uninitialized
    · obtain ⟨h0, h15, hctrl⟩ := h
      rw [busWrites, if_pos ⟨h0, h15, hctrl⟩] at hk
      refine ⟨(length_intensityWindow ..).symm ▸ hk, ?_, fun _ => hctrl⟩
      rintro _ ⟨⟩
      exact ⟨h0, h15⟩
    · rw [busWrites, if_neg h] at hk
      cases hk
  | showFrame =>
    by_cases h : s.ctrl ≠ .uninitialized
    · rw [busWrites, if_pos h] at hk
      exact ⟨(length_flatten_frameWindows s).symm ▸ hk, nofun, fun _ => h⟩
    · rw [busWrites, if_neg h] at hk
      cases hk

/-- A call whose write `k` never returns stops after the first `k` of its pairs. -/
theorem runCall_blocks {c : HostCall} {s : State} (hs : s.Inv) {k : Nat} (hk : k < busWrites s c)
    (hstop : StopsAt k .blocks s) :
    ∃ u, runCall c s = .next { u with hung := true } ∧ Sends ((callPairs s c).take k) s u := by
  obtain ⟨hlt, hlevel, hctrl⟩ := lt_busWrites hk
  cases c with
  | clear | loadMatrix | dumpMatrix | loadPattern | readFrame | setRotation => cases hk
  | initialise =>
    obtain ⟨u, hsend, hu⟩ := sendWindows_blocks hstop hlt
    exact ⟨u, congrArg Host.Outcome.next (callInitialize_of_blocked hsend), hu⟩
  | setBrightness level =>
    obtain ⟨u, hsend, hu⟩ := sendWindow_blocks hstop hlt
    exact ⟨u, congrArg Host.Outcome.next (callSetBrightness_of_blocked (hlevel level rfl) (hctrl nofun) hsend), hu⟩
  | showFrame =>
    obtain ⟨before, y, after, j, h⟩ := exists_writeAt hlt
    obtain ⟨hshow, hrow⟩ := callShow_of_stops hs (hctrl nofun) hstop h
    obtain ⟨u, hsend, hu⟩ := sendWindow_blocks (h.stops hstop) h.lt
    exact ⟨u, hshow.trans (showRows_cons_of_blocked hrow hsend), h.sends hu⟩

/-- Settles O41: a register write stops before its pair, a call inside the windows it was to send. -/
theorem blockedBusWriteNeverReturns : Obligations.BlockedBusWriteNeverReturns := by
  refine ⟨fun i p s rest hp hi hbus => exec_of_blocked hp hi hbus, fun c s rest k hs hh hi hk hbus hblock => ?_⟩
  obtain ⟨u, hcall, hu⟩ := runCall_blocks (s := s.taken rest) hs hk ⟨hbus, hblock⟩
  have hsent : sentPairs u.sent = (callPairs s c).take k := hu.sent
  refine ⟨_, (step_of_call hh hi).trans hcall, hu.reply, rfl, step_of_hung rfl, ?_, hu.fb, hu.rot, hu.ctrl, hu.brightness,
    hu.inputs, ?_, ?_, ?_⟩
  · exact (congrArg List.length hsent).trans (List.length_take_of_le (lt_busWrites hk).1.le)
  · rintro rfl
    rw [← flatten_initializeWindows]
    exact hsent
  · rintro level rfl
    refine hsent.trans ?_
    have hkn : k < (intensityWindow s.modules level).length := (lt_busWrites hk).1
    rw [length_intensityWindow] at hkn
    rw [callPairs, intensityWindow_eq, List.take_replicate, Nat.min_eq_left hkn.le]
  · rintro rfl
    exact ⟨s.rowByte, fun z m hz hm => hs.exec_rdrow hz hm, hsent⟩

end Sys2Proof.Machine
end

section
/-! PROOF. From a good state only a pair outside the register table stops the machine (spec/44 R175; spec/90 R200). -/

namespace Sys2Proof.Machine

/-! ## Only pairs outside the table are refused -/

/-- A code of no row has no valid data. -/
theorem validData_of_unlisted {code : Byte} (h : ∀ r ∈ wireRows, code ≠ codeByte r.pattern) (data : Byte) :
    validData code data = false := by
  have listed : ∀ code : Byte, (code.toNat ≤ 8 ∨ code ∈ [regDecodeMode, regIntensity, regScanLimit, regShutdown,
      regDisplayTest]) → ∃ r ∈ wireRows, code = codeByte r.pattern := by decide
  refine Bool.eq_false_iff.2 fun hdata => ?_
  have hcode : code.toNat ≤ 8 ∨ code ∈ [regDecodeMode, regIntensity, regScanLimit, regShutdown, regDisplayTest] := by
    by_cases hnoop : code = 0x00#8
    · exact .inl (by rw [hnoop]; decide)
    · obtain ⟨y, hy, hreg⟩ | hreg := WirePair.Listed.code_cases (p := ⟨code, data⟩) ⟨hnoop, hdata⟩
      · have hdigit : ∀ y < 8, (regDigit y).toNat ≤ 8 := by decide
        replace hreg : code = regDigit y := hreg
        exact .inl (hreg ▸ hdigit y hy)
      · exact .inr (by simpa using hreg)
  obtain ⟨r, hr, heq⟩ := listed code hcode
  exact h r hr heq

/-- A wire pair that decodes to nothing has no valid data. -/
theorem validData_of_decodeWire_none {w : BitVec 16} (h : decodeWire w = none) :
    validData (codeByte w) (dataByte w) = false := by
  refine validData_of_unlisted (fun r hr heq => ?_) _
  have hmeets : ∀ r ∈ wireRows, r.mask = 0xFF00#16 ∧ r.pattern = wireWord (codeByte r.pattern) 0#8 := by decide
  obtain ⟨hmask, hpattern⟩ := hmeets r hr
  have hrow : w &&& r.mask = r.pattern := by rw [hmask, hpattern, wire_masked_eq_iff, heq]
  exact absurd (h.symm.trans (decodeWire_of_row hr hrow)) nofun

/-- An instruction goes on from a good state, unless it writes data outside the table. -/
theorem exec_next_or_refused {i : Instr} {s : State} (hs : s.Inv) :
    (∃ t, exec i s = .next t) ∨
      ∃ r, exec i s = .refused r ∧ ∃ p, pairOf i = some p ∧ validData p.code p.data = false := by
  obtain hi | ⟨p, hp⟩ := isCommand_or_pairOf i
  · obtain ⟨t, _, _, ht, _⟩ := commandsTouchOnlyTheBlock.2 i s hi hs
    exact .inl ⟨t, ht⟩
  · rw [exec_of_pairOf hp]
    obtain ⟨-, t, r, -, ho⟩ | ⟨hdata, ho⟩ := registerWrite_cases p.code p.data s
    · exact .inl ⟨_, ho⟩
    · exact .inr ⟨_, ho, p, hp, hdata⟩

theorem encode_of_pairOf {i : Instr} {p : WirePair} (h : pairOf i = some p) : encode i = .wire16 (p.code ++ p.data) := by
  cases i <;> cases h <;> rfl

theorem runWord_next_or_refused {e : Encoded} {s : State} (hs : s.Inv) :
    (∃ t, runWord e s = .next t) ∨
      ∃ r, runWord e s = .refused r ∧ ∃ code data : Byte, e = .wire16 (code ++ data) ∧ validData code data = false := by
  cases hd : decode e with
  | ok i =>
    rw [runWord_of_decode hd]
    refine (exec_next_or_refused hs).imp id ?_
    rintro ⟨r, ho, p, hp, hdata⟩
    exact ⟨r, ho, p.code, p.data, (encodeOfDecode e i hd).symm.trans (encode_of_pairOf hp), hdata⟩
  | rejected err =>
    cases e with
    | cmd64 w =>
      refine .inl ?_
      cases hc : decodeCommand w with
      | some i => simp [decode, hc] at hd
      | none => exact ⟨_, runWord_of_illegalWord (decodeCommand_eq_none.1 hc) s⟩
    | wire16 w =>
      cases hc : decodeWire w with
      | some i => simp [decode, hc] at hd
      | none =>
        exact .inr ⟨.unknownRegister, by simp only [runWord, decode, hc], codeByte w, dataByte w,
          congrArg Encoded.wire16 (wireWord_of w).symm, validData_of_decodeWire_none hc⟩

/-! ## No call stops -/

theorem runCommands_next {is : List Instr} (his : ∀ i ∈ is, i.isCommand = true) {s : State} (hs : s.Inv) :
    ∃ t rs, runCommands is s = .next (t, rs) := by
  induction is generalizing s with
  | nil => exact ⟨s, [], rfl⟩
  | cons i is ih =>
    obtain ⟨hi, hrest⟩ := List.forall_mem_cons.1 his
    obtain ⟨t, _, _, ht, _⟩ := commandsTouchOnlyTheBlock.2 i s hi hs
    obtain ⟨u, rs, hu⟩ := ih hrest ((exec_keeps ht).inv hs)
    exact ⟨u, t.reply :: rs, by simp only [runCommands, ht, hu]⟩

theorem runExpansion_next {cmds : List Instr} (hcmds : ∀ i ∈ cmds, IsExpansionCommand i)
    (answer : List (Option Reply) → Reply) {s : State} (hs : s.Inv) : ∃ t, runExpansion cmds answer s = .next t := by
  obtain ⟨t, rs, hrun⟩ := runCommands_next (fun i hi => (hcmds i hi).1) hs
  exact ⟨t.withReply (some (answer rs)), by simp only [runExpansion, hrun]⟩

theorem showRows_next {ys : List Nat} (hys : ∀ y ∈ ys, y < 8) {s : State} (hs : s.Inv) : ∃ t, showRows ys s = .next t := by
  induction ys generalizing s with
  | nil => exact ⟨_, rfl⟩
  | cons y ys ih =>
    obtain ⟨hy, hrest⟩ := List.forall_mem_cons.1 hys
    have hrow := hs.rowWindow?_eq hy
    cases hsend : sendWindow (s.rowPairs y) s with
    | mk t r =>
      cases r with
      | done =>
        rw [showRows_cons_of_done hrow hsend]
        exact ih hrest ((sendWindow_keeps (length_rowPairs s y).le hsend).inv hs)
      | failed => exact ⟨_, showRows_cons_of_failed hrow hsend⟩
      | blocked => exact ⟨_, showRows_cons_of_blocked hrow hsend⟩

theorem runCall_next (c : HostCall) {s : State} (hs : s.Inv) : ∃ t, runCall c s = .next t := by
  cases c with
  | clear => exact ⟨_, callClear_eq s⟩
  | loadMatrix grid => exact runExpansion_next (isExpansionCommand_loadMatrixCommands _ grid) _ hs
  | dumpMatrix => exact runExpansion_next (isExpansionCommand_dumpMatrixCommands _) _ hs
  | loadPattern text onChar offChar =>
    match onChar with
    | [] | _ :: _ :: _ => exact ⟨_, rfl⟩
    | [c] => exact runExpansion_next (isExpansionCommand_loadMatrixCommands _ (patternGrid text c)) _ hs
  | readFrame => exact runExpansion_next (isExpansionCommand_readFrameCommands _) _ hs
  | initialise | setBrightness => exact ⟨_, rfl⟩
  | setRotation degrees =>
    obtain ⟨t, _, _, ht, _⟩ := commandsTouchOnlyTheBlock.2 (.setrot degrees) s rfl hs
    exact ⟨_, callSetRotation_eq ht⟩
  | showFrame =>
    by_cases hctrl : s.ctrl = .uninitialized
    · exact ⟨_, callShow_of_uninitialized hctrl⟩
    · obtain ⟨t, ht⟩ := showRows_next (ys := List.range 8) (fun y hy => List.mem_range.1 hy) hs
      exact ⟨t, (if_neg hctrl).trans ht⟩

/-- A step from a good state goes on, unless its input is a pair that the table does not list. -/
theorem step_next_or_refused {s : State} (hs : s.Inv) :
    (∃ t, step s = .next t) ∨ ∃ r, step s = .refused r ∧ ∃ (code data : Byte) (rest : List Input),
      s.inputs = .word (.wire16 (code ++ data)) :: rest ∧ validData code data = false := by
  obtain ho | ⟨e, rest, -, hi, ho⟩ | ⟨c, rest, -, -, ho⟩ := step_cases s
  · exact .inl ⟨s, ho⟩
  · obtain ⟨t, ht⟩ | ⟨r, hr, code, data, rfl, hdata⟩ := runWord_next_or_refused (e := e) (s := s.taken rest) hs
    · exact .inl ⟨t, ho.trans ht⟩
    · exact .inr ⟨r, ho.trans hr, code, data, rest, hi, hdata⟩
  · obtain ⟨t, ht⟩ := runCall_next c (s := s.taken rest) hs
    exact .inl ⟨t, ho.trans ht⟩

/-- Settles O35; what a pair outside the table is answered is log entry 14. -/
theorem invariantExcludesFaults : Obligations.InvariantExcludesFaults := by
  intro s hs
  obtain ⟨t, ht⟩ | ⟨r, hr, hpair⟩ := step_next_or_refused hs
  · exact ⟨fun _ hf => absurd (ht.symm.trans hf) nofun, fun _ hr => absurd (ht.symm.trans hr) nofun⟩
  · exact ⟨fun _ hf => absurd (hr.symm.trans hf) nofun, fun _ _ => hpair⟩

end Sys2Proof.Machine
end

section
/-! PROOF. The sequencer sends only pairs of the register table (spec/44 R175). -/

namespace Sys2Proof.Machine

/-- Every pair driven so far is one the sequencer may send. -/
def AllListed (s : State) : Prop := ∀ p ∈ sentPairs s.sent, p.Listed

theorem AllListed.append {s t : State} (hs : AllListed s) {es : List WireEvent} (ht : t.sent = s.sent ++ es)
    (hes : ∀ p ∈ sentPairs es, p.Listed) : AllListed t := by
  unfold AllListed
  rw [ht, sentPairs_append]
  exact List.forall_mem_append.2 ⟨hs, hes⟩

theorem wireWrite_allListed {p : WirePair} (hp : p.Listed) {s t : State} {r : BusResult} (hs : AllListed s)
    (h : wireWrite p s = (t, r)) : AllListed t := by
  obtain ⟨-, -, rfl⟩ | ⟨-, -, rfl⟩ | ⟨-, -, rfl⟩ := wireWrite_cases h
  · exact hs.append rfl (List.forall_mem_singleton.2 hp)
  · exact hs
  · exact hs

theorem sendPairs_allListed {ps : List WirePair} (hps : ∀ p ∈ ps, p.Listed) {s t : State} {r : BusResult}
    (hs : AllListed s) (h : sendPairs ps s = (t, r)) : AllListed t := by
  induction ps generalizing s with
  | nil =>
    obtain ⟨rfl, -⟩ := Prod.mk.injEq .. ▸ h
    exact hs.append rfl (by simp)
  | cons p ps ih =>
    obtain ⟨hp, hrest⟩ := List.forall_mem_cons.1 hps
    obtain ⟨u, hw, hsend⟩ | ⟨-, hw⟩ := sendPairs_cons_cases h
    · exact ih hrest (wireWrite_allListed hp hs hw) hsend
    · exact wireWrite_allListed hp hs hw

theorem sendWindow_allListed {ps : List WirePair} (hps : ∀ p ∈ ps, p.Listed) {s t : State} {r : BusResult}
    (hs : AllListed s) (h : sendWindow ps s = (t, r)) : AllListed t :=
  sendPairs_allListed hps (hs.append rfl (by simp)) h

theorem sendWindows_allListed {pss : List (List WirePair)} (hpss : ∀ ps ∈ pss, ∀ p ∈ ps, p.Listed) {s t : State}
    {r : BusResult} (hs : AllListed s) (h : sendWindows pss s = (t, r)) : AllListed t := by
  induction pss generalizing s with
  | nil =>
    obtain ⟨rfl, -⟩ := Prod.mk.injEq .. ▸ h
    exact hs
  | cons ps pss ih =>
    obtain ⟨hps, hrest⟩ := List.forall_mem_cons.1 hpss
    obtain ⟨u, hw, hsend⟩ | ⟨-, hw⟩ := sendWindows_cons_cases h
    · exact ih hrest (sendWindow_allListed hps hs hw) hsend
    · exact sendWindow_allListed hps hs hw

theorem forall₂_of_mapM_eq_some {α β : Type} {f : α → Option β} {l : List α} {bs : List β} (h : l.mapM f = some bs) :
    List.Forall₂ (fun a b => f a = some b) l bs := by
  induction l generalizing bs with
  | nil => cases h; exact .nil
  | cons a l ih =>
    simp only [List.mapM_cons, Option.pure_def, Option.bind_eq_bind, Option.bind_eq_some_iff] at h
    obtain ⟨b, hb, bs, hbs, h⟩ := h
    cases h
    exact .cons hb (ih hbs)

theorem listed_of_rowWindow? {y : Nat} (hy : y < 8) {s : State} {ps : List WirePair} (h : rowWindow? y s = some ps) :
    ∀ p ∈ ps, p.Listed := by
  intro p hp
  rw [rowWindow?_eq_mapM] at h
  obtain ⟨k, hk⟩ := List.getElem?_of_mem hp
  obtain ⟨m, -, hm⟩ := exists_getElem?_of_forall₂ (forall₂_of_mapM_eq_some h).flip hk
  obtain ⟨d, -, rfl⟩ := Option.map_eq_some_iff.1 hm
  exact listed_digit hy d

theorem callInitialize_allListed {s : State} (hs : AllListed s) : AllListed (callInitialize s) := by
  have hpss : ∀ ps ∈ initializeWindows s.modules, ∀ p ∈ ps, p.Listed := by
    rw [initializeWindows_eq]
    refine List.forall_mem_map.2 fun q hq => List.forall_mem_map.2 fun _ _ => listed_initializeSettings q hq
  cases h : sendWindows (initializeWindows s.modules) s with
  | mk t r =>
    have ht := sendWindows_allListed hpss hs h
    cases r with
    | done => rwa [callInitialize_of_done h]
    | failed => rwa [callInitialize_of_failed h]
    | blocked => rwa [callInitialize_of_blocked h]

theorem callSetBrightness_allListed {level : Int} {s : State} (hs : AllListed s) : AllListed (callSetBrightness level s) := by
  by_cases hlevel : level < 0 ∨ level > 15
  · rwa [callSetBrightness_of_not_inRange hlevel]
  · replace hlevel : 0 ≤ level ∧ level ≤ 15 := by omega
    by_cases hctrl : s.ctrl = .uninitialized
    · rwa [callSetBrightness_of_uninitialized hlevel hctrl]
    · cases h : sendWindow (intensityWindow s.modules level) s with
      | mk t r =>
        have ht := sendWindow_allListed (List.forall_mem_map.2 fun _ _ => listed_intensity hlevel) hs h
        cases r with
        | done => rwa [callSetBrightness_of_done hlevel hctrl h]
        | failed => rwa [callSetBrightness_of_failed hlevel hctrl h]
        | blocked => rwa [callSetBrightness_of_blocked hlevel hctrl h]

theorem showRows_allListed {ys : List Nat} (hys : ∀ y ∈ ys, y < 8) {s t : State} (hs : AllListed s)
    (h : showRows ys s = .next t) : AllListed t := by
  induction ys generalizing s with
  | nil => cases h; exact hs
  | cons y ys ih =>
    obtain ⟨hy, hrest⟩ := List.forall_mem_cons.1 hys
    obtain ⟨ps, u, hrow, hend⟩ := showRows_cases h
    have hps := listed_of_rowWindow? hy hrow
    obtain ⟨hsend, hnext⟩ | ⟨hsend, rfl⟩ | ⟨hsend, rfl⟩ := hend
    · exact ih hrest (sendWindow_allListed hps hs hsend) hnext
    · have hsame : sentPairs (scrambleRows ys u).sent = sentPairs u.sent :=
        (sends_scrambleRows ys u).sent.trans (List.append_nil _)
      intro p hp
      exact sendWindow_allListed hps hs hsend p (hsame ▸ hp)
    · exact sendWindow_allListed hps hs hsend

theorem callShow_allListed {s t : State} (hs : AllListed s) (h : callShow s = .next t) : AllListed t := by
  unfold callShow at h
  split at h
  · cases h; exact hs
  · exact showRows_allListed (fun y hy => List.mem_range.1 hy) hs h

theorem callSetRotation_sent {degrees : Int} {s t : State} (h : callSetRotation degrees s = .next t) : t.sent = s.sent := by
  unfold callSetRotation at h
  split at h
  next u hu =>
    cases h
    obtain ⟨hframe, -⟩ := commandsTouchOnlyTheBlock.1 (.setrot degrees) s u rfl hu
    rw [State.withReply_sent, hframe]
  · cases h
  · cases h

/-- Settles O50: every window holds only listed pairs, and the other calls send nothing. -/
theorem sequencerSendsOnlyTheTable : Obligations.SequencerSendsOnlyTheTable := by
  intro c s t hnone h
  have hs : AllListed s := by rw [AllListed, hnone]; nofun
  have pseudo : (c = .clear ∨ (∃ g, c = .loadMatrix g) ∨ c = .dumpMatrix ∨
      (∃ text onChar offChar, c = .loadPattern text onChar offChar) ∨ c = .readFrame) → AllListed t := fun hc => by
    rw [pseudoOperationsAddNoState.1 c s t hc h]
    exact hs
  cases c with
  | clear | loadMatrix | dumpMatrix | loadPattern | readFrame => exact pseudo (by simp)
  | initialise => exact Host.Outcome.next.inj h ▸ callInitialize_allListed hs
  | setBrightness level => exact Host.Outcome.next.inj h ▸ callSetBrightness_allListed hs
  | setRotation degrees =>
    change AllListed t
    rwa [AllListed, callSetRotation_sent h]
  | showFrame => exact callShow_allListed hs h

end Sys2Proof.Machine
end

section
/-! PROOF. Two shows with nothing written between them send the same (spec/44 R187). -/

namespace Sys2Proof.Machine

/-! ## A show that is a step -/

theorem step_of_show {s : State} {rest : List Input} (hs : s.Inv) (hh : s.hung = false) (hctrl : s.ctrl ≠ .uninitialized)
    (hbus : BusCompletes (8 * s.modules) s) (hi : s.inputs = .call .showFrame :: rest) :
    ∃ t, Shown (s.taken rest) t ∧ step s = .next t := by
  obtain ⟨t, ht, hshow⟩ := callShow_of_completes (s := s.taken rest) hs hctrl hbus
  exact ⟨t, ht, (step_of_call hh hi).trans hshow⟩

namespace Shown
variable {s s' t t' : State} {rest rest' : List Input} (h : Shown (s.taken rest) t) (h' : Shown (s'.taken rest') t')
include h

theorem block_of_taken : SameBlock s t := ⟨h.modules, h.fb, h.rot⟩

/-- A step that is a `show` sends `8N` pairs. -/
theorem length_sentPairs : (sentPairs t.sent).length = 8 * s.modules := by
  have hsent : sentPairs t.sent = (s.taken rest).frameWindows.flatten := h.sent.trans (List.nil_append _)
  rw [hsent, length_flatten_frameWindows, State.taken_modules]

include h'
variable (hblock : SameBlock s s')
include hblock

/-- Two shows of one block drive the same events. -/
theorem sent_eq : t'.sent = t.sent := by
  have hframe : (s'.taken rest').frameWindows = (s.taken rest).frameWindows := hblock.frameWindows
  rw [h.events, h'.events, hframe]
  rfl

variable (hs : Wired s) (horder : s'.chainOrder = s.chainOrder)
include hs horder

/-- Two shows of one block leave the same digits in every module. -/
theorem digits_eq (j : Nat) {y : Nat} (hy : y < 8) : t'.chipRegister j (regDigit y) = t.chipRegister j (regDigit y) := by
  by_cases hj : j < s.modules
  · obtain ⟨m, hm⟩ := hs.exists_place hj
    have hm' : s'.chainOrder[m]? = some j := horder ▸ hm
    have hbyte : (s'.taken rest').rowByte y m = (s.taken rest).rowByte y m := by
      simp only [State.rowByte, State.taken_modules, State.taken_fb, State.taken_rot, hblock.modules, hblock.fb, hblock.rot]
    rw [h.digits m j hm y hy, h'.digits m j hm' y hy, hbyte]
  · have hmodules : t.modules = s.modules := h.modules
    have hmodules' : t'.modules = s.modules := h'.modules.trans hblock.modules
    rw [h.wired.chipRegister_eq_none (hmodules ▸ hj), h'.wired.chipRegister_eq_none (hmodules' ▸ hj)]

/-- A `show` of what the modules show already changes nothing of the chips. -/
theorem chips_eq (hchips : s'.chips = t.chips) : t'.chips = t.chips := by
  have hmodules : t.modules = s.modules := h.modules
  have hmodules' : t'.modules = s.modules := h'.modules.trans hblock.modules
  refine chips_ext (by rw [h.wired.chips, h'.wired.chips, hmodules, hmodules']) fun j hj r => ?_
  rw [h'.wired.chips, hmodules'] at hj
  change t'.chipRegister j r = t.chipRegister j r
  by_cases hdigit : ∃ y < 8, r = regDigit y
  · obtain ⟨y, hy, rfl⟩ := hdigit
    exact digits_eq h h' hblock hs horder j hy
  · obtain ⟨m, hm⟩ := hs.exists_place hj
    have hm' : s'.chainOrder[m]? = some j := horder ▸ hm
    refine (h'.others m j hm' r fun y hy heq => hdigit ⟨y, hy, heq⟩).trans ?_
    simp only [State.chipRegister, State.taken_chips, hchips]

end Shown

/-! ## What may come between them -/

theorem stepsTo_of_hung {s : State} (h : s.hung = true) (k : Nat) : stepsTo k s = some s := by
  induction k with
  | zero => rfl
  | succ k ih => simpa only [stepsTo, step_of_hung h] using ih

theorem stepsTo_succ_eq_some {k : Nat} {s u : State} (h : stepsTo (k + 1) s = some u) :
    ∃ t, step s = .next t ∧ stepsTo k t = some u := by
  unfold stepsTo at h
  split at h
  next t ht => exact ⟨t, ht, h⟩
  · cases h
  · cases h

/-- Inputs that do not write the block are taken one by one, and leave it, unless the host gets stuck. -/
theorem stepsTo_quiet {between rest : List Input} {t u : State} (hi : t.inputs = between ++ rest)
    (hquiet : ∀ x ∈ between, mayWriteBlock x = false) (hsteps : stepsTo between.length t = some u) (hh : u.hung = false) :
    SameBlock t u ∧ Keeps t u ∧ u.inputs = rest := by
  induction between generalizing t with
  | nil =>
    obtain rfl := Option.some.inj hsteps
    exact ⟨(BusFrame.refl _).sameBlock, .refl _, hi⟩
  | cons x between ih =>
    obtain ⟨hx, hrest⟩ := List.forall_mem_cons.1 hquiet
    cases ht : t.hung with
    | true =>
      cases (stepsTo_of_hung ht _).symm.trans hsteps
      exact absurd (ht.symm.trans hh) nofun
    | false =>
      obtain ⟨v, hstep, hsteps⟩ := stepsTo_succ_eq_some hsteps
      obtain ⟨hblock, hinputs⟩ := step_quiet ht hi hx hstep
      obtain ⟨hblock', hkeeps, hu⟩ := ih hinputs hrest hsteps
      exact ⟨hblock.trans hblock', (step_keeps hstep).trans hkeeps, hu⟩

/-- Without driver register writes among them, such inputs all go on. -/
theorem exists_stepsTo {between rest : List Input} {t : State} (ht : t.Inv) (hi : t.inputs = between ++ rest)
    (hquiet : ∀ x ∈ between, mayWriteBlock x = false) (hwire : ∀ w, .word (.wire16 w) ∉ between) :
    ∃ u, stepsTo between.length t = some u := by
  induction between generalizing t with
  | nil => exact ⟨t, rfl⟩
  | cons x between ih =>
    obtain ⟨hx, hrest⟩ := List.forall_mem_cons.1 hquiet
    cases hh : t.hung with
    | true => exact ⟨t, stepsTo_of_hung hh _⟩
    | false =>
      obtain ⟨v, hstep⟩ | ⟨-, -, code, data, inputs, hinputs, -⟩ := step_next_or_refused ht
      · obtain ⟨-, hv⟩ := step_quiet hh hi hx hstep
        obtain ⟨u, hu⟩ := ih ((step_keeps hstep).inv ht) hv hrest fun w hw => hwire w (List.mem_cons_of_mem _ hw)
        exact ⟨u, by simpa only [List.length_cons, stepsTo, hstep] using hu⟩
      · obtain ⟨rfl, -⟩ := List.cons.injEq .. ▸ hi.symm.trans hinputs
        exact absurd List.mem_cons_self (hwire _)

/-- Settles O48: the events and the digit registers are those of the frame, which is of the block alone. -/
theorem twoShowsSendTheSame : Obligations.TwoShowsSendTheSame := by
  constructor
  · intro s rest hs hh hctrl hbus hi
    obtain ⟨t, ht, hstep⟩ := step_of_show hs hh hctrl (hbus.of_le (by omega)) hi
    have hkeeps := step_keeps hstep
    have hbus' : BusCompletes (8 * t.modules) t := by
      rw [hkeeps.modules]
      exact BusCompletes.rest (k := 8 * s.modules) (hbus.of_le (by omega)) ht.bus
    obtain ⟨u, hu, hstep'⟩ := step_of_show (hkeeps.inv hs) (ht.hung.trans hh) (by simp [ht.ctrl]) hbus' ht.inputs
    exact ⟨t, u, hstep, hstep', ht.sent_eq hu ht.block_of_taken, ht.length_sentPairs,
      ht.chips_eq hu ht.block_of_taken hs.wired hkeeps.chainOrder rfl⟩
  · intro s between rest hs hh hctrl hbus hi hquiet
    obtain ⟨t, ht, hstep⟩ := step_of_show hs hh hctrl hbus hi
    have hkeeps := step_keeps hstep
    refine ⟨t, hstep, ht.length_sentPairs, exists_stepsTo (hkeeps.inv hs) ht.inputs hquiet,
      fun u hsteps huh huctrl hubus => ?_⟩
    obtain ⟨hblock, hkeeps', hinputs⟩ := stepsTo_quiet ht.inputs hquiet hsteps huh
    obtain ⟨v, hv, hstep'⟩ := step_of_show (hkeeps'.inv (hkeeps.inv hs)) huh huctrl hubus hinputs
    have hblocks := ht.block_of_taken.trans hblock
    exact ⟨v, hstep', hv.reply, ht.sent_eq hv hblocks, fun j _ hy =>
      ht.digits_eq hv hblocks hs.wired (hkeeps.trans hkeeps').chainOrder j hy⟩

end Sys2Proof.Machine
end

section
/-! PROOF. Exceptions: an error leaves the state, each command answers the statuses listed for it, and a step with nothing
presented does nothing (spec/60 R201, R203, R204, R207 and R209, spec/44 R190). -/

namespace Sys2Proof.Machine

/-! ## An error writes nothing -/

/-- Driver register writes are encoded as pairs, so what a command word decodes to is a command of the block. -/
theorem isCommand_of_decode_cmd64 {w : BitVec 64} {i : Instr} (h : decode (.cmd64 w) = .ok i) : i.isCommand = true := by
  obtain hi | ⟨p, hp⟩ := isCommand_or_pairOf i
  · exact hi
  · exact absurd ((encodeOfDecode _ i h).symm.trans (encode_of_pairOf hp)) nofun

/-- A command that answers an error has changed its reply only. -/
theorem exec_error {i : Instr} (hi : i.isCommand = true) {s t : State} (ht : exec i s = .next t) {st : Status} {d : Byte}
    (hreply : t.reply = some (.response st d)) (hst : st ≠ .ok) :
    d = 0x00#8 ∧ t = s.withReply (some (.response st 0x00#8)) := by
  have h := exec_command_outcome hi s
  rw [ht] at h
  cases h with
  | draws | turns | answers =>
    cases hreply
    exact absurd rfl hst
  | errs =>
    cases hreply
    exact ⟨rfl, rfl⟩

/-- Settles O28: a command word decodes to a command, of which the state survives any error, or is raised as illegal. -/
theorem errorWritesNothing : Obligations.ErrorWritesNothing := by
  intro s t w rest st d hh hi hstep hreply hst
  have hword : runWord (.cmd64 w) (s.taken rest) = .next t := (step_of_word hh hi).symm.trans hstep
  obtain ⟨i, hdecode, ho⟩ | ⟨-, ho⟩ | ho := runWord_cases (.cmd64 w) (s.taken rest)
  · exact exec_error (isCommand_of_decode_cmd64 hdecode) (ho.symm.trans hword) hreply hst
  · cases ho.symm.trans hword
    cases hreply
    exact ⟨rfl, rfl⟩
  · exact absurd (ho.symm.trans hword) nofun

/-! ## The statuses of each command -/

/-- Where the machine goes on with a response, its status is one of `P`. -/
def StatusIn (P : Status → Prop) (o : Host.Outcome State Fault Refusal) : Prop :=
  ∀ t st d, o = .next t → t.reply = some (.response st d) → P st

theorem StatusIn.response {P : Status → Prop} {st : Status} (hst : P st) (d : Byte) (s : State) :
    StatusIn P (.next (s.withReply (some (.response st d)))) := by
  rintro _ _ _ ⟨⟩ ⟨⟩
  exact hst

theorem StatusIn.fault {P : Status → Prop} (f : Fault) : StatusIn P (.fault f) := nofun

theorem DrawsBy.statusIn {i : Instr} {s : State} {f : Memory → Memory} (hi : DrawsBy s.modules i f) :
    StatusIn (· = .ok) (exec i s) := by
  rw [hi s rfl]
  exact .response (P := (· = .ok)) rfl _ _

theorem exec_setpx_statusIn (x y : Int) (v : Bool) (s : State) :
    StatusIn (fun st => st = .ok ∨ st = .outOfRange) (exec (.setpx x y v) s) := by
  by_cases hin : InBounds s.modules x y
  · rw [drawsBy_setpx hin v s rfl]
    exact .response (.inl rfl) _ _
  · rw [exec_setpx_of_not_inBounds hin]
    exact .response (.inr rfl) _ _

theorem exec_getpx_statusIn (x y : Int) (s : State) :
    StatusIn (fun st => st = .ok ∨ st = .outOfRange) (exec (.getpx x y) s) := by
  by_cases hin : InBounds s.modules x y
  · cases hb : s.fb.pixel? s.modules x y with
    | some b =>
      rw [exec_getpx_of_pixel hb]
      exact .response (.inl rfl) _ _
    | none =>
      rw [exec_getpx_of_no_byte hin hb]
      exact .fault _
  · rw [exec_getpx_of_not_inBounds hin]
    exact .response (.inr rfl) _ _

theorem exec_setrot_statusIn (deg : Int) (s : State) :
    StatusIn (fun st => st = .ok ∨ st = .invalidConfiguration) (exec (.setrot deg) s) := by
  change StatusIn _ (execSetrot deg s)
  by_cases hbad : ¬ IsOrientation deg ∨ (s.modules > 1 ∧ IsQuarterTurn deg)
  · rw [execSetrot_refused hbad]
    exact .response (.inr rfl) _ _
  · obtain ⟨hdeg, hquarter⟩ := not_or.1 hbad
    rw [execSetrot_accepted (not_not.1 hdeg) (not_and.1 hquarter)]
    exact .response (.inl rfl) _ _

theorem exec_rdrow_statusIn (y m : Int) (s : State) :
    StatusIn (fun st => st = .ok ∨ st = .outOfRange) (exec (.rdrow y m) s) := by
  change StatusIn _ (execRdrow y m s)
  unfold execRdrow
  split
  · exact .response (.inr rfl) _ _
  split
  · exact .response (.inl rfl) _ _
  · exact .fault _

/-- Settles O29: a drawing command other than SETPX always draws; the other four answer OK or their one error. -/
theorem statusesOfEachCommand : Obligations.StatusesOfEachCommand := by
  intro i s t st d hi ht hreply
  cases i with
  | setpx x y v => exact exec_setpx_statusIn x y v s t st d ht hreply
  | getpx x y => exact exec_getpx_statusIn x y s t st d ht hreply
  | rdrow y m => exact exec_rdrow_statusIn y m s t st d ht hreply
  | setrot deg => exact exec_setrot_statusIn deg s t st d ht hreply
  | fill v => exact (drawsBy_fill s.modules v).statusIn t st d ht hreply
  | hline x y w v => exact (drawsBy_hline s.modules x y w v).statusIn t st d ht hreply
  | vline x y h v => exact (drawsBy_vline s.modules x y h v).statusIn t st d ht hreply
  | line x0 y0 x1 y1 v => exact (drawsBy_line s.modules x0 y0 x1 y1 v).statusIn t st d ht hreply
  | rect x y w h v => exact (drawsBy_rect s.modules x y w h v).statusIn t st d ht hreply
  | fillrect x y w h v => exact (drawsBy_fillrect s.modules x y w h v).statusIn t st d ht hreply
  | scroll dx dy => exact (drawsBy_scroll s.modules dx dy).statusIn t st d ht hreply
  | _ => cases hi

/-! ## Nothing presented -/

/-- Settles O9: without input, and in a bus write that never returns, there is nothing to take (log entries 3 and 15). -/
theorem nothingHappensUnasked : Obligations.NothingHappensUnasked := fun _ h => h.elim step_of_no_input step_of_hung

end Sys2Proof.Machine
end

section
/-! PROOF. Construction: which parameters are refused and what state the others give (spec/70 R221, spec/00 R10 and R32). -/

namespace Sys2Proof.Machine

theorem construct_of_modules_out_of_range {n : Nat} (hn : ¬ (1 ≤ n ∧ n ≤ 255)) (order : List Nat) :
    construct n order = none :=
  if_neg fun ⟨hlow, hhigh, _⟩ => hn ⟨hlow, hhigh⟩

theorem construct_of_perm {n : Nat} {order : List Nat} (hn : 1 ≤ n ∧ n ≤ 255) (ho : order.Perm (List.range n)) :
    construct n order = some (State.built n order) :=
  if_pos ⟨hn.1, hn.2, ho⟩

theorem Memory.length_atReset (n : Nat) : (Memory.atReset n).length = 8 * n := by
  simp [Memory.atReset]

/-- Settles O31: what is not refused is the built state, and that meets the invariant whatever the free draws are. -/
theorem constructionGivesResetState : Obligations.ConstructionGivesResetState := by
  intro n order
  constructor
  · intro hn
    exact construct_of_modules_out_of_range hn order
  · intro hlow hhigh ho
    have hinv : (State.built n order).Inv := State.inv_built ⟨hlow, hhigh⟩ ho
    exact ⟨State.built n order, construct_of_perm ⟨hlow, hhigh⟩ ho, rfl, rfl, Memory.length_atReset n, rfl, rfl, hinv⟩

end Sys2Proof.Machine
end
